-- ==== Sys2Proof/Word.lean ====
section
/-! DEFINITION. The word types of the transactor (00_scope.md R7) and the two fixed byte constants of R6. -/

namespace Sys2Proof

/-- `u8` of R7: one byte of the wire. -/
abbrev Byte := BitVec 8

/-- `u16` of R7: one wire value, one limit, one reading, the summary status word. -/
abbrev Word := BitVec 16

/-- `u32` of R7: a physical value of the direct format (R260), a host response value (R300). -/
abbrev DWord := BitVec 32

/-- A 7-bit bus address (R40). -/
abbrev BusAddr := BitVec 7

/-- The unique id of a topology node (R6). Ids are names, no arithmetic is done on them. -/
abbrev NodeId := Nat

/-- `ERR_BYTE` of R6, fixed: the sentinel every error read answers. -/
def errByte : Byte := 0xFF

/-- `ALL_PAGES` of R6, fixed: the reserved all-pages pseudo-index. -/
def allPages : Byte := 0xFF

end Sys2Proof
end

