-- ==== Sys2Proof/Syntax.lean ====
section
/-! DEFINITION. The syntax: field names of a page (10_state.md R21), operands, the instructions (one constructor per
row of spec/opcode_table.json) and the frames that encode them (30_encoding.md). -/

namespace Sys2Proof

/-- The five sub-status bytes of R24. -/
inductive SubStatus where
  | vout | iout | input | temperature | cml
deriving DecidableEq, Repr

/-- The 8-bit page fields of R21. -/
inductive ByteField where
  | operation | onOffConfig | voutMode
  | status (f : SubStatus)
deriving DecidableEq, Repr

/-- The 16-bit limit fields of R21. -/
inductive LimitField where
  | voutOvFault | voutOvWarn | voutUvWarn | voutUvFault
  | vinOvFault | vinOvWarn | vinUvWarn | vinUvFault
  | ioutOcFault | ioutOcWarn | ioutUcFault
  | iinOcFault | iinOcWarn
  | poutOpFault | poutOpWarn | pinOpWarn
  | otFault | otWarn | utWarn | utFault
deriving DecidableEq, Repr

/-- The 16-bit live-reading fields of R21. -/
inductive ReadingField where
  | vin | iin | vout | iout | temperature1 | pout | pin
deriving DecidableEq, Repr

/-- The 16-bit page fields but `flags` (which only `H_PAGE_CONFIG` writes, R22). -/
inductive WordField where
  | limit (f : LimitField)
  | reading (f : ReadingField)
  | statusWord
deriving DecidableEq, Repr

/-- The manufacturer-info strings of R21. -/
inductive StringField where
  | id | model | revision | location | date | serial
deriving DecidableEq, Repr

/-- Every field of a page record (R21). -/
inductive PageField where
  | word (f : WordField)
  | byte (f : ByteField)
  | string (f : StringField)
  | coefficients
  | flags
deriving DecidableEq, Repr

/-- The field names a host operation may carry (R304 to R307): a page field, or one of the three names that
`H_GET_FIELD` reads outside a page (R305). -/
inductive HostField where
  | page (f : PageField)
  | addr | control | latch
deriving DecidableEq, Repr

/-- A raw value of the host port: a number of at most 32 bits or a byte string (R300, R304). -/
inductive RawValue where
  | num (v : DWord)
  | bytes (v : List Byte)
deriving DecidableEq, Repr

/-- The two accesses to a command code: the write call that delivers `[code] ++ data` to REGDEV `d` (R120, R150), and
the read call that asks REGDEV `d` for one byte of it (R120, R160). The device is not part of the code byte: on the
wire it is the addressed slave whose framer makes the call. -/
inductive CmdAccess where
  | write (d : NodeId) (data : List Byte)
  | read (d : NodeId)
deriving DecidableEq, Repr

/-- The instructions: one constructor per row of spec/opcode_table.json. The `data` byte that RX, NACK, STOP and the
reserved kinds ignore (R63) is kept as an operand, so that no bit of a request word is lost. -/
inductive Instr where
  -- requests on the wire port (R60, R61, R63)
  | startSend (a : BusAddr)
  | startRecv (a : BusAddr)
  | tx (v : Byte)
  | rx (ignored : Byte)
  | nack (ignored : Byte)
  | stop (ignored : Byte)
  | reserved5 (ignored : Byte)
  | reserved6 (ignored : Byte)
  | reserved7 (ignored : Byte)
  -- command codes (R64, R200 to R247)
  | page (c : CmdAccess)
  | operation (c : CmdAccess)
  | onOffConfig (c : CmdAccess)
  | clearFaults (c : CmdAccess)
  | capability (c : CmdAccess)
  | voutMode (c : CmdAccess)
  | coefficients (c : CmdAccess)
  | statusByte (c : CmdAccess)
  | statusWord (c : CmdAccess)
  | statusVout (c : CmdAccess)
  | statusIout (c : CmdAccess)
  | statusInput (c : CmdAccess)
  | statusTemperature (c : CmdAccess)
  | statusCml (c : CmdAccess)
  | voutOvFaultLimit (c : CmdAccess)
  | voutOvWarnLimit (c : CmdAccess)
  | voutUvWarnLimit (c : CmdAccess)
  | voutUvFaultLimit (c : CmdAccess)
  | ioutOcFaultLimit (c : CmdAccess)
  | ioutOcWarnLimit (c : CmdAccess)
  | ioutUcFaultLimit (c : CmdAccess)
  | otFaultLimit (c : CmdAccess)
  | otWarnLimit (c : CmdAccess)
  | utWarnLimit (c : CmdAccess)
  | utFaultLimit (c : CmdAccess)
  | vinOvFaultLimit (c : CmdAccess)
  | vinOvWarnLimit (c : CmdAccess)
  | vinUvWarnLimit (c : CmdAccess)
  | vinUvFaultLimit (c : CmdAccess)
  | iinOcFaultLimit (c : CmdAccess)
  | iinOcWarnLimit (c : CmdAccess)
  | poutOpFaultLimit (c : CmdAccess)
  | poutOpWarnLimit (c : CmdAccess)
  | pinOpWarnLimit (c : CmdAccess)
  | readVin (c : CmdAccess)
  | readIin (c : CmdAccess)
  | readVout (c : CmdAccess)
  | readIout (c : CmdAccess)
  | readTemperature1 (c : CmdAccess)
  | readPout (c : CmdAccess)
  | readPin (c : CmdAccess)
  | mfrId (c : CmdAccess)
  | mfrModel (c : CmdAccess)
  | mfrRevision (c : CmdAccess)
  | mfrLocation (c : CmdAccess)
  | mfrDate (c : CmdAccess)
  | mfrSerial (c : CmdAccess)
  | icDeviceId (c : CmdAccess)
  -- operations of the host port (R68)
  | hReset
  | hSetAddr (s : NodeId) (a : BusAddr)
  | hPageConfig (d : NodeId) (p : Byte) (flags : Word)
  | hSetField (d : NodeId) (p : Byte) (f : HostField) (v : RawValue)
  | hGetField (s : NodeId) (p : Byte) (f : HostField)
  | hSetPhys (d : NodeId) (p : Byte) (f : HostField) (x : DWord)
  | hGetPhys (d : NodeId) (p : Byte) (f : HostField)
deriving DecidableEq, Repr

/-- The operands a host operation may carry (R68); each operation uses the ones its row names. -/
structure HostArgs where
  node  : NodeId
  addr  : BusAddr
  page  : Byte
  flags : Word
  field : HostField
  value : RawValue
  phys  : DWord
deriving DecidableEq, Repr

/-- All operands zero (the first field name, the number 0). -/
def HostArgs.zero : HostArgs :=
  { node := 0, addr := 0, page := 0, flags := 0, field := .page (.word (.limit .voutOvFault)), value := .num 0, phys := 0 }

/-- One request of the bus master or one operation of the host (R5): what the block's two ports carry. -/
inductive Request where
  | wire (req : BitVec 11)
  | host (op : BitVec 4) (args : HostArgs)
deriving DecidableEq, Repr

/-- What a decoder is given: the three formats of 30_encoding.md. `payload` is the CMD format of a write call
(R64), `latch` is the CMD format of a read call, whose code is the command latch (R56). -/
inductive Frame where
  | wire (req : BitVec 11)
  | payload (d : NodeId) (bytes : List Byte)
  | latch (d : NodeId) (code : Byte)
  | host (op : BitVec 4) (args : HostArgs)
deriving DecidableEq, Repr

/-- The frame a request is fetched as. -/
def Request.frame : Request → Frame
  | .wire req => .wire req
  | .host op args => .host op args

end Sys2Proof
end

