-- ==== Sys2Proof/Machine/Page.lean ====
section
/-! DEFINITION. The page record (10_state.md R21 to R24), its accessors by field name, and the device-level record of
the register model (R20). These two are what a device hook may change (42_register_model.md R157), so Config needs
them. -/

namespace Sys2Proof.Machine

/-- The configuration family of R21. -/
structure Control where
  operation   : Byte
  onOffConfig : Byte
  voutMode    : Byte
deriving DecidableEq, Repr, Inhabited

/-- The limits family of R21: raw 16-bit values. -/
structure Limits where
  voutOvFault : Word
  voutOvWarn  : Word
  voutUvWarn  : Word
  voutUvFault : Word
  vinOvFault  : Word
  vinOvWarn   : Word
  vinUvWarn   : Word
  vinUvFault  : Word
  ioutOcFault : Word
  ioutOcWarn  : Word
  ioutUcFault : Word
  iinOcFault  : Word
  iinOcWarn   : Word
  poutOpFault : Word
  poutOpWarn  : Word
  pinOpWarn   : Word
  otFault     : Word
  otWarn      : Word
  utWarn      : Word
  utFault     : Word
deriving DecidableEq, Repr, Inhabited

/-- The live-readings family of R21: raw 16-bit values. -/
structure Readings where
  vin          : Word
  iin          : Word
  vout         : Word
  iout         : Word
  temperature1 : Word
  pout         : Word
  pin          : Word
deriving DecidableEq, Repr, Inhabited

/-- The status family of R21: the summary word (R23) and the five sub-status bytes (R24). The byte-wide status register
is `word[7:0]`, no field of its own (R23). -/
structure Status where
  word        : Word
  vout        : Byte
  iout        : Byte
  input       : Byte
  temperature : Byte
  cml         : Byte
deriving DecidableEq, Repr, Inhabited

/-- The manufacturer-info family of R21: byte strings of at most `STR_MAX` bytes. -/
structure MfrInfo where
  id       : List Byte
  model    : List Byte
  revision : List Byte
  location : List Byte
  date     : List Byte
  serial   : List Byte
deriving DecidableEq, Repr, Inhabited

/-- One page record (R21): the capability flags (R22), the five families, and the raw 5-byte block. -/
structure Page where
  flags        : Word
  control      : Control
  limits       : Limits
  readings     : Readings
  status       : Status
  mfr          : MfrInfo
  coefficients : List Byte
deriving DecidableEq, Repr, Inhabited

/-- The device-level elements of a REGDEV (R20). `outBuf` has `BUF_CAP` bytes, of which `outBuf[0..outLen-1]` are
staged. -/
structure RegModel where
  page       : Byte
  cmd        : Byte
  pagesValid : Bool
  outBuf     : List Byte
  outLen     : Nat
  inLen      : Nat
deriving DecidableEq, Repr, Inhabited

/-! ### Fields by name -/

def Limits.get (l : Limits) : LimitField → Word
  | .voutOvFault => l.voutOvFault
  | .voutOvWarn => l.voutOvWarn
  | .voutUvWarn => l.voutUvWarn
  | .voutUvFault => l.voutUvFault
  | .vinOvFault => l.vinOvFault
  | .vinOvWarn => l.vinOvWarn
  | .vinUvWarn => l.vinUvWarn
  | .vinUvFault => l.vinUvFault
  | .ioutOcFault => l.ioutOcFault
  | .ioutOcWarn => l.ioutOcWarn
  | .ioutUcFault => l.ioutUcFault
  | .iinOcFault => l.iinOcFault
  | .iinOcWarn => l.iinOcWarn
  | .poutOpFault => l.poutOpFault
  | .poutOpWarn => l.poutOpWarn
  | .pinOpWarn => l.pinOpWarn
  | .otFault => l.otFault
  | .otWarn => l.otWarn
  | .utWarn => l.utWarn
  | .utFault => l.utFault

def Limits.set (l : Limits) (f : LimitField) (v : Word) : Limits :=
  match f with
  | .voutOvFault => { l with voutOvFault := v }
  | .voutOvWarn => { l with voutOvWarn := v }
  | .voutUvWarn => { l with voutUvWarn := v }
  | .voutUvFault => { l with voutUvFault := v }
  | .vinOvFault => { l with vinOvFault := v }
  | .vinOvWarn => { l with vinOvWarn := v }
  | .vinUvWarn => { l with vinUvWarn := v }
  | .vinUvFault => { l with vinUvFault := v }
  | .ioutOcFault => { l with ioutOcFault := v }
  | .ioutOcWarn => { l with ioutOcWarn := v }
  | .ioutUcFault => { l with ioutUcFault := v }
  | .iinOcFault => { l with iinOcFault := v }
  | .iinOcWarn => { l with iinOcWarn := v }
  | .poutOpFault => { l with poutOpFault := v }
  | .poutOpWarn => { l with poutOpWarn := v }
  | .pinOpWarn => { l with pinOpWarn := v }
  | .otFault => { l with otFault := v }
  | .otWarn => { l with otWarn := v }
  | .utWarn => { l with utWarn := v }
  | .utFault => { l with utFault := v }

def Readings.get (r : Readings) : ReadingField → Word
  | .vin => r.vin
  | .iin => r.iin
  | .vout => r.vout
  | .iout => r.iout
  | .temperature1 => r.temperature1
  | .pout => r.pout
  | .pin => r.pin

def Readings.set (r : Readings) (f : ReadingField) (v : Word) : Readings :=
  match f with
  | .vin => { r with vin := v }
  | .iin => { r with iin := v }
  | .vout => { r with vout := v }
  | .iout => { r with iout := v }
  | .temperature1 => { r with temperature1 := v }
  | .pout => { r with pout := v }
  | .pin => { r with pin := v }

def Status.get (s : Status) : SubStatus → Byte
  | .vout => s.vout
  | .iout => s.iout
  | .input => s.input
  | .temperature => s.temperature
  | .cml => s.cml

def Status.set (s : Status) (f : SubStatus) (v : Byte) : Status :=
  match f with
  | .vout => { s with vout := v }
  | .iout => { s with iout := v }
  | .input => { s with input := v }
  | .temperature => { s with temperature := v }
  | .cml => { s with cml := v }

def MfrInfo.get (m : MfrInfo) : StringField → List Byte
  | .id => m.id
  | .model => m.model
  | .revision => m.revision
  | .location => m.location
  | .date => m.date
  | .serial => m.serial

def MfrInfo.set (m : MfrInfo) (f : StringField) (v : List Byte) : MfrInfo :=
  match f with
  | .id => { m with id := v }
  | .model => { m with model := v }
  | .revision => { m with revision := v }
  | .location => { m with location := v }
  | .date => { m with date := v }
  | .serial => { m with serial := v }

def Page.getByte (p : Page) : ByteField → Byte
  | .operation => p.control.operation
  | .onOffConfig => p.control.onOffConfig
  | .voutMode => p.control.voutMode
  | .status f => p.status.get f

def Page.setByte (p : Page) (f : ByteField) (v : Byte) : Page :=
  match f with
  | .operation => { p with control := { p.control with operation := v } }
  | .onOffConfig => { p with control := { p.control with onOffConfig := v } }
  | .voutMode => { p with control := { p.control with voutMode := v } }
  | .status f => { p with status := p.status.set f v }

def Page.getWord (p : Page) : WordField → Word
  | .limit f => p.limits.get f
  | .reading f => p.readings.get f
  | .statusWord => p.status.word

def Page.setWord (p : Page) (f : WordField) (v : Word) : Page :=
  match f with
  | .limit f => { p with limits := p.limits.set f v }
  | .reading f => { p with readings := p.readings.set f v }
  | .statusWord => { p with status := { p.status with word := v } }

def Page.getString (p : Page) (f : StringField) : List Byte := p.mfr.get f

def Page.setString (p : Page) (f : StringField) (v : List Byte) : Page := { p with mfr := p.mfr.set f v }

/-- All six status fields at 0 (R25). -/
def Status.zero : Status := { word := 0, vout := 0, iout := 0, input := 0, temperature := 0, cml := 0 }

/-- What CLEAR_FAULTS does to one page (R151): the six status fields become 0. -/
def Page.clearStatus (p : Page) : Page := { p with status := Status.zero }

/-- The default of `PAGE_DEFAULT` (R6): all zero, empty strings. -/
def Page.zero : Page where
  flags := 0
  control := { operation := 0, onOffConfig := 0, voutMode := 0 }
  limits :=
    { voutOvFault := 0, voutOvWarn := 0, voutUvWarn := 0, voutUvFault := 0,
      vinOvFault := 0, vinOvWarn := 0, vinUvWarn := 0, vinUvFault := 0,
      ioutOcFault := 0, ioutOcWarn := 0, ioutUcFault := 0, iinOcFault := 0, iinOcWarn := 0,
      poutOpFault := 0, poutOpWarn := 0, pinOpWarn := 0,
      otFault := 0, otWarn := 0, utWarn := 0, utFault := 0 }
  readings := { vin := 0, iin := 0, vout := 0, iout := 0, temperature1 := 0, pout := 0, pin := 0 }
  status := Status.zero
  mfr := { id := [], model := [], revision := [], location := [], date := [], serial := [] }
  coefficients := [0, 0, 0, 0, 0]

/-- The reset value of a page (R21, R27): its `PAGE_DEFAULT` record with the six status fields 0. -/
def Page.resetFrom (dflt : Page) : Page := dflt.clearStatus

end Sys2Proof.Machine
end

