-- ==== Sys2Proof/Config.lean ====
section
/-! DEFINITION. The implementation parameters of 00_scope.md R6, as plain data, and the device hooks, whose behaviour
no rule fixes, as constants without a body. -/

namespace Sys2Proof

open Sys2Proof.Machine (Page RegModel)

/-- The capability set of a slave (R15), a subset of {RECEIVE, SEND, EVENT}. -/
structure Caps where
  receive : Bool
  send    : Bool
  event   : Bool
deriving DecidableEq, Repr

/-- The seven quantities of R270. -/
inductive Quantity where
  | vout | vin | iout | iin | pout | pin | temperature
deriving DecidableEq, Repr

/-- `FMT`: which codec a host physical accessor uses (R6, R270). -/
inductive Format where
  | linear | direct
deriving DecidableEq, Repr

/-- `COEFF`: the triple of the direct codec (R260). -/
structure Coeff where
  gain     : Int
  offset   : Int
  exponent : Int
deriving DecidableEq, Repr

/-- One value for each quantity. -/
structure PerQuantity (α : Type) where
  vout        : α
  vin         : α
  iout        : α
  iin         : α
  pout        : α
  pin         : α
  temperature : α
deriving DecidableEq, Repr

def PerQuantity.get {α : Type} (t : PerQuantity α) : Quantity → α
  | .vout => t.vout
  | .vin => t.vin
  | .iout => t.iout
  | .iin => t.iin
  | .pout => t.pout
  | .pin => t.pin
  | .temperature => t.temperature

def PerQuantity.all {α : Type} (a : α) : PerQuantity α :=
  { vout := a, vin := a, iout := a, iin := a, pout := a, pin := a, temperature := a }

/-- The capability flags of a page (R22). -/
inductive PageFlag where
  | hasVoutMode | hasVout | hasVin | hasIout | hasIin | hasPout | hasPin | hasTemperature | hasMfrInfo | hasCoefficients
deriving DecidableEq, Repr

/-- The entry classes of R157, each with the field it acts on. -/
inductive CmdClass where
  | rwb (f : ByteField)
  | rww (f : WordField)
  | rob (f : ByteField)
  | row (f : WordField)
  | ro5
  | str (f : StringField)
  | sb
  | cap
  | devid
  | wo0
  | page
deriving DecidableEq, Repr

/-- One entry of `CMD_TABLE` (R157); `flag = none` is the table's NONE. The entry's name is the name of the definition
that lists it (Machine/CommandTable.lean); no rule reads it. -/
structure CmdEntry where
  code : Byte
  cls  : CmdClass
  flag : Option PageFlag
deriving DecidableEq, Repr

/-- The parameters of a STUB (R6). -/
structure StubCfg where
  caps    : Caps
  bcastEn : Bool
deriving DecidableEq, Repr

/-- The parameters of a REGDEV (R6). A hook is `none` for the default hook of R6 (no effect, no bytes) or `some k` for a
device-specific hook number `k`, whose behaviour is free (`Config.hookWrite k` and its fellows). -/
structure RegDevCfg where
  numPages    : Nat
  bcastEn     : Bool
  cmdTable    : List CmdEntry
  capability  : Byte
  icDeviceId  : List Byte
  pageDefault : List Page
  fmt         : PerQuantity Format
  coeff       : PerQuantity Coeff
  hookWrite   : Option Nat
  hookRead    : Option Nat
  hookQuick   : Option Nat
deriving DecidableEq, Repr

/-! ### `TOPOLOGY`: a finite tree by construction (R6, 90_conflicts.md C6) -/

mutual
/-- An ordered bus list of nodes. `slave` is a STUB or REGDEV node, `mux` a MUX node with its channels. -/
inductive TopoBus where
  | empty
  | slave (id : NodeId) (rest : TopoBus)
  | mux (id : NodeId) (chans : TopoChans) (rest : TopoBus)
deriving DecidableEq, Repr

/-- The `NCHAN` channels of a MUX, channel 0 first, each owning a child bus. -/
inductive TopoChans where
  | nil
  | channel (child : TopoBus) (rest : TopoChans)
deriving DecidableEq, Repr
end

/-- The block-wide parameters of R6. The per-node parameters stand in the node records (Machine/State.lean). No step
writes any of them. -/
structure Config where
  root           : TopoBus
  maxDepth       : Nat
  bcastAddr      : BusAddr
  bufCap         : Nat
  cmdPage        : Byte
  cmdClearFaults : Byte
deriving DecidableEq, Repr

/-- `STR_MAX = BUF_CAP - 2` (R6). -/
def Config.strMax (g : Config) : Nat := g.bufCap - 2

/-! ### Device hooks (R6, R157, R162, R169)

The source gives the hooks no behaviour; R6 gives each a default. A device-specific hook is a constant without a body:
its first argument is the hook's number, so that any number of hooks may differ. By its type a hook changes `rd[d]` and
`pg[d]` only (R157). -/

/-- `HOOK_WRITE(d, idx, P)` of hook number `k`. -/
opaque Config.hookWrite (k : Nat) (idx : Nat) (payload : List Byte) (rd : RegModel) (pg : List Page) : RegModel × List Page

/-- `HOOK_READ(d, idx)` of hook number `k`: the bytes to stage, in wire order, and the device after the hook. -/
opaque Config.hookRead (k : Nat) (idx : Nat) (rd : RegModel) (pg : List Page) : List Byte × RegModel × List Page

/-- `HOOK_QUICK(d, read)` of hook number `k`. -/
opaque Config.hookQuick (k : Nat) (read : Bool) (rd : RegModel) (pg : List Page) : RegModel × List Page

/-! ### A value the spec does not state -/

/-- The page selector after a dispatched write of an entry of class PAGE (page index, payload, selector before). R157 calls
that case unreachable, which it is only while such an entry stands at `CMD_PAGE` alone; R6 allows it at any code and no
rule says what the write stores. A free value. DESIGN CHOICE: log entry 9. -/
opaque Config.pageClassWrite (idx : Nat) (payload : List Byte) (page : Byte) : Byte

end Sys2Proof
end

