-- ==== Sys2Proof/Machine/CommandTable.lean ====
section
/-! DEFINITION. The default `CMD_TABLE` (43_commands.md R200 to R247), one entry per command code, and table lookup. -/

namespace Sys2Proof.Machine

/-- `PAGE` (R200). -/
def entryPage : CmdEntry := { code := 0x00, cls := .page, flag := none }

/-- `OPERATION` (R201). -/
def entryOperation : CmdEntry := { code := 0x01, cls := .rwb .operation, flag := none }

/-- `ON_OFF_CONFIG` (R202). -/
def entryOnOffConfig : CmdEntry := { code := 0x02, cls := .rwb .onOffConfig, flag := none }

/-- `CLEAR_FAULTS` (R203). -/
def entryClearFaults : CmdEntry := { code := 0x03, cls := .wo0, flag := none }

/-- `CAPABILITY` (R204). -/
def entryCapability : CmdEntry := { code := 0x19, cls := .cap, flag := none }

/-- `VOUT_MODE` (R205). -/
def entryVoutMode : CmdEntry := { code := 0x20, cls := .rwb .voutMode, flag := (some .hasVoutMode) }

/-- `COEFFICIENTS` (R206). -/
def entryCoefficients : CmdEntry := { code := 0x30, cls := .ro5, flag := (some .hasCoefficients) }

/-- `STATUS_BYTE` (R207). -/
def entryStatusByte : CmdEntry := { code := 0x78, cls := .sb, flag := none }

/-- `STATUS_WORD` (R208). -/
def entryStatusWord : CmdEntry := { code := 0x79, cls := .rww .statusWord, flag := none }

/-- `STATUS_VOUT` (R209). -/
def entryStatusVout : CmdEntry := { code := 0x7A, cls := .rwb (.status .vout), flag := (some .hasVout) }

/-- `STATUS_IOUT` (R210). -/
def entryStatusIout : CmdEntry := { code := 0x7B, cls := .rwb (.status .iout), flag := (some .hasIout) }

/-- `STATUS_INPUT` (R211). -/
def entryStatusInput : CmdEntry := { code := 0x7C, cls := .rwb (.status .input), flag := (some .hasVin) }

/-- `STATUS_TEMPERATURE` (R212). -/
def entryStatusTemperature : CmdEntry := { code := 0x7D, cls := .rwb (.status .temperature), flag := (some .hasTemperature) }

/-- `STATUS_CML` (R213). -/
def entryStatusCml : CmdEntry := { code := 0x7E, cls := .rwb (.status .cml), flag := none }

/-- `VOUT_OV_FAULT_LIMIT` (R214). -/
def entryVoutOvFaultLimit : CmdEntry := { code := 0x40, cls := .rww (.limit .voutOvFault), flag := (some .hasVout) }

/-- `VOUT_OV_WARN_LIMIT` (R215). -/
def entryVoutOvWarnLimit : CmdEntry := { code := 0x42, cls := .rww (.limit .voutOvWarn), flag := (some .hasVout) }

/-- `VOUT_UV_WARN_LIMIT` (R216). -/
def entryVoutUvWarnLimit : CmdEntry := { code := 0x43, cls := .rww (.limit .voutUvWarn), flag := (some .hasVout) }

/-- `VOUT_UV_FAULT_LIMIT` (R217). -/
def entryVoutUvFaultLimit : CmdEntry := { code := 0x44, cls := .rww (.limit .voutUvFault), flag := (some .hasVout) }

/-- `IOUT_OC_FAULT_LIMIT` (R218). -/
def entryIoutOcFaultLimit : CmdEntry := { code := 0x46, cls := .rww (.limit .ioutOcFault), flag := (some .hasIout) }

/-- `IOUT_OC_WARN_LIMIT` (R219). -/
def entryIoutOcWarnLimit : CmdEntry := { code := 0x4A, cls := .rww (.limit .ioutOcWarn), flag := (some .hasIout) }

/-- `IOUT_UC_FAULT_LIMIT` (R220). -/
def entryIoutUcFaultLimit : CmdEntry := { code := 0x4B, cls := .rww (.limit .ioutUcFault), flag := (some .hasIout) }

/-- `OT_FAULT_LIMIT` (R221). -/
def entryOtFaultLimit : CmdEntry := { code := 0x4F, cls := .rww (.limit .otFault), flag := (some .hasTemperature) }

/-- `OT_WARN_LIMIT` (R222). -/
def entryOtWarnLimit : CmdEntry := { code := 0x51, cls := .rww (.limit .otWarn), flag := (some .hasTemperature) }

/-- `UT_WARN_LIMIT` (R223). -/
def entryUtWarnLimit : CmdEntry := { code := 0x52, cls := .rww (.limit .utWarn), flag := (some .hasTemperature) }

/-- `UT_FAULT_LIMIT` (R224). -/
def entryUtFaultLimit : CmdEntry := { code := 0x53, cls := .rww (.limit .utFault), flag := (some .hasTemperature) }

/-- `VIN_OV_FAULT_LIMIT` (R225). -/
def entryVinOvFaultLimit : CmdEntry := { code := 0x55, cls := .rww (.limit .vinOvFault), flag := (some .hasVin) }

/-- `VIN_OV_WARN_LIMIT` (R226). -/
def entryVinOvWarnLimit : CmdEntry := { code := 0x57, cls := .rww (.limit .vinOvWarn), flag := (some .hasVin) }

/-- `VIN_UV_WARN_LIMIT` (R227). -/
def entryVinUvWarnLimit : CmdEntry := { code := 0x58, cls := .rww (.limit .vinUvWarn), flag := (some .hasVin) }

/-- `VIN_UV_FAULT_LIMIT` (R228). -/
def entryVinUvFaultLimit : CmdEntry := { code := 0x59, cls := .rww (.limit .vinUvFault), flag := (some .hasVin) }

/-- `IIN_OC_FAULT_LIMIT` (R229). -/
def entryIinOcFaultLimit : CmdEntry := { code := 0x5B, cls := .rww (.limit .iinOcFault), flag := (some .hasIin) }

/-- `IIN_OC_WARN_LIMIT` (R230). -/
def entryIinOcWarnLimit : CmdEntry := { code := 0x5D, cls := .rww (.limit .iinOcWarn), flag := (some .hasIin) }

/-- `POUT_OP_FAULT_LIMIT` (R231). -/
def entryPoutOpFaultLimit : CmdEntry := { code := 0x68, cls := .rww (.limit .poutOpFault), flag := (some .hasPout) }

/-- `POUT_OP_WARN_LIMIT` (R232). -/
def entryPoutOpWarnLimit : CmdEntry := { code := 0x6A, cls := .rww (.limit .poutOpWarn), flag := (some .hasPout) }

/-- `PIN_OP_WARN_LIMIT` (R233). -/
def entryPinOpWarnLimit : CmdEntry := { code := 0x6B, cls := .rww (.limit .pinOpWarn), flag := (some .hasPin) }

/-- `READ_VIN` (R234). -/
def entryReadVin : CmdEntry := { code := 0x88, cls := .row (.reading .vin), flag := (some .hasVin) }

/-- `READ_IIN` (R235). -/
def entryReadIin : CmdEntry := { code := 0x89, cls := .row (.reading .iin), flag := (some .hasIin) }

/-- `READ_VOUT` (R236). -/
def entryReadVout : CmdEntry := { code := 0x8B, cls := .row (.reading .vout), flag := (some .hasVout) }

/-- `READ_IOUT` (R237). -/
def entryReadIout : CmdEntry := { code := 0x8C, cls := .row (.reading .iout), flag := (some .hasIout) }

/-- `READ_TEMPERATURE_1` (R238). -/
def entryReadTemperature1 : CmdEntry := { code := 0x8D, cls := .row (.reading .temperature1), flag := (some .hasTemperature) }

/-- `READ_POUT` (R239). -/
def entryReadPout : CmdEntry := { code := 0x96, cls := .row (.reading .pout), flag := (some .hasPout) }

/-- `READ_PIN` (R240). -/
def entryReadPin : CmdEntry := { code := 0x97, cls := .row (.reading .pin), flag := (some .hasPin) }

/-- `MFR_ID` (R241). -/
def entryMfrId : CmdEntry := { code := 0x99, cls := .str .id, flag := (some .hasMfrInfo) }

/-- `MFR_MODEL` (R242). -/
def entryMfrModel : CmdEntry := { code := 0x9A, cls := .str .model, flag := (some .hasMfrInfo) }

/-- `MFR_REVISION` (R243). -/
def entryMfrRevision : CmdEntry := { code := 0x9B, cls := .str .revision, flag := (some .hasMfrInfo) }

/-- `MFR_LOCATION` (R244). -/
def entryMfrLocation : CmdEntry := { code := 0x9C, cls := .str .location, flag := (some .hasMfrInfo) }

/-- `MFR_DATE` (R245). -/
def entryMfrDate : CmdEntry := { code := 0x9D, cls := .str .date, flag := (some .hasMfrInfo) }

/-- `MFR_SERIAL` (R246). -/
def entryMfrSerial : CmdEntry := { code := 0x9E, cls := .str .serial, flag := (some .hasMfrInfo) }

/-- `IC_DEVICE_ID` (R247). -/
def entryIcDeviceId : CmdEntry := { code := 0xAD, cls := .devid, flag := none }

/-- Control commands (R200 to R206). -/
def controlEntries : List CmdEntry :=
  [entryPage, entryOperation, entryOnOffConfig, entryClearFaults, entryCapability, entryVoutMode,
   entryCoefficients]

/-- Status commands (R207 to R213). -/
def statusEntries : List CmdEntry :=
  [entryStatusByte, entryStatusWord, entryStatusVout, entryStatusIout, entryStatusInput,
   entryStatusTemperature, entryStatusCml]

/-- Limit commands (R214 to R233). -/
def limitEntries : List CmdEntry :=
  [entryVoutOvFaultLimit, entryVoutOvWarnLimit, entryVoutUvWarnLimit, entryVoutUvFaultLimit,
   entryIoutOcFaultLimit, entryIoutOcWarnLimit, entryIoutUcFaultLimit, entryOtFaultLimit, entryOtWarnLimit,
   entryUtWarnLimit, entryUtFaultLimit, entryVinOvFaultLimit, entryVinOvWarnLimit, entryVinUvWarnLimit,
   entryVinUvFaultLimit, entryIinOcFaultLimit, entryIinOcWarnLimit, entryPoutOpFaultLimit,
   entryPoutOpWarnLimit, entryPinOpWarnLimit]

/-- Reading commands (R234 to R240). -/
def readingEntries : List CmdEntry :=
  [entryReadVin, entryReadIin, entryReadVout, entryReadIout, entryReadTemperature1, entryReadPout, entryReadPin]

/-- Manufacturer strings and identity (R241 to R247). -/
def stringEntries : List CmdEntry :=
  [entryMfrId, entryMfrModel, entryMfrRevision, entryMfrLocation, entryMfrDate, entryMfrSerial, entryIcDeviceId]

/-- The default `CMD_TABLE` of R6: 48 entries. -/
def defaultCmdTable : List CmdEntry :=
  controlEntries ++ statusEntries ++ limitEntries ++ readingEntries ++ stringEntries

/-- `CMD_TABLE[code]` (R157): the entry of a command code, if the table has one. -/
def tableEntry (table : List CmdEntry) (code : Byte) : Option CmdEntry := table.find? (fun e => decide (e.code = code))

end Sys2Proof.Machine

namespace Sys2Proof

/-- The number of data bytes a write payload of a class carries after its code (R65), a string counted with no
character. -/
def CmdClass.dataBytes : CmdClass → Nat
  | .rwb _ | .sb | .page | .str _ => 1
  | .rww _ => 2
  | .rob _ | .row _ | .ro5 | .cap | .devid | .wo0 => 0

/-- The classes a write cannot store to (R157). -/
def CmdClass.readOnly : CmdClass → Bool
  | .rob _ | .row _ | .ro5 | .cap | .devid => true
  | .rwb _ | .rww _ | .str _ | .sb | .wo0 | .page => false

end Sys2Proof
end

