-- ==== Sys2Proof/WellFormed.lean ====
section
/-! DEFINITION. The checks: a well-formed instruction, and the well-formed configuration of 00_scope.md R6 (its per-node
part here, the part that joins the topology and the nodes in Machine/ConfigCheck.lean). -/

namespace Sys2Proof

/-- A command access is one a framer of capacity `cap` can make: its payload, code included, fits the buffer (R19,
R167). -/
def CmdAccess.wf (cap : Nat) : CmdAccess → Bool
  | .write _ data => decide (data.length + 1 ≤ cap)
  | .read _ => true

/-- A well-formed instruction under buffer capacity `cap`. Every request word and every host operation is one (R60,
R300: a host operation with bad operands is refused when it runs). -/
def Instr.wf (cap : Nat) : Instr → Bool
  | .startSend _ | .startRecv _ | .tx _ | .rx _ | .nack _ | .stop _ => true
  | .reserved5 _ | .reserved6 _ | .reserved7 _ => true
  | .page c | .operation c | .onOffConfig c | .clearFaults c | .capability c | .voutMode c | .coefficients c => c.wf cap
  | .statusByte c | .statusWord c | .statusVout c | .statusIout c | .statusInput c => c.wf cap
  | .statusTemperature c | .statusCml c => c.wf cap
  | .voutOvFaultLimit c | .voutOvWarnLimit c | .voutUvWarnLimit c | .voutUvFaultLimit c => c.wf cap
  | .ioutOcFaultLimit c | .ioutOcWarnLimit c | .ioutUcFaultLimit c => c.wf cap
  | .otFaultLimit c | .otWarnLimit c | .utWarnLimit c | .utFaultLimit c => c.wf cap
  | .vinOvFaultLimit c | .vinOvWarnLimit c | .vinUvWarnLimit c | .vinUvFaultLimit c => c.wf cap
  | .iinOcFaultLimit c | .iinOcWarnLimit c | .poutOpFaultLimit c | .poutOpWarnLimit c | .pinOpWarnLimit c => c.wf cap
  | .readVin c | .readIin c | .readVout c | .readIout c | .readTemperature1 c | .readPout c | .readPin c => c.wf cap
  | .mfrId c | .mfrModel c | .mfrRevision c | .mfrLocation c | .mfrDate c | .mfrSerial c | .icDeviceId c => c.wf cap
  | .hReset => true
  | .hSetAddr _ _ | .hPageConfig _ _ _ | .hSetField _ _ _ _ | .hGetField _ _ _ | .hSetPhys _ _ _ _ | .hGetPhys _ _ _ => true

/-! ### Configuration (R6) -/

mutual
/-- The nodes of a bus and of everything below it, in scan order, each with whether it is a MUX. -/
def TopoBus.members : TopoBus → List (NodeId × Bool)
  | .empty => []
  | .slave id rest => (id, false) :: rest.members
  | .mux id chans rest => (id, true) :: (chans.members ++ rest.members)
def TopoChans.members : TopoChans → List (NodeId × Bool)
  | .nil => []
  | .channel child rest => child.members ++ rest.members
end

/-- `NCHAN`: the number of channels of a MUX. -/
def TopoChans.count : TopoChans → Nat
  | .nil => 0
  | .channel _ rest => rest.count + 1

mutual
/-- The greatest mux nesting depth below a bus that itself has depth 0 (R6). -/
def TopoBus.depth : TopoBus → Nat
  | .empty => 0
  | .slave _ rest => rest.depth
  | .mux _ chans rest => max chans.depth rest.depth
def TopoChans.depth : TopoChans → Nat
  | .nil => 0
  | .channel child rest => max (child.depth + 1) rest.depth
end

mutual
/-- Every MUX has 1 to 8 channels (R6). -/
def TopoBus.chanCountsOk : TopoBus → Bool
  | .empty => true
  | .slave _ rest => rest.chanCountsOk
  | .mux _ chans rest => decide (1 ≤ chans.count) && decide (chans.count ≤ 8) && chans.chanCountsOk && rest.chanCountsOk
def TopoChans.chanCountsOk : TopoChans → Bool
  | .nil => true
  | .channel child rest => child.chanCountsOk && rest.chanCountsOk
end

/-- No two elements of a list are equal, as a Bool. -/
def distinct {α : Type} [DecidableEq α] : List α → Bool
  | [] => true
  | x :: xs => decide (x ∉ xs) && distinct xs

namespace Machine

/-- A page record has the widths of R21: strings of at most `strMax` bytes, exactly 5 raw bytes. -/
def Page.wf (strMax : Nat) (p : Page) : Bool :=
  decide (p.mfr.id.length ≤ strMax) && decide (p.mfr.model.length ≤ strMax) && decide (p.mfr.revision.length ≤ strMax) &&
  decide (p.mfr.location.length ≤ strMax) && decide (p.mfr.date.length ≤ strMax) && decide (p.mfr.serial.length ≤ strMax) &&
  decide (p.coefficients.length = 5)

end Machine

/-- Coefficient gains are non-zero (R6). -/
def PerQuantity.gainsOk (t : PerQuantity Coeff) : Bool :=
  decide (t.vout.gain ≠ 0) && decide (t.vin.gain ≠ 0) && decide (t.iout.gain ≠ 0) && decide (t.iin.gain ≠ 0) &&
  decide (t.pout.gain ≠ 0) && decide (t.pin.gain ≠ 0) && decide (t.temperature.gain ≠ 0)

/-- `CMD_TABLE` is a map from codes (R6): no code has two entries. -/
def cmdTableOk (table : List CmdEntry) : Bool := distinct (table.map CmdEntry.code)

/-- The ranges of R6 for the parameters of one REGDEV. -/
def RegDevCfg.wf (g : Config) (c : RegDevCfg) : Bool :=
  decide (1 ≤ c.numPages) && decide (c.numPages ≤ 255) && decide (c.pageDefault.length = c.numPages) &&
  c.pageDefault.all (Machine.Page.wf g.strMax) && decide (c.icDeviceId.length ≤ g.strMax) &&
  c.coeff.gainsOk && cmdTableOk c.cmdTable

/-- The ranges of R6 for the block-wide parameters. -/
def Config.wf (g : Config) : Bool :=
  decide (g.maxDepth ≤ 255) && decide (3 ≤ g.bufCap) && decide (g.root.depth ≤ g.maxDepth) && g.root.chanCountsOk &&
  distinct (g.root.members.map Prod.fst)

end Sys2Proof
end

