-- ==== Sys2Proof/Machine/State.lean ====
section
/-! DEFINITION. The state (10_state.md), the reasons a step can stop, and reset (70_reset_and_hazards.md R350). -/

namespace Sys2Proof.Machine

/-! ### REGDEV: framer and register model -/

/-- The six framer modes (R18). The encoding 0 to 5 is read by no rule. -/
inductive FrMode where
  | idle | write | recvOne | read | done | confused
deriving DecidableEq, Repr

/-- `fr[d]` (R18, R19): mode, buffer of `BUF_CAP` bytes and its length. Only `buf[0..len-1]` is meaningful. -/
structure Framer where
  mode : FrMode
  buf  : List Byte
  len  : Nat
deriving DecidableEq, Repr

/-- The state of one REGDEV: `fr[d]`, `rd[d]` and the page records `pg[d][0..NUM_PAGES-1]` (R18 to R21). -/
structure RegDev where
  fr : Framer
  rd : RegModel
  pg : List Page
deriving DecidableEq, Repr

/-- The framer at reset, and after FINISH: idle, empty, zeroed (R19, R27, R130). -/
def Framer.idle (cap : Nat) : Framer := { mode := .idle, buf := List.replicate cap 0, len := 0 }

/-- The register model at reset (R20, R27). -/
def RegModel.reset (cap : Nat) : RegModel :=
  { page := 0, cmd := 0, pagesValid := false, outBuf := List.replicate cap 0, outLen := 0, inLen := 0 }

/-- A REGDEV at reset (R27). -/
def RegDev.reset (cap : Nat) (c : RegDevCfg) : RegDev :=
  { fr := Framer.idle cap, rd := RegModel.reset cap, pg := c.pageDefault.map Page.resetFrom }

/-! ### Nodes -/

/-- A slave by kind (R6): its constant parameters and its state (STUB latch R16, MUX control byte R17, REGDEV). -/
inductive Device where
  | stub (c : StubCfg) (latch : Byte)
  | mux (control : Byte)
  | regdev (c : RegDevCfg) (r : RegDev)
deriving DecidableEq, Repr

/-- A node of the topology: its id and reset address `ADDR0` (constant), its address `sl[s].addr` (R14) and its
kind-specific part. -/
structure Node where
  id    : NodeId
  addr0 : BusAddr
  addr  : BusAddr
  dev   : Device
deriving DecidableEq, Repr

def Device.reset (cap : Nat) : Device → Device
  | .stub c _ => .stub c 0
  | .mux _ => .mux 0
  | .regdev c _ => .regdev c (RegDev.reset cap c)

def Node.reset (cap : Nat) (n : Node) : Node := { n with addr := n.addr0, dev := n.dev.reset cap }

/-! ### Bus, outputs -/

/-- `bus.dir` (R12): SEND = the master writes, RECV = the master reads. -/
inductive Direction where
  | send | recv
deriving DecidableEq, Repr

/-- The five elements of the root bus (R10 to R12). -/
structure BusState where
  isOpen  : Bool
  cur     : List NodeId
  curAddr : BusAddr
  bcast   : Bool
  dir     : Direction
deriving DecidableEq, Repr

/-- The idle bus (R10 to R12, R27, R90). -/
def BusState.idle : BusState := { isOpen := false, cur := [], curAddr := 0, bcast := false, dir := .send }

/-- `st` of a wire response (R62). -/
inductive RespStatus where
  | ack | nack | busy | invalid
deriving DecidableEq, Repr

/-- `hst` of a host response (R300). -/
inductive HostStatus where
  | ok | bad
deriving DecidableEq, Repr

/-- What the last step answered: nothing, a wire response (R62), a host response (R300), or, for a call of the register
model made as an instruction of its own, the call's result (42_register_model.md: OK or FAIL, or the byte). -/
inductive Response where
  | none
  | wire (st : RespStatus) (data : Byte)
  | host (hst : HostStatus) (value : RawValue)
  | writeCall (ok : Bool)
  | readCall (byte : Byte)
deriving DecidableEq, Repr

/-- The 17 diagnostic codes of R320, in their order. -/
inductive Diag where
  | busBusy | notOpen | reservedReq | frUnexpected | frEmptyRead | frOverflow | rmEmptyWrite | rmBadPage
  | rmAllPagesRead | rmWriteRo | rmReadWo | rmLenMismatch | rmBlockMalformed | rmEmptyPop | rmUnallocated
  | rmStageOverflow | hostBadArg
deriving DecidableEq, Repr

/-! ### State -/

/-- The state of the transactor. `cfg` (and the constant parts of the nodes) are the configuration of R6, carried along
so that every statement holds for every configuration; no step writes them. `bus` and `nodes` are the state of
10_state.md. The last three fields are the model's own: `pending` holds the requests and host operations the two agents
have presented and the block has not yet served, oldest first (R5: one total order); `resp` and `diags` are the outputs
of the last step (R62, R300, R320), which no rule reads. -/
structure State where
  cfg     : Config
  bus     : BusState
  nodes   : List Node
  pending : List Request
  resp    : Response
  diags   : List Diag
deriving DecidableEq, Repr

/-- Why a step faults. -/
inductive Fault where
  /-- Raised by a command access whose operand names no REGDEV. Safe: no request of either port makes such a call, the
  engine calls the register model of addressed nodes only. -/
  | noRegDev
deriving DecidableEq, Repr

/-- Why a step gives no meaning. -/
inductive Refusal where
  /-- Raised by an arm of `exec` whose instruction has no meaning yet (no arm is left so). Safe. -/
  | notModelled (mnemonic : String)
  /-- Raised by `step` when the configuration breaks a condition of R6: "A model refuses an ill-formed configuration; it
  gives it no behaviour". Safe. -/
  | illFormedConfiguration
deriving DecidableEq, Repr

/-! ### Reset (R350) -/

/-- The effect of reset on the block (R350): the bus idle, every node at its reset value. Requests still pending belong
to the agents and stay. -/
def State.resetBlock (s : State) : State :=
  { s with bus := BusState.idle, nodes := s.nodes.map (Node.reset s.cfg.bufCap) }

/-- The block at power-on under a configuration, nothing presented to it yet (R350, R351). -/
def State.powerOn (g : Config) (nodes : List Node) : State :=
  { cfg := g, bus := BusState.idle, nodes := nodes.map (Node.reset g.bufCap), pending := [], resp := .none, diags := [] }

/-! ### The defaults of R6 -/

/-- Every STUB parameter at its default. -/
def StubCfg.dflt : StubCfg := { caps := ⟨true, true, true⟩, bcastEn := false }

/-- Every REGDEV parameter at its default. -/
def RegDevCfg.dflt : RegDevCfg where
  numPages := 1
  bcastEn := false
  cmdTable := defaultCmdTable
  capability := 0x00
  icDeviceId := []
  pageDefault := [Page.zero]
  fmt := PerQuantity.all .linear
  coeff := PerQuantity.all { gain := 1, offset := 0, exponent := 0 }
  hookWrite := none
  hookRead := none
  hookQuick := none

/-- The default REGDEV with another number of pages, every one at the default record. -/
def RegDevCfg.withPages (n : Nat) : RegDevCfg :=
  { RegDevCfg.dflt with numPages := n, pageDefault := List.replicate n Page.zero }

/-- The channels of a MUX of the default `NCHAN` = 4, nothing behind them. -/
def TopoChans.dflt : TopoChans := .channel .empty (.channel .empty (.channel .empty (.channel .empty .nil)))

/-- Every block-wide parameter that has a default at it; `TOPOLOGY` has none and must be given. -/
def Config.dflt (root : TopoBus) : Config where
  root := root
  maxDepth := 8
  bcastAddr := 0x00
  bufCap := 34
  cmdPage := 0x00
  cmdClearFaults := 0x03

/-! ### The reference configuration (95_test_vectors.md section 1)

R6 gives `TOPOLOGY` no default. DESIGN CHOICE (log entry 1): `State.reset` has the reference configuration. -/

/-- Ids: D0 = 0, M0 = 1, D1 = 2, T1 = 3, D2 = 4, T0 = 5. -/
def referenceTopology : TopoBus :=
  .slave 0 (.mux 1
    (.channel (.slave 2 .empty) (.channel (.slave 3 .empty) (.channel (.slave 4 .empty) (.channel .empty .nil))))
    (.slave 5 .empty))

/-- Every block-wide parameter at its default of R6. -/
def referenceConfig : Config := Config.dflt referenceTopology

/-- A REGDEV node at its reset address; its state is set by reset. -/
def regNode (cap : Nat) (id : NodeId) (addr : BusAddr) (c : RegDevCfg) : Node :=
  { id := id, addr0 := addr, addr := addr, dev := .regdev c (RegDev.reset cap c) }

def referenceNodes : List Node :=
  [ regNode 34 0 0x40 { RegDevCfg.withPages 2 with icDeviceId := [0x12, 0x34, 0x56] },
    { id := 1, addr0 := 0x70, addr := 0x70, dev := .mux 0 },
    regNode 34 2 0x41 { RegDevCfg.dflt with bcastEn := true },
    { id := 3, addr0 := 0x42, addr := 0x42, dev := .stub { StubCfg.dflt with bcastEn := true } 0 },
    regNode 34 4 0x41 { RegDevCfg.dflt with bcastEn := true },
    { id := 5, addr0 := 0x50, addr := 0x50, dev := .stub { StubCfg.dflt with caps := ⟨false, true, false⟩ } 0 } ]

/-- The machine right after reset. -/
def State.reset : State := State.powerOn referenceConfig referenceNodes

end Sys2Proof.Machine
end

