-- ==== Sys2Proof/Machine/Ops.lean ====
section
/-! DEFINITION. The named operations over the state: lookup and update of nodes, outputs, and the communication/logic
fault (60_exceptions.md R322), the one thing this hardware has in place of an exception. -/

namespace Sys2Proof.Machine

/-! ### The communication/logic fault (R322)

The transactor has no trap: a fault ORs two status bits of one page and the rule that raised it goes on. Nothing is
saved, no control is transferred, and there is no return (R323). -/

/-- `raise CML` on a page: `status_word | 0x0002`, `status_cml | 0x40` (R322). -/
def Page.raiseCml (p : Page) : Page :=
  { p with status := { p.status with word := p.status.word ||| 0x0002, cml := p.status.cml ||| 0x40 } }

/-! ### A REGDEV being served -/

/-- A REGDEV while one call of it runs: its state and the diagnostics of the step so far (R320). -/
structure Work where
  dev   : RegDev
  diags : List Diag
deriving DecidableEq, Repr

/-- `diag <CODE>` (R8, R320). -/
def Work.diag (w : Work) (c : Diag) : Work := { w with diags := w.diags ++ [c] }

def Work.mapFr (w : Work) (f : Framer → Framer) : Work := { w with dev := { w.dev with fr := f w.dev.fr } }

def Work.mapRd (w : Work) (f : RegModel → RegModel) : Work := { w with dev := { w.dev with rd := f w.dev.rd } }

/-- Change one page; an index that is no real page changes nothing. -/
def Work.modifyPage (w : Work) (p : Nat) (f : Page → Page) : Work :=
  { w with dev := { w.dev with pg := w.dev.pg.modify p f } }

def Work.mapPages (w : Work) (f : Page → Page) : Work := { w with dev := { w.dev with pg := w.dev.pg.map f } }

/-- `rd[d].page <- v`. -/
def Work.setPage (w : Work) (v : Byte) : Work := w.mapRd fun rd => { rd with page := v }

/-- `rd[d].in_len <- n`. -/
def Work.setInLen (w : Work) (n : Nat) : Work := w.mapRd fun rd => { rd with inLen := n }

/-- `fr[d].mode <- m`. -/
def Work.setMode (w : Work) (m : FrMode) : Work := w.mapFr fun fr => { fr with mode := m }

/-- `raise CML(d, p)` (R322): control continues with the next statement. -/
def Work.raiseCml (w : Work) (p : Nat) : Work := w.modifyPage p Page.raiseCml

/-- The page record of an index (all fields zero if there is none, which a real page index never meets). -/
def Work.pageAt (w : Work) (p : Nat) : Page := (w.dev.pg[p]?).getD Page.zero

/-! ### Nodes -/

/-- The record of a node id. -/
def State.node? (s : State) (id : NodeId) : Option Node := s.nodes.find? fun n => decide (n.id = id)

/-- The REGDEV of a node id, its parameters and its state. -/
def State.regdev? (s : State) (id : NodeId) : Option (RegDevCfg × RegDev) :=
  match s.node? id with
  | some n => match n.dev with
    | .regdev c r => some (c, r)
    | .stub _ _ => none
    | .mux _ => none
  | none => none

/-- Change the node of an id. -/
def State.modifyNode (s : State) (id : NodeId) (f : Node → Node) : State :=
  { s with nodes := s.nodes.map fun n => if n.id = id then f n else n }

def State.setDevice (s : State) (id : NodeId) (d : Device) : State := s.modifyNode id fun n => { n with dev := d }

/-- `sl[s].addr <- a` (R14). -/
def State.setAddr (s : State) (id : NodeId) (a : BusAddr) : State := s.modifyNode id fun n => { n with addr := a }

/-- The state of a REGDEV replaced, its parameters kept. -/
def State.setRegDev (s : State) (id : NodeId) (c : RegDevCfg) (r : RegDev) : State := s.setDevice id (.regdev c r)

/-- The capability set of a slave (R15). -/
def Device.caps : Device → Caps
  | .stub c _ => c.caps
  | .mux _ => ⟨true, false, false⟩
  | .regdev _ _ => ⟨true, true, true⟩

/-! ### Outputs -/

def State.diag (s : State) (c : Diag) : State := { s with diags := s.diags ++ [c] }

def State.setDiags (s : State) (ds : List Diag) : State := { s with diags := ds }

def State.respond (s : State) (r : Response) : State := { s with resp := r }

/-- `resp <- (st, data)` (R62). -/
def State.answer (s : State) (st : RespStatus) (data : Byte) : State := s.respond (.wire st data)

/-- A served host operation (R300): `H_OK` and a value. -/
def State.hostOk (s : State) (v : RawValue) : State := s.respond (.host .ok v)

/-- A refused host operation (R300): `H_BAD`, `DG_HOST_BAD_ARG`, no other change. -/
def State.hostBad (s : State) : State := (s.diag .hostBadArg).respond (.host .bad (.num 0))

/-- A step begins: its request is taken, the outputs are empty (R62, R320). -/
def State.begin (s : State) (rest : List Request) : State := { s with pending := rest, resp := .none, diags := [] }

/-- The number `st = resp[9:8]` of R62. -/
def RespStatus.code : RespStatus → BitVec 2
  | .ack => 0
  | .nack => 1
  | .busy => 2
  | .invalid => 3

/-- The 10-bit response word of R62. -/
def respWord (st : RespStatus) (data : Byte) : BitVec 10 := st.code ++ data

/-- The number of a diagnostic code (R320). -/
def Diag.number : Diag → Nat
  | .busBusy => 1
  | .notOpen => 2
  | .reservedReq => 3
  | .frUnexpected => 4
  | .frEmptyRead => 5
  | .frOverflow => 6
  | .rmEmptyWrite => 7
  | .rmBadPage => 8
  | .rmAllPagesRead => 9
  | .rmWriteRo => 10
  | .rmReadWo => 11
  | .rmLenMismatch => 12
  | .rmBlockMalformed => 13
  | .rmEmptyPop => 14
  | .rmUnallocated => 15
  | .rmStageOverflow => 16
  | .hostBadArg => 17

/-- The 3-bit encoding of the framer mode (R18). -/
def FrMode.code : FrMode → BitVec 3
  | .idle => 0
  | .write => 1
  | .recvOne => 2
  | .read => 3
  | .done => 4
  | .confused => 5

end Sys2Proof.Machine
end

