-- ==== Sys2Proof/Machine/Flags.lean ====
section
/-! DEFINITION. Flag bits: the capability flags of a page (10_state.md R22), the status bits (R23, R24), and the
FaultEvaluator that sets them (45_fault_evaluator.md). -/

namespace Sys2Proof.Machine

/-- The bit of a capability flag in `flags` (R22). Bits 15:10 are stored and have no effect. -/
def flagBit : PageFlag → Nat
  | .hasVoutMode => 0
  | .hasVout => 1
  | .hasVin => 2
  | .hasIout => 3
  | .hasIin => 4
  | .hasPout => 5
  | .hasPin => 6
  | .hasTemperature => 7
  | .hasMfrInfo => 8
  | .hasCoefficients => 9

/-- `pg[d][p].flags[f]`. -/
def Page.hasFlag (p : Page) (f : PageFlag) : Bool := p.flags.getLsbD (flagBit f)

/-- The named bits of `status_word` (R23). -/
inductive SummaryBit where
  | vout | ioutPout | input | mfrSpecific | powerGoodN | fans | other | unknown
  | busy | off | voutOvFault | ioutOcFault | vinUvFault | temperature | cml | noneOfTheAbove
deriving DecidableEq, Repr

/-- The position of a bit of `status_word` (R23). -/
def SummaryBit.bit : SummaryBit → Nat
  | .vout => 15
  | .ioutPout => 14
  | .input => 13
  | .mfrSpecific => 12
  | .powerGoodN => 11
  | .fans => 10
  | .other => 9
  | .unknown => 8
  | .busy => 7
  | .off => 6
  | .voutOvFault => 5
  | .ioutOcFault => 4
  | .vinUvFault => 3
  | .temperature => 2
  | .cml => 1
  | .noneOfTheAbove => 0

/-- The byte-wide view of the summary word: `status_word[7:0]` (R23). -/
def Status.byteView (s : Status) : Byte := s.word.setWidth 8

/-! ### FaultEvaluator -/

/-- Which side of a limit is bad (R282): a reading above a high limit, a reading below a low limit. -/
inductive Side where
  | above | below
deriving DecidableEq, Repr

/-- One row of the comparison table of R282. -/
structure EvalRow where
  reading : ReadingField
  side    : Side
  limit   : LimitField
  summary : SummaryBit
  sub     : SubStatus
  bit     : Nat
deriving DecidableEq, Repr

/-- The 20 comparisons of R282, in its order. -/
def evalRows : List EvalRow :=
  [⟨.vout, .above, .voutOvFault, .vout, .vout, 7⟩,
   ⟨.vout, .above, .voutOvWarn, .vout, .vout, 6⟩,
   ⟨.vout, .below, .voutUvWarn, .vout, .vout, 5⟩,
   ⟨.vout, .below, .voutUvFault, .vout, .vout, 4⟩,
   ⟨.iout, .above, .ioutOcFault, .ioutPout, .iout, 7⟩,
   ⟨.iout, .above, .ioutOcWarn, .ioutPout, .iout, 5⟩,
   ⟨.iout, .below, .ioutUcFault, .ioutPout, .iout, 4⟩,
   ⟨.pout, .above, .poutOpFault, .ioutPout, .iout, 1⟩,
   ⟨.pout, .above, .poutOpWarn, .ioutPout, .iout, 0⟩,
   ⟨.vin, .above, .vinOvFault, .input, .input, 7⟩,
   ⟨.vin, .above, .vinOvWarn, .input, .input, 6⟩,
   ⟨.vin, .below, .vinUvWarn, .input, .input, 5⟩,
   ⟨.vin, .below, .vinUvFault, .input, .input, 4⟩,
   ⟨.iin, .above, .iinOcFault, .input, .input, 2⟩,
   ⟨.iin, .above, .iinOcWarn, .input, .input, 1⟩,
   ⟨.pin, .above, .pinOpWarn, .input, .input, 0⟩,
   ⟨.temperature1, .above, .otFault, .temperature, .temperature, 7⟩,
   ⟨.temperature1, .above, .otWarn, .temperature, .temperature, 6⟩,
   ⟨.temperature1, .below, .utWarn, .temperature, .temperature, 5⟩,
   ⟨.temperature1, .below, .utFault, .temperature, .temperature, 4⟩]

/-- The condition of a row on a page: strict, on the raw values as unsigned integers (R282). -/
def EvalRow.fires (row : EvalRow) (p : Page) : Bool :=
  match row.side with
  | .above => decide ((p.limits.get row.limit).toNat < (p.readings.get row.reading).toNat)
  | .below => decide ((p.readings.get row.reading).toNat < (p.limits.get row.limit).toNat)

/-- The status family with the two bits of a row ORed in (R282). -/
def EvalRow.mark (row : EvalRow) (st : Status) : Status :=
  let st := { st with word := st.word ||| ((1 : Word) <<< row.summary.bit) }
  st.set row.sub (st.get row.sub ||| ((1 : Byte) <<< row.bit))

/-- The status family after some rows have been evaluated on the readings and limits of a page (R282). -/
def evalStatus (p : Page) : List EvalRow → Status → Status
  | [], st => st
  | row :: rows, st => evalStatus p rows (if row.fires p then row.mark st else st)

/-- `evaluate_page` (R282): it writes the status family and nothing else (R284). -/
def Page.evaluate (p : Page) : Page := { p with status := evalStatus p evalRows p.status }

/-- "Powered on" is `operation[7]` (R281). -/
def Page.poweredOn (p : Page) : Bool := p.control.operation.getLsbD 7

/-- What `evaluate(d)` does to one page: nothing to a page that is off (R281). -/
def Page.evaluateIfOn (p : Page) : Page := if p.poweredOn then p.evaluate else p

/-- `evaluate(d)`: every real page (R281). -/
def evaluatePages (pg : List Page) : List Page := pg.map Page.evaluateIfOn

end Sys2Proof.Machine
end

