-- ==== Sys2Proof/Machine/Operands.lean ====
section
/-! DEFINITION. Operand forms: byte buffers and byte order (20_memory.md R46, 00_scope.md R8), the receive helpers of the
write side (42_register_model.md R165, R167), the staging helpers of the read side (R170 to R174), and the field and
value operands of the host port (46_host_port.md R304 to R306). -/

namespace Sys2Proof.Machine

/-! ### Byte buffers -/

/-- `MemRead(buf, i, n)` (R8): `n` bytes from index `i`, little-endian. -/
def memRead (buf : List Byte) (i : Nat) : Nat → Nat
  | 0 => 0
  | n + 1 => (buf.getD i 0).toNat + 256 * memRead buf (i + 1) n

/-- `MemWrite(buf, i, n, v)` (R8): `buf[i+k] <- (v >> 8k)[7:0]`. -/
def memWrite (buf : List Byte) (i : Nat) : Nat → Nat → List Byte
  | 0, _ => buf
  | n + 1, v => memWrite (buf.set i (BitVec.ofNat 8 v)) (i + 1) n (v / 256)

/-- The `n` bytes of a number, low byte first (R46, R171). -/
def leBytes : Nat → Nat → List Byte
  | 0, _ => []
  | n + 1, v => BitVec.ofNat 8 v :: leBytes n (v / 256)

/-! ### Receive helpers -/

/-- `rx_uint(P, k)` (R165): the command byte excluded, at most `k` bytes, little-endian, missing bytes 0; a length other
than `k` warns only. -/
def rxUint (P : List Byte) (k : Nat) (w : Work) : Work × Nat :=
  let avail := P.length - 1
  (if avail = k then w else w.diag .rmLenMismatch, memRead P 1 (min k avail))

/-- `rx_block(d, idx, f, P)` (R167): the declared length must be the actual one, else the field is unchanged. -/
def rxBlock (idx : Nat) (f : StringField) (P : List Byte) (w : Work) : Work × Bool :=
  if (P.getD 1 0).toNat = P.length - 2 then (w.modifyPage idx fun p => p.setString f (P.drop 2), true)
  else (w.diag .rmBlockMalformed, false)

/-! ### Staging helpers -/

/-- `stage_bytes(d, W)` (R170): the byte to transmit first goes to the highest occupied index; bytes beyond `BUF_CAP` are
dropped. -/
def stageBytes (cap : Nat) (bytes : List Byte) (w : Work) : Work :=
  let k := min bytes.length cap
  let w := if cap < bytes.length then w.diag .rmStageOverflow else w
  w.mapRd fun rd => { rd with outBuf := (bytes.take k).reverse ++ rd.outBuf.drop k, outLen := k }

/-- `stage_uint(d, v, n)` (R171): low byte first on the wire. -/
def stageUint (cap : Nat) (v : Nat) (n : Nat) (w : Work) : Work := stageBytes cap (leBytes n v) w

/-- `stage_string(d, S)` (R172, R47): its length byte, then its bytes. -/
def stageString (cap : Nat) (str : List Byte) (w : Work) : Work :=
  stageBytes cap (BitVec.ofNat 8 str.length :: str) w

/-- `pop(d)` (R174): the last staged byte; the popped slot keeps its content. -/
def pop (w : Work) : Work × Byte :=
  if w.dev.rd.outLen = 0 then (w.diag .rmEmptyPop, errByte)
  else (w.mapRd fun rd => { rd with outLen := rd.outLen - 1 }, w.dev.rd.outBuf.getD (w.dev.rd.outLen - 1) 0)

/-! ### Field and value operands of the host port -/

/-- The assignment of a raw value to a field (R304), or none where `H_SET_FIELD` refuses: `flags`, a name outside a page,
a string longer than `STR_MAX`, raw bytes that are not 5, a number for a byte-string field or the other way about. -/
def fieldUpdate (strMax : Nat) : HostField → RawValue → Option (Page → Page)
  | .page (.byte f), .num v => some fun p => p.setByte f (v.setWidth 8)
  | .page (.word f), .num v => some fun p => p.setWord f (v.setWidth 16)
  | .page (.string f), .bytes v => if v.length ≤ strMax then some fun p => p.setString f v else none
  | .page .coefficients, .bytes v => if v.length = 5 then some fun p => { p with coefficients := v } else none
  | .page (.byte _), .bytes _ => none
  | .page (.word _), .bytes _ => none
  | .page (.string _), .num _ => none
  | .page .coefficients, .num _ => none
  | .page .flags, _ => none
  | .addr, _ => none
  | .control, _ => none
  | .latch, _ => none

/-- The raw value of a page field, numbers zero-extended to 32 bits (R305). -/
def Page.fieldValue (p : Page) : PageField → RawValue
  | .word f => .num ((p.getWord f).setWidth 32)
  | .byte f => .num ((p.getByte f).setWidth 32)
  | .string f => .bytes (p.getString f)
  | .coefficients => .bytes p.coefficients
  | .flags => .num (p.flags.setWidth 32)

/-- The quantity of a limit (R270). -/
def limitQuantity : LimitField → Quantity
  | .voutOvFault | .voutOvWarn | .voutUvWarn | .voutUvFault => .vout
  | .vinOvFault | .vinOvWarn | .vinUvWarn | .vinUvFault => .vin
  | .ioutOcFault | .ioutOcWarn | .ioutUcFault => .iout
  | .iinOcFault | .iinOcWarn => .iin
  | .poutOpFault | .poutOpWarn => .pout
  | .pinOpWarn => .pin
  | .otFault | .otWarn | .utWarn | .utFault => .temperature

/-- The quantity of a reading (R270). -/
def readingQuantity : ReadingField → Quantity
  | .vin => .vin
  | .iin => .iin
  | .vout => .vout
  | .iout => .iout
  | .temperature1 => .temperature
  | .pout => .pout
  | .pin => .pin

/-- The 27 fields a physical accessor admits, each with its quantity (R306); none for any other name. -/
def physField : HostField → Option (WordField × Quantity)
  | .page (.word (.limit f)) => some (.limit f, limitQuantity f)
  | .page (.word (.reading f)) => some (.reading f, readingQuantity f)
  | .page (.word .statusWord) => none
  | .page (.byte _) => none
  | .page (.string _) => none
  | .page .coefficients => none
  | .page .flags => none
  | .addr => none
  | .control => none
  | .latch => none

end Sys2Proof.Machine
end

