-- ==== Sys2Proof/Machine/ConfigCheck.lean ====
section
/-! DEFINITION. The well-formed configuration (00_scope.md R6) over the state's node records, and the shape of a REGDEV's
state (10_state.md R19 to R21). -/

namespace Sys2Proof.Machine

/-- Whether a node is a MUX. -/
def Device.isMux : Device → Bool
  | .stub _ _ => false
  | .mux _ => true
  | .regdev _ _ => false

/-- The parameters of a node are in their ranges (R6). -/
def Device.configOk (g : Config) : Device → Bool
  | .stub _ _ => true
  | .mux _ => true
  | .regdev c _ => c.wf g

/-- The configuration is well-formed (R6): the ranges hold, node ids are unique, and the node records are those of the
topology, in its order and of its kinds. -/
def State.configOk (s : State) : Bool :=
  s.cfg.wf && decide (s.nodes.map (fun n => (n.id, n.dev.isMux)) = s.cfg.root.members) &&
  s.nodes.all (fun n => n.dev.configOk s.cfg)

/-- The register model and the pages have the widths of R20 and R21: what a device hook must leave (R157). -/
def rdShapeOk (g : Config) (c : RegDevCfg) (rd : RegModel) (pg : List Page) : Bool :=
  decide (rd.outBuf.length = g.bufCap) && decide (rd.outLen ≤ g.bufCap) && decide (rd.inLen ≤ g.bufCap) &&
  decide (pg.length = c.numPages) && pg.all (Page.wf g.strMax)

/-- The result of a hook taken over, if it is a state of the right shape. DESIGN CHOICE (log entry 3): a hook that leaves
another shape breaks the widths of R20 and R21 and has no effect. -/
def Work.afterHook (g : Config) (c : RegDevCfg) (rd : RegModel) (pg : List Page) (w : Work) : Work :=
  if rdShapeOk g c rd pg then { w with dev := { w.dev with rd := rd, pg := pg } } else w

end Sys2Proof.Machine
end

