-- ==== Sys2Proof/Machine/RegisterModel.lean ====
section
/-! DEFINITION. The RegisterModel (42_register_model.md): write path, read path, quick command. `N` of the rules is
`c.numPages`. -/

namespace Sys2Proof.Machine

/-! ### Hooks -/

/-- `HOOK_WRITE(d, idx, P)`; default: no effect (R6, R157). -/
def hookWrite (g : Config) (c : RegDevCfg) (idx : Nat) (P : List Byte) (w : Work) : Work :=
  match c.hookWrite with
  | none => w
  | some k =>
    let r := Config.hookWrite k idx P w.dev.rd w.dev.pg
    w.afterHook g c r.1 r.2

/-- `HOOK_READ(d, idx)`: the bytes to stage; default: none (R6, R162). -/
def hookRead (g : Config) (c : RegDevCfg) (idx : Nat) (w : Work) : Work × List Byte :=
  match c.hookRead with
  | none => (w, [])
  | some k =>
    let r := Config.hookRead k idx w.dev.rd w.dev.pg
    (w.afterHook g c r.2.1 r.2.2, r.1)

/-- `rm_quick(d, read)` = `HOOK_QUICK(d, read)`; default: no effect (R169). -/
def rmQuick (g : Config) (c : RegDevCfg) (read : Bool) (w : Work) : Work :=
  match c.hookQuick with
  | none => w
  | some k =>
    let r := Config.hookQuick k read w.dev.rd w.dev.pg
    w.afterHook g c r.1 r.2

/-! ### Table lookup -/

/-- The table entry an access goes to, or none where it goes to the hook: no entry, or its flag absent on the page
(R157, R162). -/
def selectEntry (c : RegDevCfg) (code : Byte) (idx : Nat) (w : Work) : Option CmdEntry :=
  match tableEntry c.cmdTable code with
  | none => none
  | some e => match e.flag with
    | none => some e
    | some f => if (w.pageAt idx).hasFlag f then some e else none

/-! ### Write path -/

/-- The case of `dispatch_write` for an entry's class (R157). Class PAGE is reached at a code other than `CMD_PAGE` only;
the selector is then a free value (log entry 9). -/
def writeClass (cls : CmdClass) (idx : Nat) (P : List Byte) (w : Work) : Work × Bool :=
  match cls with
  | .rwb f => let v := rxUint P 1 w; (v.1.modifyPage idx fun p => p.setByte f (BitVec.ofNat 8 v.2), true)
  | .rww f => let v := rxUint P 2 w; (v.1.modifyPage idx fun p => p.setWord f (BitVec.ofNat 16 v.2), true)
  | .sb => let v := rxUint P 1 w; (v.1.modifyPage idx fun p => p.setWord .statusWord (BitVec.ofNat 16 v.2), true)
  | .str f => rxBlock idx f P w
  | .wo0 => (w, true)
  | .rob _ | .row _ | .ro5 | .cap | .devid => ((w.diag .rmWriteRo).raiseCml idx, true)
  | .page => (w.setPage (Config.pageClassWrite idx P w.dev.rd.page), true)

/-- Step 6: `dispatch_write(d, idx, P)` on the latched command (R157). -/
def dispatchWrite (g : Config) (c : RegDevCfg) (idx : Nat) (P : List Byte) (w : Work) : Work × Bool :=
  match selectEntry c w.dev.rd.cmd idx w with
  | none => (hookWrite g c idx P w, true)
  | some e => writeClass e.cls idx P w

/-- Step 7: `evaluate(d)`, then `in_len <- 0` (R158). -/
def finishWrite (w : Work) : Work :=
  let w := { w with dev := { w.dev with pg := evaluatePages w.dev.pg } }
  w.setInLen 0

/-- `write_one(d, P)`: steps 5, 6, 7 (R155 to R158). -/
def writeOne (g : Config) (c : RegDevCfg) (P : List Byte) (w : Work) : Work × Bool :=
  if c.numPages ≤ w.dev.rd.page.toNat then (((w.diag .rmBadPage).setPage 0).raiseCml 0, false)
  else
    let r := dispatchWrite g c w.dev.rd.page.toNat P w
    (finishWrite r.1, r.2)

/-- The loop of step 4 over some page indices: select the page, write it, discard the result (R154). -/
def fanOut (g : Config) (c : RegDevCfg) (P : List Byte) : List Nat → Work → Work
  | [], w => w
  | i :: is, w => fanOut g c P is (writeOne g c P (w.setPage (BitVec.ofNat 8 i))).1

/-- Steps 1 and 2 on a non-empty payload: allocate, latch the command, note the length (R150, R151). -/
def latchCommand (code : Byte) (n : Nat) (w : Work) : Work :=
  w.mapRd fun rd => { rd with pagesValid := true, cmd := code, inLen := n }

/-- The CLEAR_FAULTS of step 2: the six status fields of every real page become 0 (R151). -/
def clearFaults (w : Work) : Work := w.mapPages Page.clearStatus

/-- Steps 4 to 7 (R154 to R158). -/
def writeSelected (g : Config) (c : RegDevCfg) (P : List Byte) (w : Work) : Work × Bool :=
  if w.dev.rd.page = allPages then ((fanOut g c P (List.range c.numPages) w).setPage allPages, true)
  else writeOne g c P w

/-- `rm_write(d, P)`: the seven steps (R150 to R158). The result is OK (`true`) or FAIL. -/
def rmWrite (g : Config) (c : RegDevCfg) (P : List Byte) (w : Work) : Work × Bool :=
  match P with
  | [] => (w.diag .rmEmptyWrite, false)
  | code :: data =>
    let w := latchCommand code P.length w
    let w := if code = g.cmdClearFaults then clearFaults w else w
    if data = [] then (w, true)
    else if code = g.cmdPage then
      let v := rxUint P 1 w
      (v.1.setPage (BitVec.ofNat 8 v.2), true)
    else writeSelected g c P w

/-! ### Read path -/

/-- `read_index(d)` (R161): the page index to read, or none where the byte is `ERR_BYTE` directly. -/
def readIndex (c : RegDevCfg) (w : Work) : Work × Option Nat :=
  if w.dev.rd.page = allPages then ((w.diag .rmAllPagesRead).raiseCml 0, some 0)
  else if c.numPages ≤ w.dev.rd.page.toNat then (((w.diag .rmBadPage).setPage 0).raiseCml 0, none)
  else (w, some w.dev.rd.page.toNat)

/-- The case of `dispatch_read` for an entry's class (R162): the device with the value staged, or a direct byte. -/
def readClass (g : Config) (c : RegDevCfg) (cls : CmdClass) (idx : Nat) (w : Work) : Work × Option Byte :=
  match cls with
  | .rwb f | .rob f => (stageUint g.bufCap ((w.pageAt idx).getByte f).toNat 1 w, none)
  | .rww f | .row f => (stageUint g.bufCap ((w.pageAt idx).getWord f).toNat 2 w, none)
  | .sb => (stageUint g.bufCap (w.pageAt idx).status.byteView.toNat 1 w, none)
  | .page => (stageUint g.bufCap w.dev.rd.page.toNat 1 w, none)
  | .cap => (stageUint g.bufCap c.capability.toNat 1 w, none)
  | .ro5 => (stageBytes g.bufCap (w.pageAt idx).coefficients w, none)
  | .str f => (stageString g.bufCap ((w.pageAt idx).getString f) w, none)
  | .devid => (stageString g.bufCap c.icDeviceId w, none)
  | .wo0 => (w.diag .rmReadWo, some errByte)

/-- `dispatch_read(d, idx)` on a command code (R162). -/
def dispatchRead (g : Config) (c : RegDevCfg) (code : Byte) (idx : Nat) (w : Work) : Work × Option Byte :=
  match selectEntry c code idx w with
  | none => let r := hookRead g c idx w; (stageBytes g.bufCap r.2 r.1, none)
  | some e => readClass g c e.cls idx w

/-- A dispatched read of a command code: staging buffer empty, pages allocated (R160, R161, R162). -/
def readFresh (g : Config) (c : RegDevCfg) (code : Byte) (w : Work) : Work × Byte :=
  let i := readIndex c w
  match i.2 with
  | none => (i.1, errByte)
  | some idx =>
    let r := dispatchRead g c code idx i.1
    match r.2 with
    | some b => (r.1, b)
    | none => pop r.1

/-- One byte of a command code (R160): staged bytes first. -/
def readByteOf (g : Config) (c : RegDevCfg) (code : Byte) (w : Work) : Work × Byte :=
  if 0 < w.dev.rd.outLen then pop w
  else if w.dev.rd.pagesValid then readFresh g c code w
  else (w.diag .rmUnallocated, errByte)

/-- `rm_read_byte(d)` (R160): one byte of the latched command (R56). -/
def rmReadByte (g : Config) (c : RegDevCfg) (w : Work) : Work × Byte := readByteOf g c w.dev.rd.cmd w

end Sys2Proof.Machine
end

