-- ==== Sys2Proof/Machine/Framer.lean ====
section
/-! DEFINITION. The TransactionFramer (41_framer.md): the slave-side handlers of a REGDEV. -/

namespace Sys2Proof.Machine

/-- The events of R80. -/
inductive SlaveEvent where
  | startSend | startRecv | nack | finish
deriving DecidableEq, Repr

/-- `buf[0..len-1]`. -/
def Framer.payload (fr : Framer) : List Byte := fr.buf.take fr.len

/-- The reaction to an event the source lists no transition for (R122, R125, R128, R129) or to a caller error (R123). -/
def confuse (c : Diag) (w : Work) : Work := (w.diag c).setMode .confused

/-- START in SEND direction (R121, R122). -/
def frStartSend (w : Work) : Work :=
  match w.dev.fr.mode with
  | .idle => w.setMode .write
  | .write | .recvOne | .read | .done | .confused => confuse .frUnexpected w

/-- START in RECV direction (R121, R122, R123). The flush neither clears the buffer nor depends on the write's result. -/
def frStartRecv (g : Config) (c : RegDevCfg) (w : Work) : Work :=
  match w.dev.fr.mode with
  | .idle => w.setMode .recvOne
  | .write =>
    if w.dev.fr.len = 0 then confuse .frEmptyRead w
    else (rmWrite g c w.dev.fr.payload w).1.setMode .read
  | .recvOne | .read | .done | .confused => confuse .frUnexpected w

/-- NACK (R129). -/
def frNack (w : Work) : Work :=
  match w.dev.fr.mode with
  | .read => w.setMode .done
  | .done => w
  | .idle | .write | .recvOne | .confused => confuse .frUnexpected w

/-- The call FINISH makes in an open mode (R130). -/
def frClose (g : Config) (c : RegDevCfg) (read : Bool) (w : Work) : Work :=
  if w.dev.fr.len = 0 then rmQuick g c read w else (rmWrite g c w.dev.fr.payload w).1

/-- FINISH (R130): the call of an open mode, then idle with an empty, zeroed buffer. -/
def frFinish (g : Config) (c : RegDevCfg) (w : Work) : Work :=
  let w' := match w.dev.fr.mode with
    | .write => frClose g c false w
    | .recvOne => frClose g c true w
    | .read => frClose g c true w
    | .idle => w
    | .done => w
    | .confused => w
  w'.mapFr fun _ => Framer.idle g.bufCap

/-- `slave_event(d, e)` of a REGDEV. -/
def frEvent (g : Config) (c : RegDevCfg) (e : SlaveEvent) (w : Work) : Work :=
  match e with
  | .startSend => frStartSend w
  | .startRecv => frStartRecv g c w
  | .nack => frNack w
  | .finish => frFinish g c w

/-- `slave_send(d, v)` of a REGDEV (R124, R125). -/
def frSend (g : Config) (v : Byte) (w : Work) : Work :=
  match w.dev.fr.mode with
  | .write =>
    if w.dev.fr.len < g.bufCap then
      w.mapFr fun fr => { fr with buf := fr.buf.set fr.len v, len := fr.len + 1 }
    else w.diag .frOverflow
  | .idle | .recvOne | .read | .done | .confused => confuse .frUnexpected w

/-- `slave_recv(d)` of a REGDEV (R126, R127, R128). -/
def frRecv (g : Config) (c : RegDevCfg) (w : Work) : Work × Byte :=
  match w.dev.fr.mode with
  | .recvOne => let r := rmReadByte g c w; (r.1.setMode .done, r.2)
  | .read => rmReadByte g c w
  | .idle | .write | .done | .confused => (confuse .frUnexpected w, errByte)

end Sys2Proof.Machine
end

