-- ==== Sys2Proof/Machine/Engine.lean ====
section
/-! DEFINITION. The BusTransactionEngine (40_bus_engine.md): address matching, the slave handlers by kind, and the serving
of the addressed slaves in order. -/

namespace Sys2Proof.Machine

/-! ### Address matching and bus scan -/

/-- Whether a slave accepts broadcast: a STUB or REGDEV by its `BCAST_EN`, a MUX always (R81). -/
def Device.acceptsBroadcast : Device → Bool
  | .stub c _ => c.bcastEn
  | .mux _ => true
  | .regdev c _ => c.bcastEn

/-- `claims(s, a, b)` (R81). -/
def Node.claims (n : Node) (a : BusAddr) (b : Bool) : Bool := decide (n.addr = a) || (b && n.dev.acceptsBroadcast)

/-- `claims` of a node id. -/
def State.claims (s : State) (id : NodeId) (a : BusAddr) (b : Bool) : Bool :=
  match s.node? id with
  | some n => n.claims a b
  | none => false

/-- `mx[m].control` (R17). -/
def State.muxControl (s : State) (id : NodeId) : Byte :=
  match s.node? id with
  | some n => match n.dev with
    | .mux control => control
    | .stub _ _ => 0
    | .regdev _ _ => 0
  | none => 0

/-- The accumulator with a node appended if it claims the address (R82, R83). -/
def State.addIfClaims (s : State) (id : NodeId) (a : BusAddr) (b : Bool) (acc : List NodeId) : List NodeId :=
  if s.claims id a b then acc ++ [id] else acc

mutual
/-- `scan_bus(B, a, b, acc)` (R82): in list order, a search without broadcast ends at the first match. A MUX node is
`match_and_route` (R83): itself first, then every enabled channel, ascending, whether or not a match was found. -/
def scanBus (s : State) (a : BusAddr) (b : Bool) : TopoBus → List NodeId → List NodeId × Bool
  | .empty, acc => (acc, false)
  | .slave id rest, acc =>
    let acc := s.addIfClaims id a b acc
    if s.claims id a b && !b then (acc, true)
    else
      let r := scanBus s a b rest acc
      (r.1, s.claims id a b || r.2)
  | .mux id chans rest, acc =>
    let below := scanChans s a b (s.muxControl id) 0 chans (s.addIfClaims id a b acc)
    if (s.claims id a b || below.2) && !b then (below.1, true)
    else
      let r := scanBus s a b rest below.1
      (r.1, (s.claims id a b || below.2) || r.2)
/-- The loop of R83 over the channels from number `i` on: a channel is scanned when its control bit is 1. -/
def scanChans (s : State) (a : BusAddr) (b : Bool) (control : Byte) : Nat → TopoChans → List NodeId → List NodeId × Bool
  | _, .nil, acc => (acc, false)
  | i, .channel child rest, acc =>
    if control.getLsbD i then
      let here := scanBus s a b child acc
      let more := scanChans s a b control (i + 1) rest here.1
      (more.1, here.2 || more.2)
    else scanChans s a b control (i + 1) rest acc
end

/-- `match_and_route(m, a, b, acc)` (R83). -/
def matchAndRoute (s : State) (a : BusAddr) (b : Bool) (id : NodeId) (chans : TopoChans) (acc : List NodeId) :
    List NodeId × Bool :=
  let below := scanChans s a b (s.muxControl id) 0 chans (s.addIfClaims id a b acc)
  (below.1, s.claims id a b || below.2)

/-- The slaves a START with address `a` on an idle bus addresses (R84): the broadcast flag is `a = BCAST_ADDR`. -/
def State.addressed (s : State) (a : BusAddr) : List NodeId := (scanBus s a (decide (a = s.cfg.bcastAddr)) s.cfg.root []).1

/-! ### Slave handlers by kind (R80) -/

/-- `slave_event` (R102, R95: STUB and MUX do nothing). -/
def Device.onEvent (g : Config) (e : SlaveEvent) (ds : List Diag) : Device → Device × List Diag
  | .stub c latch => (.stub c latch, ds)
  | .mux control => (.mux control, ds)
  | .regdev c r => let w := frEvent g c e { dev := r, diags := ds }; (.regdev c w.dev, w.diags)

/-- `slave_send` (R95, R100, R124, R125). -/
def Device.onSend (g : Config) (v : Byte) (ds : List Diag) : Device → Device × List Diag
  | .stub c _ => (.stub c v, ds)
  | .mux _ => (.mux v, ds)
  | .regdev c r => let w := frSend g v { dev := r, diags := ds }; (.regdev c w.dev, w.diags)

/-- `slave_recv` (R101, R126 to R128). A MUX has no SEND capability (R95), so its case is never called. -/
def Device.onRecv (g : Config) (ds : List Diag) : Device → (Device × List Diag) × Byte
  | .stub c latch => ((.stub c latch, ds), latch)
  | .mux control => ((.mux control, ds), errByte)
  | .regdev c r => let w := frRecv g c { dev := r, diags := ds }; ((.regdev c w.1.dev, w.1.diags), w.2)

/-- Put back a served device and the diagnostics. -/
def State.putServed (s : State) (id : NodeId) (r : Device × List Diag) : State := (s.setDevice id r.1).setDiags r.2

/-- One slave notified of an event, if it has EVENT. -/
def State.eventTo (e : SlaveEvent) (s : State) (id : NodeId) : State :=
  match s.node? id with
  | some n => if n.dev.caps.event then s.putServed id (n.dev.onEvent s.cfg e s.diags) else s
  | none => s

/-- One slave given a byte, if it has RECEIVE (R87). -/
def State.sendTo (v : Byte) (s : State) (id : NodeId) : State :=
  match s.node? id with
  | some n => if n.dev.caps.receive then s.putServed id (n.dev.onSend s.cfg v s.diags) else s
  | none => s

/-- One slave asked for a byte, if it has SEND; without SEND it contributes 0xFF (R88). -/
def State.recvFrom (s : State) (id : NodeId) : State × Byte :=
  match s.node? id with
  | some n =>
    if n.dev.caps.send then
      let r := n.dev.onRecv s.cfg s.diags
      (s.putServed id r.1, r.2)
    else (s, errByte)
  | none => (s, errByte)

/-! ### The addressed slaves, each completely before the next (R53, R324) -/

def State.eventAll (e : SlaveEvent) : List NodeId → State → State
  | [], s => s
  | id :: ids, s => State.eventAll e ids (s.eventTo e id)

def State.sendAll (v : Byte) : List NodeId → State → State
  | [], s => s
  | id :: ids, s => State.sendAll v ids (s.sendTo v id)

/-- The bytes are combined by AND, starting from `acc` (R88). -/
def State.recvAll : List NodeId → State → Byte → State × Byte
  | [], s, acc => (s, acc)
  | id :: ids, s, acc =>
    let r := s.recvFrom id
    State.recvAll ids r.1 (acc &&& r.2)

end Sys2Proof.Machine
end

