-- ==== Sys2Proof/Machine/CommandAccess.lean ====
section
/-! DEFINITION. The two calls of a command code on a REGDEV, as the framer makes them (41_framer.md R120): what the 48
command instructions are. -/

namespace Sys2Proof.Machine

/-- The write call `rm_write(d, [code] ++ data)` (R150): its result OK or FAIL is the response (R327). -/
def commandWrite (code : Byte) (d : NodeId) (data : List Byte) (s : State) : Host.Outcome State Fault Refusal :=
  match s.regdev? d with
  | none => .fault .noRegDev
  | some (c, r) =>
    let w := rmWrite s.cfg c (code :: data) { dev := r, diags := s.diags }
    .next (((s.setRegDev d c w.1.dev).setDiags w.1.diags).respond (.writeCall w.2))

/-- The read call for one byte of a command code (R160): the byte is the response. -/
def commandRead (code : Byte) (d : NodeId) (s : State) : Host.Outcome State Fault Refusal :=
  match s.regdev? d with
  | none => .fault .noRegDev
  | some (c, r) =>
    let w := readByteOf s.cfg c code { dev := r, diags := s.diags }
    .next (((s.setRegDev d c w.1.dev).setDiags w.1.diags).respond (.readCall w.2))

/-- An access to a command code. -/
def commandAccess (code : Byte) (a : CmdAccess) (s : State) : Host.Outcome State Fault Refusal :=
  match a with
  | .write d data => commandWrite code d data s
  | .read d => commandRead code d s

end Sys2Proof.Machine
end

