-- ==== Sys2Proof/Machine/ControlCommands.lean ====
section
/-! DEFINITION. The control commands (43_commands.md R200 to R206): each is its code served through the device's command table. -/

namespace Sys2Proof.Machine

/-- `PAGE` (R200), class PAGE: the page selector. -/
def execPage (c : CmdAccess) (s : State) : Host.Outcome State Fault Refusal :=
  commandAccess entryPage.code c s

/-- `OPERATION` (R201), class RWB: read/write byte. -/
def execOperation (c : CmdAccess) (s : State) : Host.Outcome State Fault Refusal :=
  commandAccess entryOperation.code c s

/-- `ON_OFF_CONFIG` (R202), class RWB: read/write byte. -/
def execOnOffConfig (c : CmdAccess) (s : State) : Host.Outcome State Fault Refusal :=
  commandAccess entryOnOffConfig.code c s

/-- `CLEAR_FAULTS` (R203), class WO0: write-only, no data. -/
def execClearFaults (c : CmdAccess) (s : State) : Host.Outcome State Fault Refusal :=
  commandAccess entryClearFaults.code c s

/-- `CAPABILITY` (R204), class CAP: read-only capability byte. -/
def execCapability (c : CmdAccess) (s : State) : Host.Outcome State Fault Refusal :=
  commandAccess entryCapability.code c s

/-- `VOUT_MODE` (R205), class RWB: read/write byte. -/
def execVoutMode (c : CmdAccess) (s : State) : Host.Outcome State Fault Refusal :=
  commandAccess entryVoutMode.code c s

/-- `COEFFICIENTS` (R206), class RO5: read-only 5 raw bytes. -/
def execCoefficients (c : CmdAccess) (s : State) : Host.Outcome State Fault Refusal :=
  commandAccess entryCoefficients.code c s

end Sys2Proof.Machine
end

