-- ==== Sys2Proof/Machine/Codec.lean ====
section
/-! DEFINITION. The NumericCodec (44_codec.md): exact integer arithmetic, narrowed at the end without saturation (R267). A
rational of the rules is a numerator and a positive denominator here. -/

namespace Sys2Proof.Machine

/-- `round_haz(num / den)` for `den > 0` (R261): the nearest integer, a tie away from zero. -/
def roundHaz (num : Int) (den : Nat) : Int :=
  if 0 ≤ num then (((2 * num.natAbs + den) / (2 * den) : Nat) : Int)
  else -(((2 * num.natAbs + den) / (2 * den) : Nat) : Int)

/-- `trunc(num / den)` for `den ≠ 0` (R261): toward zero. -/
def truncDiv (num den : Int) : Int := num.tdiv den

/-- `10^k`. -/
def pow10 (k : Nat) : Nat := 10 ^ k

/-- `direct_encode(X, c)` (R262): `round_haz((gain * X + offset) * 10^exponent) mod 2^16`. -/
def directEncode (x : DWord) (c : Coeff) : Word :=
  let n : Int := c.gain * (x.toNat : Int) + c.offset
  if 0 ≤ c.exponent then BitVec.ofInt 16 (n * (pow10 c.exponent.toNat : Int))
  else BitVec.ofInt 16 (roundHaz n (pow10 (-c.exponent).toNat))

/-- `direct_decode(Y, c)` (R263): `trunc((Y * 10^(-exponent) - offset) / gain) mod 2^32`. -/
def directDecode (y : Word) (c : Coeff) : DWord :=
  if c.exponent ≤ 0 then
    BitVec.ofInt 32 (truncDiv ((y.toNat : Int) * (pow10 (-c.exponent).toNat : Int) - c.offset) c.gain)
  else
    let t : Int := (pow10 c.exponent.toNat : Int)
    BitVec.ofInt 32 (truncDiv ((y.toNat : Int) - c.offset * t) (c.gain * t))

/-- `shl16(v, k)` (R265). -/
def shl16 (v : Word) (k : Nat) : Word := v <<< k

/-- `asr16(v, k)` (R265): the sign-propagating right shift. -/
def asr16 (v : Word) (k : Nat) : Word := v.sshiftRight k

/-- `linear_encode(D, e)` (R266). -/
def linearEncode (d : Word) (e : Int) : Word := if e < 0 then shl16 d (-e).toNat else asr16 d e.toNat

/-- `linear_decode(L, e)` (R266). -/
def linearDecode (l : Word) (e : Int) : Word := if e < 0 then asr16 l (-e).toNat else shl16 l e.toNat

/-- The exponent of a page: `sext_5(vout_mode[4:0])` (R266). -/
def Page.exponent (p : Page) : Int := (p.control.voutMode.extractLsb' 0 5).toInt

/-- The raw value `H_SET_PHYS` stores (R306): `x[31:0]` through the direct codec, `x[15:0]` through the linear one. -/
def encodePhys (c : RegDevCfg) (q : Quantity) (p : Page) (x : DWord) : Word :=
  match c.fmt.get q with
  | .direct => directEncode x (c.coeff.get q)
  | .linear => linearEncode (x.setWidth 16) p.exponent

/-- The value `H_GET_PHYS` answers for a raw value (R307). -/
def decodePhys (c : RegDevCfg) (q : Quantity) (p : Page) (raw : Word) : DWord :=
  match c.fmt.get q with
  | .direct => directDecode raw (c.coeff.get q)
  | .linear => (linearDecode raw p.exponent).setWidth 32

end Sys2Proof.Machine
end

