-- ==== Sys2Proof/Machine/HostPort.lean ====
section
/-! DEFINITION. The host operations (46_host_port.md). A refused operation is `State.hostBad`. -/

namespace Sys2Proof.Machine

/-- The REGDEV `d` and its real page `p`, if both exist (R300). -/
def State.realPage? (s : State) (d : NodeId) (p : Byte) : Option (RegDevCfg × RegDev × Page) :=
  match s.regdev? d with
  | none => none
  | some (c, r) =>
    if p.toNat < c.numPages then
      match r.pg[p.toNat]? with
      | some pg => some (c, r, pg)
      | none => none
    else none

/-- The pages of a device with one page changed and `evaluate(d)` run (R304, R306). -/
def updateAndEvaluate (r : RegDev) (p : Nat) (f : Page → Page) : RegDev :=
  { r with pg := evaluatePages (r.pg.modify p f) }

/-- H_RESET (R301, R350). -/
def execHReset (s : State) : Host.Outcome State Fault Refusal := .next (s.resetBlock.hostOk (.num 0))

/-- H_SET_ADDR (R302). -/
def execHSetAddr (n : NodeId) (a : BusAddr) (s : State) : Host.Outcome State Fault Refusal :=
  match s.node? n with
  | some _ => .next ((s.setAddr n a).hostOk (.num 0))
  | none => .next s.hostBad

/-- H_PAGE_CONFIG (R303): the flags are assigned, on every real page for `ALL_PAGES`. -/
def execHPageConfig (d : NodeId) (p : Byte) (flags : Word) (s : State) : Host.Outcome State Fault Refusal :=
  match s.regdev? d with
  | none => .next s.hostBad
  | some (c, r) =>
    if p = allPages then
      .next ((s.setRegDev d c { r with pg := r.pg.map fun q => { q with flags := flags } }).hostOk (.num 0))
    else if p.toNat < c.numPages then
      .next ((s.setRegDev d c { r with pg := r.pg.modify p.toNat fun q => { q with flags := flags } }).hostOk (.num 0))
    else .next s.hostBad

/-- H_SET_FIELD (R304). -/
def execHSetField (d : NodeId) (p : Byte) (f : HostField) (v : RawValue) (s : State) : Host.Outcome State Fault Refusal :=
  match s.realPage? d p with
  | none => .next s.hostBad
  | some (c, r, _) =>
    match fieldUpdate s.cfg.strMax f v with
    | none => .next s.hostBad
    | some upd => .next ((s.setRegDev d c (updateAndEvaluate r p.toNat upd)).hostOk (.num 0))

/-- The value `H_GET_FIELD` reads, or none where it refuses (R305). -/
def hostFieldValue (n : NodeId) (p : Byte) (f : HostField) (s : State) : Option RawValue :=
  match f with
  | .page pf => (s.realPage? n p).map fun x => x.2.2.fieldValue pf
  | .addr => (s.node? n).map fun x => .num (x.addr.setWidth 32)
  | .control => match (s.node? n).map Node.dev with
    | some (.mux control) => some (.num (control.setWidth 32))
    | some (.stub _ _) => none
    | some (.regdev _ _) => none
    | none => none
  | .latch => match (s.node? n).map Node.dev with
    | some (.stub _ latch) => some (.num (latch.setWidth 32))
    | some (.mux _) => none
    | some (.regdev _ _) => none
    | none => none

/-- H_GET_FIELD (R305): it changes no state. -/
def execHGetField (n : NodeId) (p : Byte) (f : HostField) (s : State) : Host.Outcome State Fault Refusal :=
  match hostFieldValue n p f s with
  | some v => .next (s.hostOk v)
  | none => .next s.hostBad

/-- H_SET_PHYS (R306). -/
def execHSetPhys (d : NodeId) (p : Byte) (f : HostField) (x : DWord) (s : State) : Host.Outcome State Fault Refusal :=
  match s.realPage? d p with
  | none => .next s.hostBad
  | some (c, r, pg) =>
    match physField f with
    | none => .next s.hostBad
    | some (wf, q) =>
      .next ((s.setRegDev d c (updateAndEvaluate r p.toNat fun t => t.setWord wf (encodePhys c q pg x))).hostOk (.num 0))

/-- H_GET_PHYS (R307): it changes no state. -/
def execHGetPhys (d : NodeId) (p : Byte) (f : HostField) (s : State) : Host.Outcome State Fault Refusal :=
  match s.realPage? d p with
  | none => .next s.hostBad
  | some (c, _, pg) =>
    match physField f with
    | none => .next s.hostBad
    | some (wf, q) => .next (s.hostOk (.num (decodePhys c q pg (pg.getWord wf))))

end Sys2Proof.Machine
end

