-- ==== Sys2Proof/Machine/LimitCommands.lean ====
section
/-! DEFINITION. The limit commands (43_commands.md R214 to R233): each is its code served through the device's command table. -/

namespace Sys2Proof.Machine

/-- `VOUT_OV_FAULT_LIMIT` (R214), class RWW: read/write word. -/
def execVoutOvFaultLimit (c : CmdAccess) (s : State) : Host.Outcome State Fault Refusal :=
  commandAccess entryVoutOvFaultLimit.code c s

/-- `VOUT_OV_WARN_LIMIT` (R215), class RWW: read/write word. -/
def execVoutOvWarnLimit (c : CmdAccess) (s : State) : Host.Outcome State Fault Refusal :=
  commandAccess entryVoutOvWarnLimit.code c s

/-- `VOUT_UV_WARN_LIMIT` (R216), class RWW: read/write word. -/
def execVoutUvWarnLimit (c : CmdAccess) (s : State) : Host.Outcome State Fault Refusal :=
  commandAccess entryVoutUvWarnLimit.code c s

/-- `VOUT_UV_FAULT_LIMIT` (R217), class RWW: read/write word. -/
def execVoutUvFaultLimit (c : CmdAccess) (s : State) : Host.Outcome State Fault Refusal :=
  commandAccess entryVoutUvFaultLimit.code c s

/-- `IOUT_OC_FAULT_LIMIT` (R218), class RWW: read/write word. -/
def execIoutOcFaultLimit (c : CmdAccess) (s : State) : Host.Outcome State Fault Refusal :=
  commandAccess entryIoutOcFaultLimit.code c s

/-- `IOUT_OC_WARN_LIMIT` (R219), class RWW: read/write word. -/
def execIoutOcWarnLimit (c : CmdAccess) (s : State) : Host.Outcome State Fault Refusal :=
  commandAccess entryIoutOcWarnLimit.code c s

/-- `IOUT_UC_FAULT_LIMIT` (R220), class RWW: read/write word. -/
def execIoutUcFaultLimit (c : CmdAccess) (s : State) : Host.Outcome State Fault Refusal :=
  commandAccess entryIoutUcFaultLimit.code c s

/-- `OT_FAULT_LIMIT` (R221), class RWW: read/write word. -/
def execOtFaultLimit (c : CmdAccess) (s : State) : Host.Outcome State Fault Refusal :=
  commandAccess entryOtFaultLimit.code c s

/-- `OT_WARN_LIMIT` (R222), class RWW: read/write word. -/
def execOtWarnLimit (c : CmdAccess) (s : State) : Host.Outcome State Fault Refusal :=
  commandAccess entryOtWarnLimit.code c s

/-- `UT_WARN_LIMIT` (R223), class RWW: read/write word. -/
def execUtWarnLimit (c : CmdAccess) (s : State) : Host.Outcome State Fault Refusal :=
  commandAccess entryUtWarnLimit.code c s

/-- `UT_FAULT_LIMIT` (R224), class RWW: read/write word. -/
def execUtFaultLimit (c : CmdAccess) (s : State) : Host.Outcome State Fault Refusal :=
  commandAccess entryUtFaultLimit.code c s

/-- `VIN_OV_FAULT_LIMIT` (R225), class RWW: read/write word. -/
def execVinOvFaultLimit (c : CmdAccess) (s : State) : Host.Outcome State Fault Refusal :=
  commandAccess entryVinOvFaultLimit.code c s

/-- `VIN_OV_WARN_LIMIT` (R226), class RWW: read/write word. -/
def execVinOvWarnLimit (c : CmdAccess) (s : State) : Host.Outcome State Fault Refusal :=
  commandAccess entryVinOvWarnLimit.code c s

/-- `VIN_UV_WARN_LIMIT` (R227), class RWW: read/write word. -/
def execVinUvWarnLimit (c : CmdAccess) (s : State) : Host.Outcome State Fault Refusal :=
  commandAccess entryVinUvWarnLimit.code c s

/-- `VIN_UV_FAULT_LIMIT` (R228), class RWW: read/write word. -/
def execVinUvFaultLimit (c : CmdAccess) (s : State) : Host.Outcome State Fault Refusal :=
  commandAccess entryVinUvFaultLimit.code c s

/-- `IIN_OC_FAULT_LIMIT` (R229), class RWW: read/write word. -/
def execIinOcFaultLimit (c : CmdAccess) (s : State) : Host.Outcome State Fault Refusal :=
  commandAccess entryIinOcFaultLimit.code c s

/-- `IIN_OC_WARN_LIMIT` (R230), class RWW: read/write word. -/
def execIinOcWarnLimit (c : CmdAccess) (s : State) : Host.Outcome State Fault Refusal :=
  commandAccess entryIinOcWarnLimit.code c s

/-- `POUT_OP_FAULT_LIMIT` (R231), class RWW: read/write word. -/
def execPoutOpFaultLimit (c : CmdAccess) (s : State) : Host.Outcome State Fault Refusal :=
  commandAccess entryPoutOpFaultLimit.code c s

/-- `POUT_OP_WARN_LIMIT` (R232), class RWW: read/write word. -/
def execPoutOpWarnLimit (c : CmdAccess) (s : State) : Host.Outcome State Fault Refusal :=
  commandAccess entryPoutOpWarnLimit.code c s

/-- `PIN_OP_WARN_LIMIT` (R233), class RWW: read/write word. -/
def execPinOpWarnLimit (c : CmdAccess) (s : State) : Host.Outcome State Fault Refusal :=
  commandAccess entryPinOpWarnLimit.code c s

end Sys2Proof.Machine
end

