-- ==== Sys2Proof/Machine/ReadingCommands.lean ====
section
/-! DEFINITION. The reading commands (43_commands.md R234 to R240): each is its code served through the device's command table. -/

namespace Sys2Proof.Machine

/-- `READ_VIN` (R234), class ROW: read-only word. -/
def execReadVin (c : CmdAccess) (s : State) : Host.Outcome State Fault Refusal :=
  commandAccess entryReadVin.code c s

/-- `READ_IIN` (R235), class ROW: read-only word. -/
def execReadIin (c : CmdAccess) (s : State) : Host.Outcome State Fault Refusal :=
  commandAccess entryReadIin.code c s

/-- `READ_VOUT` (R236), class ROW: read-only word. -/
def execReadVout (c : CmdAccess) (s : State) : Host.Outcome State Fault Refusal :=
  commandAccess entryReadVout.code c s

/-- `READ_IOUT` (R237), class ROW: read-only word. -/
def execReadIout (c : CmdAccess) (s : State) : Host.Outcome State Fault Refusal :=
  commandAccess entryReadIout.code c s

/-- `READ_TEMPERATURE_1` (R238), class ROW: read-only word. -/
def execReadTemperature1 (c : CmdAccess) (s : State) : Host.Outcome State Fault Refusal :=
  commandAccess entryReadTemperature1.code c s

/-- `READ_POUT` (R239), class ROW: read-only word. -/
def execReadPout (c : CmdAccess) (s : State) : Host.Outcome State Fault Refusal :=
  commandAccess entryReadPout.code c s

/-- `READ_PIN` (R240), class ROW: read-only word. -/
def execReadPin (c : CmdAccess) (s : State) : Host.Outcome State Fault Refusal :=
  commandAccess entryReadPin.code c s

end Sys2Proof.Machine
end

