-- ==== Sys2Proof/Machine/StatusCommands.lean ====
section
/-! DEFINITION. The status commands (43_commands.md R207 to R213): each is its code served through the device's command table. -/

namespace Sys2Proof.Machine

/-- `STATUS_BYTE` (R207), class SB: the byte-wide view of the summary status word. -/
def execStatusByte (c : CmdAccess) (s : State) : Host.Outcome State Fault Refusal :=
  commandAccess entryStatusByte.code c s

/-- `STATUS_WORD` (R208), class RWW: read/write word. -/
def execStatusWord (c : CmdAccess) (s : State) : Host.Outcome State Fault Refusal :=
  commandAccess entryStatusWord.code c s

/-- `STATUS_VOUT` (R209), class RWB: read/write byte. -/
def execStatusVout (c : CmdAccess) (s : State) : Host.Outcome State Fault Refusal :=
  commandAccess entryStatusVout.code c s

/-- `STATUS_IOUT` (R210), class RWB: read/write byte. -/
def execStatusIout (c : CmdAccess) (s : State) : Host.Outcome State Fault Refusal :=
  commandAccess entryStatusIout.code c s

/-- `STATUS_INPUT` (R211), class RWB: read/write byte. -/
def execStatusInput (c : CmdAccess) (s : State) : Host.Outcome State Fault Refusal :=
  commandAccess entryStatusInput.code c s

/-- `STATUS_TEMPERATURE` (R212), class RWB: read/write byte. -/
def execStatusTemperature (c : CmdAccess) (s : State) : Host.Outcome State Fault Refusal :=
  commandAccess entryStatusTemperature.code c s

/-- `STATUS_CML` (R213), class RWB: read/write byte. -/
def execStatusCml (c : CmdAccess) (s : State) : Host.Outcome State Fault Refusal :=
  commandAccess entryStatusCml.code c s

end Sys2Proof.Machine
end

