-- ==== Sys2Proof/Machine/StringCommands.lean ====
section
/-! DEFINITION. Manufacturer strings and identity (43_commands.md R241 to R247): each is its code served through the device's command table. -/

namespace Sys2Proof.Machine

/-- `MFR_ID` (R241), class STR: read/write length-prefixed string. -/
def execMfrId (c : CmdAccess) (s : State) : Host.Outcome State Fault Refusal :=
  commandAccess entryMfrId.code c s

/-- `MFR_MODEL` (R242), class STR: read/write length-prefixed string. -/
def execMfrModel (c : CmdAccess) (s : State) : Host.Outcome State Fault Refusal :=
  commandAccess entryMfrModel.code c s

/-- `MFR_REVISION` (R243), class STR: read/write length-prefixed string. -/
def execMfrRevision (c : CmdAccess) (s : State) : Host.Outcome State Fault Refusal :=
  commandAccess entryMfrRevision.code c s

/-- `MFR_LOCATION` (R244), class STR: read/write length-prefixed string. -/
def execMfrLocation (c : CmdAccess) (s : State) : Host.Outcome State Fault Refusal :=
  commandAccess entryMfrLocation.code c s

/-- `MFR_DATE` (R245), class STR: read/write length-prefixed string. -/
def execMfrDate (c : CmdAccess) (s : State) : Host.Outcome State Fault Refusal :=
  commandAccess entryMfrDate.code c s

/-- `MFR_SERIAL` (R246), class STR: read/write length-prefixed string. -/
def execMfrSerial (c : CmdAccess) (s : State) : Host.Outcome State Fault Refusal :=
  commandAccess entryMfrSerial.code c s

/-- `IC_DEVICE_ID` (R247), class DEVID: read-only identity string. -/
def execIcDeviceId (c : CmdAccess) (s : State) : Host.Outcome State Fault Refusal :=
  commandAccess entryIcDeviceId.code c s

end Sys2Proof.Machine
end

