-- ==== Sys2Proof/Machine/WireRequests.lean ====
section
/-! DEFINITION. The wire requests (40_bus_engine.md R84 to R90, 30_encoding.md R63). -/

namespace Sys2Proof.Machine

/-- The event a START of a direction delivers (R84, R85). -/
def startEvent : Direction → SlaveEvent
  | .send => .startSend
  | .recv => .startRecv

/-- START on an idle bus (R84). -/
def startFresh (a : BusAddr) (d : Direction) (s : State) : State :=
  let acc := s.addressed a
  if acc = [] then s.answer .nack 0
  else
    let s := { s with bus := { isOpen := true, cur := acc, curAddr := a, bcast := decide (a = s.cfg.bcastAddr), dir := d } }
    (State.eventAll (startEvent d) acc s).answer .ack 0

/-- START on an open bus (R85): repeated START to the open address, else BUSY. -/
def startOpen (a : BusAddr) (d : Direction) (s : State) : State :=
  if a = s.bus.curAddr then
    (State.eventAll (startEvent d) s.bus.cur { s with bus := { s.bus with dir := d } }).answer .ack 0
  else (s.diag .busBusy).answer .busy 0

/-- START (R84, R85). -/
def startRequest (a : BusAddr) (d : Direction) (s : State) : State :=
  if s.bus.isOpen then startOpen a d s else startFresh a d s

/-- A reserved request kind (R63). -/
def reservedRequest (s : State) : State := (s.diag .reservedReq).answer .invalid 0

/-- START_SEND (R84, R85). -/
def execStartSend (a : BusAddr) (s : State) : Host.Outcome State Fault Refusal := .next (startRequest a .send s)

/-- START_RECV (R84, R85). -/
def execStartRecv (a : BusAddr) (s : State) : Host.Outcome State Fault Refusal := .next (startRequest a .recv s)

/-- TX (R87): the engine checks neither the direction nor that a slave took the byte. -/
def execTx (v : Byte) (s : State) : Host.Outcome State Fault Refusal :=
  if s.bus.isOpen then .next ((State.sendAll v s.bus.cur s).answer .ack 0)
  else .next ((s.diag .notOpen).answer .invalid 0)

/-- RX (R88). -/
def execRx (_ignored : Byte) (s : State) : Host.Outcome State Fault Refusal :=
  if s.bus.isOpen then
    let r := State.recvAll s.bus.cur s errByte
    .next (r.1.answer .ack r.2)
  else .next ((s.diag .notOpen).answer .invalid errByte)

/-- NACK (R89). -/
def execNack (_ignored : Byte) (s : State) : Host.Outcome State Fault Refusal :=
  if s.bus.isOpen then .next ((State.eventAll .nack s.bus.cur s).answer .ack 0)
  else .next ((s.diag .notOpen).answer .ack 0)

/-- STOP (R90): the slaves are notified before the bus closes. -/
def execStop (_ignored : Byte) (s : State) : Host.Outcome State Fault Refusal :=
  if s.bus.isOpen then .next ({ State.eventAll .finish s.bus.cur s with bus := BusState.idle }.answer .ack 0)
  else .next (s.answer .ack 0)

/-- Request kind 5 (R63). -/
def execReserved5 (_ignored : Byte) (s : State) : Host.Outcome State Fault Refusal := .next (reservedRequest s)

/-- Request kind 6 (R63). -/
def execReserved6 (_ignored : Byte) (s : State) : Host.Outcome State Fault Refusal := .next (reservedRequest s)

/-- Request kind 7 (R63). -/
def execReserved7 (_ignored : Byte) (s : State) : Host.Outcome State Fault Refusal := .next (reservedRequest s)

end Sys2Proof.Machine
end

