-- ==== Sys2Proof/Machine/Dispatch.lean ====
section
/-! DEFINITION. The dispatch: one arm per row of spec/opcode_table.json, each one direct call of its meaning. -/

namespace Sys2Proof.Machine

def exec (i : Instr) (s : State) : Host.Outcome State Fault Refusal :=
  match i with
  | .startSend a => Sys2Proof.Machine.execStartSend a s
  | .startRecv a => Sys2Proof.Machine.execStartRecv a s
  | .tx v => Sys2Proof.Machine.execTx v s
  | .rx ignored => Sys2Proof.Machine.execRx ignored s
  | .nack ignored => Sys2Proof.Machine.execNack ignored s
  | .stop ignored => Sys2Proof.Machine.execStop ignored s
  | .reserved5 ignored => Sys2Proof.Machine.execReserved5 ignored s
  | .reserved6 ignored => Sys2Proof.Machine.execReserved6 ignored s
  | .reserved7 ignored => Sys2Proof.Machine.execReserved7 ignored s
  | .page c => Sys2Proof.Machine.execPage c s
  | .operation c => Sys2Proof.Machine.execOperation c s
  | .onOffConfig c => Sys2Proof.Machine.execOnOffConfig c s
  | .clearFaults c => Sys2Proof.Machine.execClearFaults c s
  | .capability c => Sys2Proof.Machine.execCapability c s
  | .voutMode c => Sys2Proof.Machine.execVoutMode c s
  | .coefficients c => Sys2Proof.Machine.execCoefficients c s
  | .statusByte c => Sys2Proof.Machine.execStatusByte c s
  | .statusWord c => Sys2Proof.Machine.execStatusWord c s
  | .statusVout c => Sys2Proof.Machine.execStatusVout c s
  | .statusIout c => Sys2Proof.Machine.execStatusIout c s
  | .statusInput c => Sys2Proof.Machine.execStatusInput c s
  | .statusTemperature c => Sys2Proof.Machine.execStatusTemperature c s
  | .statusCml c => Sys2Proof.Machine.execStatusCml c s
  | .voutOvFaultLimit c => Sys2Proof.Machine.execVoutOvFaultLimit c s
  | .voutOvWarnLimit c => Sys2Proof.Machine.execVoutOvWarnLimit c s
  | .voutUvWarnLimit c => Sys2Proof.Machine.execVoutUvWarnLimit c s
  | .voutUvFaultLimit c => Sys2Proof.Machine.execVoutUvFaultLimit c s
  | .ioutOcFaultLimit c => Sys2Proof.Machine.execIoutOcFaultLimit c s
  | .ioutOcWarnLimit c => Sys2Proof.Machine.execIoutOcWarnLimit c s
  | .ioutUcFaultLimit c => Sys2Proof.Machine.execIoutUcFaultLimit c s
  | .otFaultLimit c => Sys2Proof.Machine.execOtFaultLimit c s
  | .otWarnLimit c => Sys2Proof.Machine.execOtWarnLimit c s
  | .utWarnLimit c => Sys2Proof.Machine.execUtWarnLimit c s
  | .utFaultLimit c => Sys2Proof.Machine.execUtFaultLimit c s
  | .vinOvFaultLimit c => Sys2Proof.Machine.execVinOvFaultLimit c s
  | .vinOvWarnLimit c => Sys2Proof.Machine.execVinOvWarnLimit c s
  | .vinUvWarnLimit c => Sys2Proof.Machine.execVinUvWarnLimit c s
  | .vinUvFaultLimit c => Sys2Proof.Machine.execVinUvFaultLimit c s
  | .iinOcFaultLimit c => Sys2Proof.Machine.execIinOcFaultLimit c s
  | .iinOcWarnLimit c => Sys2Proof.Machine.execIinOcWarnLimit c s
  | .poutOpFaultLimit c => Sys2Proof.Machine.execPoutOpFaultLimit c s
  | .poutOpWarnLimit c => Sys2Proof.Machine.execPoutOpWarnLimit c s
  | .pinOpWarnLimit c => Sys2Proof.Machine.execPinOpWarnLimit c s
  | .readVin c => Sys2Proof.Machine.execReadVin c s
  | .readIin c => Sys2Proof.Machine.execReadIin c s
  | .readVout c => Sys2Proof.Machine.execReadVout c s
  | .readIout c => Sys2Proof.Machine.execReadIout c s
  | .readTemperature1 c => Sys2Proof.Machine.execReadTemperature1 c s
  | .readPout c => Sys2Proof.Machine.execReadPout c s
  | .readPin c => Sys2Proof.Machine.execReadPin c s
  | .mfrId c => Sys2Proof.Machine.execMfrId c s
  | .mfrModel c => Sys2Proof.Machine.execMfrModel c s
  | .mfrRevision c => Sys2Proof.Machine.execMfrRevision c s
  | .mfrLocation c => Sys2Proof.Machine.execMfrLocation c s
  | .mfrDate c => Sys2Proof.Machine.execMfrDate c s
  | .mfrSerial c => Sys2Proof.Machine.execMfrSerial c s
  | .icDeviceId c => Sys2Proof.Machine.execIcDeviceId c s
  | .hReset => Sys2Proof.Machine.execHReset s
  | .hSetAddr n a => Sys2Proof.Machine.execHSetAddr n a s
  | .hPageConfig d p flags => Sys2Proof.Machine.execHPageConfig d p flags s
  | .hSetField d p f v => Sys2Proof.Machine.execHSetField d p f v s
  | .hGetField n p f => Sys2Proof.Machine.execHGetField n p f s
  | .hSetPhys d p f x => Sys2Proof.Machine.execHSetPhys d p f x s
  | .hGetPhys d p f => Sys2Proof.Machine.execHGetPhys d p f s

end Sys2Proof.Machine
end

