-- ==== Sys2Proof/Decode.lean ====
section
/-! DEFINITION. Decoding and encoding of the three formats of 30_encoding.md: BUSREQ (R60, R61, R63), CMD (R64, R66) and
HOST (R68). Decoding is total and rejects by name. -/

namespace Sys2Proof

/-- Why a frame is no instruction of the opcode table. None of these stops the machine: an unknown command code goes to
the device hook (R157), a reserved host operation is answered `H_BAD` (R300), an empty payload fails (R150). -/
inductive DecodeError where
  | emptyPayload
  | unknownCommand (code : Byte)
  | reservedHostOp (op : BitVec 4)
deriving DecidableEq, Repr

/-! ### BUSREQ -/

/-- `kind = req[10:8]` (R60). -/
def reqKind (req : BitVec 11) : BitVec 3 := req.extractLsb' 8 3

/-- `data = req[7:0]` (R60). -/
def reqData (req : BitVec 11) : Byte := req.extractLsb' 0 8

/-- The request word of a kind and a data byte (R60). -/
def reqWord (kind : BitVec 3) (data : Byte) : BitVec 11 := kind ++ data

/-- `{addr[6:0], rw}` (R61). -/
def addrByte (a : BusAddr) (rw : BitVec 1) : Byte := a ++ rw

/-- `data[7:1]` of a START (R61). -/
def addrOf (data : Byte) : BusAddr := data.extractLsb' 1 7

/-- A request word always is one of the nine wire rows of the opcode table (R60, R63). -/
def decodeWire (req : BitVec 11) : Instr :=
  match (reqKind req).toNat with
  | 0 => if (reqData req).getLsbD 0 then .startRecv (addrOf (reqData req)) else .startSend (addrOf (reqData req))
  | 1 => .tx (reqData req)
  | 2 => .rx (reqData req)
  | 3 => .nack (reqData req)
  | 4 => .stop (reqData req)
  | 5 => .reserved5 (reqData req)
  | 6 => .reserved6 (reqData req)
  | _ => .reserved7 (reqData req)

/-! ### CMD -/

/-- A command code and the instruction it stands for (R66). -/
structure CommandRow where
  code : Byte
  make : CmdAccess → Instr

/-- Control commands (R200 to R206). -/
def controlRows : List CommandRow :=
  [⟨0x00, .page⟩,
   ⟨0x01, .operation⟩,
   ⟨0x02, .onOffConfig⟩,
   ⟨0x03, .clearFaults⟩,
   ⟨0x19, .capability⟩,
   ⟨0x20, .voutMode⟩,
   ⟨0x30, .coefficients⟩]

/-- Status commands (R207 to R213). -/
def statusRows : List CommandRow :=
  [⟨0x78, .statusByte⟩,
   ⟨0x79, .statusWord⟩,
   ⟨0x7A, .statusVout⟩,
   ⟨0x7B, .statusIout⟩,
   ⟨0x7C, .statusInput⟩,
   ⟨0x7D, .statusTemperature⟩,
   ⟨0x7E, .statusCml⟩]

/-- Limit commands (R214 to R233). -/
def limitRows : List CommandRow :=
  [⟨0x40, .voutOvFaultLimit⟩,
   ⟨0x42, .voutOvWarnLimit⟩,
   ⟨0x43, .voutUvWarnLimit⟩,
   ⟨0x44, .voutUvFaultLimit⟩,
   ⟨0x46, .ioutOcFaultLimit⟩,
   ⟨0x4A, .ioutOcWarnLimit⟩,
   ⟨0x4B, .ioutUcFaultLimit⟩,
   ⟨0x4F, .otFaultLimit⟩,
   ⟨0x51, .otWarnLimit⟩,
   ⟨0x52, .utWarnLimit⟩,
   ⟨0x53, .utFaultLimit⟩,
   ⟨0x55, .vinOvFaultLimit⟩,
   ⟨0x57, .vinOvWarnLimit⟩,
   ⟨0x58, .vinUvWarnLimit⟩,
   ⟨0x59, .vinUvFaultLimit⟩,
   ⟨0x5B, .iinOcFaultLimit⟩,
   ⟨0x5D, .iinOcWarnLimit⟩,
   ⟨0x68, .poutOpFaultLimit⟩,
   ⟨0x6A, .poutOpWarnLimit⟩,
   ⟨0x6B, .pinOpWarnLimit⟩]

/-- Reading commands (R234 to R240). -/
def readingRows : List CommandRow :=
  [⟨0x88, .readVin⟩,
   ⟨0x89, .readIin⟩,
   ⟨0x8B, .readVout⟩,
   ⟨0x8C, .readIout⟩,
   ⟨0x8D, .readTemperature1⟩,
   ⟨0x96, .readPout⟩,
   ⟨0x97, .readPin⟩]

/-- Manufacturer strings and identity (R241 to R247). -/
def stringRows : List CommandRow :=
  [⟨0x99, .mfrId⟩,
   ⟨0x9A, .mfrModel⟩,
   ⟨0x9B, .mfrRevision⟩,
   ⟨0x9C, .mfrLocation⟩,
   ⟨0x9D, .mfrDate⟩,
   ⟨0x9E, .mfrSerial⟩,
   ⟨0xAD, .icDeviceId⟩]

/-- The 48 command codes of the opcode table. -/
def commandRows : List CommandRow := controlRows ++ statusRows ++ limitRows ++ readingRows ++ stringRows

/-- The instruction of a command code, for one of its two accesses. -/
def decodeCommand (code : Byte) (c : CmdAccess) : Except DecodeError Instr :=
  match commandRows.find? (fun r => decide (r.code = code)) with
  | some r => .ok (r.make c)
  | none => .error (.unknownCommand code)

/-- Byte 0 of a write payload is the command code, the rest is data (R64). -/
def decodePayload (d : NodeId) : List Byte → Except DecodeError Instr
  | [] => .error .emptyPayload
  | code :: data => decodeCommand code (.write d data)

/-! ### HOST -/

/-- The host operation of an operation number and its operands (R68). -/
def decodeHost (op : BitVec 4) (args : HostArgs) : Except DecodeError Instr :=
  match op.toNat with
  | 0 => .ok .hReset
  | 1 => .ok (.hSetAddr args.node args.addr)
  | 2 => .ok (.hPageConfig args.node args.page args.flags)
  | 3 => .ok (.hSetField args.node args.page args.field args.value)
  | 4 => .ok (.hGetField args.node args.page args.field)
  | 5 => .ok (.hSetPhys args.node args.page args.field args.phys)
  | 6 => .ok (.hGetPhys args.node args.page args.field)
  | _ => .error (.reservedHostOp op)

/-! ### The decoder and the encoder -/

/-- The decoder: total on every frame. -/
def decode : Frame → Except DecodeError Instr
  | .wire req => .ok (decodeWire req)
  | .payload d bytes => decodePayload d bytes
  | .latch d code => decodeCommand code (.read d)
  | .host op args => decodeHost op args

/-- The frame of a command access: a write payload, or a read of the latched code. -/
def commandFrame (code : Byte) : CmdAccess → Frame
  | .write d data => .payload d (code :: data)
  | .read d => .latch d code

/-- The encoder. Operands a host operation does not carry are 0. -/
def encode : Instr → Frame
  | .startSend a => .wire (reqWord 0 (addrByte a 0))
  | .startRecv a => .wire (reqWord 0 (addrByte a 1))
  | .tx v => .wire (reqWord 1 v)
  | .rx ignored => .wire (reqWord 2 ignored)
  | .nack ignored => .wire (reqWord 3 ignored)
  | .stop ignored => .wire (reqWord 4 ignored)
  | .reserved5 ignored => .wire (reqWord 5 ignored)
  | .reserved6 ignored => .wire (reqWord 6 ignored)
  | .reserved7 ignored => .wire (reqWord 7 ignored)
  | .page c => commandFrame 0x00 c
  | .operation c => commandFrame 0x01 c
  | .onOffConfig c => commandFrame 0x02 c
  | .clearFaults c => commandFrame 0x03 c
  | .capability c => commandFrame 0x19 c
  | .voutMode c => commandFrame 0x20 c
  | .coefficients c => commandFrame 0x30 c
  | .statusByte c => commandFrame 0x78 c
  | .statusWord c => commandFrame 0x79 c
  | .statusVout c => commandFrame 0x7A c
  | .statusIout c => commandFrame 0x7B c
  | .statusInput c => commandFrame 0x7C c
  | .statusTemperature c => commandFrame 0x7D c
  | .statusCml c => commandFrame 0x7E c
  | .voutOvFaultLimit c => commandFrame 0x40 c
  | .voutOvWarnLimit c => commandFrame 0x42 c
  | .voutUvWarnLimit c => commandFrame 0x43 c
  | .voutUvFaultLimit c => commandFrame 0x44 c
  | .ioutOcFaultLimit c => commandFrame 0x46 c
  | .ioutOcWarnLimit c => commandFrame 0x4A c
  | .ioutUcFaultLimit c => commandFrame 0x4B c
  | .otFaultLimit c => commandFrame 0x4F c
  | .otWarnLimit c => commandFrame 0x51 c
  | .utWarnLimit c => commandFrame 0x52 c
  | .utFaultLimit c => commandFrame 0x53 c
  | .vinOvFaultLimit c => commandFrame 0x55 c
  | .vinOvWarnLimit c => commandFrame 0x57 c
  | .vinUvWarnLimit c => commandFrame 0x58 c
  | .vinUvFaultLimit c => commandFrame 0x59 c
  | .iinOcFaultLimit c => commandFrame 0x5B c
  | .iinOcWarnLimit c => commandFrame 0x5D c
  | .poutOpFaultLimit c => commandFrame 0x68 c
  | .poutOpWarnLimit c => commandFrame 0x6A c
  | .pinOpWarnLimit c => commandFrame 0x6B c
  | .readVin c => commandFrame 0x88 c
  | .readIin c => commandFrame 0x89 c
  | .readVout c => commandFrame 0x8B c
  | .readIout c => commandFrame 0x8C c
  | .readTemperature1 c => commandFrame 0x8D c
  | .readPout c => commandFrame 0x96 c
  | .readPin c => commandFrame 0x97 c
  | .mfrId c => commandFrame 0x99 c
  | .mfrModel c => commandFrame 0x9A c
  | .mfrRevision c => commandFrame 0x9B c
  | .mfrLocation c => commandFrame 0x9C c
  | .mfrDate c => commandFrame 0x9D c
  | .mfrSerial c => commandFrame 0x9E c
  | .icDeviceId c => commandFrame 0xAD c
  | .hReset => .host 0 HostArgs.zero
  | .hSetAddr s a => .host 1 { HostArgs.zero with node := s, addr := a }
  | .hPageConfig d p flags => .host 2 { HostArgs.zero with node := d, page := p, flags := flags }
  | .hSetField d p f v => .host 3 { HostArgs.zero with node := d, page := p, field := f, value := v }
  | .hGetField s p f => .host 4 { HostArgs.zero with node := s, page := p, field := f }
  | .hSetPhys d p f x => .host 5 { HostArgs.zero with node := d, page := p, field := f, phys := x }
  | .hGetPhys d p f => .host 6 { HostArgs.zero with node := d, page := p, field := f }

/-! ### Words of the opcode table -/

/-- The REGDEV that a table word's command access is made on (the first node of the reference topology). -/
def tableDevice : NodeId := 0

/-- The frame of a table word. The three formats overlap in their bits, so the width tells them apart: more than 8 bits
BUSREQ; otherwise CMD for a code of the default table, else HOST. A command word stands for the access its class has
(R65): a write payload with data bytes 0, or, for a read-only class, a read of the latched code. DESIGN CHOICE (log
entry 4): the four 8-bit words 0 to 3 name a command and a host operation both and are read as the command. -/
def tableFrame (nbits w : Nat) : Option Frame :=
  if nbits ≤ 4 then
    if w < 16 then some (.host (BitVec.ofNat 4 w) HostArgs.zero) else none
  else if nbits ≤ 8 then
    if w < 256 then
      match Machine.tableEntry Machine.defaultCmdTable (BitVec.ofNat 8 w) with
      | some e =>
        if e.cls.readOnly then some (.latch tableDevice e.code)
        else some (.payload tableDevice (e.code :: List.replicate e.cls.dataBytes 0))
      | none =>
        if w < 16 then some (.host (BitVec.ofNat 4 w) HostArgs.zero)
        else some (.payload tableDevice [BitVec.ofNat 8 w])
    else none
  else if w < 2048 then some (.wire (BitVec.ofNat 11 w))
  else none

/-- The instruction the decoder reads from a table word. -/
def decodeTableWord (nbits w : Nat) : Option Instr :=
  match tableFrame nbits w with
  | some fr => (decode fr).toOption
  | none => none

end Sys2Proof
end

