-- ==== Sys2Proof/Machine/Fetch.lean ====
section
/-! DEFINITION. Where the next instruction comes from. A request is taken from `pending` (00_scope.md R5); a command code
is taken from the payload the framer delivers at a flush point (20_memory.md R44) or from the command latch (R56). -/

namespace Sys2Proof.Machine

/-- The answer to a request that decodes to no instruction: only a reserved host operation does (R68, R300). -/
def State.answerUndecoded (s : State) (e : DecodeError) : State :=
  match e with
  | .reservedHostOp _ => s.hostBad
  | .emptyPayload => s.hostBad
  | .unknownCommand _ => s.hostBad

/-- A framer that holds a payload, in a mode. -/
def Framer.holding (cap : Nat) (mode : FrMode) (payload : List Byte) : Framer :=
  { mode := mode, buf := payload ++ List.replicate (cap - payload.length) 0, len := payload.length }

/-- The bus open to one node, in a direction. -/
def busOpenTo (d : NodeId) (a : BusAddr) (dir : Direction) : BusState :=
  { isOpen := true, cur := [d], curAddr := a, bcast := false, dir := dir }

/-- The address of a node id. -/
def State.addrOf (s : State) (d : NodeId) : BusAddr :=
  match s.node? d with
  | some n => n.addr
  | none => 0

/-- The state in which the next step runs a frame. A request goes to the front of `pending`. A write payload is what
`START d,W; TX ...` leaves, with the STOP that flushes it next. A read of a latched code is what
`START d,W; TX code; START d,R` leaves, with the RX next. -/
def State.withFrame (s : State) (fr : Frame) : State :=
  match fr with
  | .wire req => { s with pending := .wire req :: s.pending }
  | .host op args => { s with pending := .host op args :: s.pending }
  | .payload d bytes =>
    match s.regdev? d with
    | none => s
    | some (c, r) =>
      let r := { r with fr := Framer.holding s.cfg.bufCap .write bytes }
      { s.setRegDev d c r with
        bus := busOpenTo d (s.addrOf d) .send, pending := .wire (reqWord 4 0) :: s.pending }
  | .latch d code =>
    match s.regdev? d with
    | none => s
    | some (c, r) =>
      let r := { r with
        fr := Framer.holding s.cfg.bufCap .read [code]
        rd := { r.rd with cmd := code, pagesValid := true, outLen := 0 } }
      { s.setRegDev d c r with
        bus := busOpenTo d (s.addrOf d) .recv, pending := .wire (reqWord 2 0) :: s.pending }

end Sys2Proof.Machine
end

