-- ==== Sys2Proof/Machine/Step.lean ====
section
/-! DEFINITION. The step: one request or host operation (00_scope.md R5), taken from `pending`, decoded and executed. -/

namespace Sys2Proof.Machine

/-- The meaning of one request at a state whose outputs are empty. -/
def serve (rq : Request) (s : State) : Host.Outcome State Fault Refusal :=
  match decode rq.frame with
  | .ok i => exec i s
  | .error e => .next (s.answerUndecoded e)

/-- One step. An ill-formed configuration has no behaviour (R6). With nothing presented the block does nothing (R5: it
"never initiates anything"). -/
def step (s : State) : Host.Outcome State Fault Refusal :=
  if s.configOk then
    match s.pending with
    | [] => .next s
    | rq :: rest => serve rq (s.begin rest)
  else .refused .illFormedConfiguration

/-- The state whose next step runs the instruction of a table word. -/
def State.withFetchWord (s : State) (nbits w : Nat) : State :=
  match tableFrame nbits w with
  | some fr => s.withFrame fr
  | none => s

end Sys2Proof.Machine
end

