-- ==== Sys2Proof/Safety.lean ====
section
/-! DEFINITION. What a safe run is: the invariant of 40_bus_engine.md R105 together with the widths of 10_state.md, and
the terms the statements about the machine use. -/

namespace Sys2Proof.Machine

/-! ### The invariant -/

/-- The framer of R19: a buffer of `BUF_CAP` bytes, `len` within it, nothing but zeros beyond `len`; and what the modes say
about `len` (R121 to R130: IDLE and RECV_ONE are entered with an empty buffer only, READ with a flushed payload only). -/
def Framer.wf (cap : Nat) (fr : Framer) : Bool :=
  decide (fr.buf.length = cap) && decide (fr.len ≤ cap) && decide (fr.buf.drop fr.len = List.replicate (cap - fr.len) 0) &&
  match fr.mode with
  | .idle | .recvOne => decide (fr.len = 0)
  | .read => decide (0 < fr.len)
  | .write | .done | .confused => true

/-- The state of a REGDEV has the widths of R18 to R21. -/
def RegDev.wf (g : Config) (c : RegDevCfg) (r : RegDev) : Bool := r.fr.wf g.bufCap && rdShapeOk g c r.rd r.pg

def Device.wf (g : Config) : Device → Bool
  | .stub _ _ => true
  | .mux _ => true
  | .regdev c r => r.wf g c

/-- The framer of a device is at rest: IDLE and empty (R105). -/
def Device.atRest : Device → Bool
  | .stub _ _ => true
  | .mux _ => true
  | .regdev _ r => decide (r.fr.mode = .idle) && decide (r.fr.len = 0)

/-- The bus of R10 to R12 and R105: open exactly when some slave is addressed, no slave addressed twice, and everything 0
while it is closed. -/
def BusState.wf (b : BusState) : Bool :=
  decide (b.isOpen = true ↔ b.cur ≠ []) && distinct b.cur && (b.isOpen || decide (b = BusState.idle))

/-- The invariant of the machine: a well-formed configuration (R6), every width of 10_state.md, and R105. -/
def State.inv (s : State) : Bool :=
  s.configOk && s.bus.wf && s.nodes.all (fun n => n.dev.wf s.cfg) &&
  s.bus.cur.all (fun id => s.nodes.any fun n => decide (n.id = id)) &&
  s.nodes.all (fun n => decide (n.id ∈ s.bus.cur) || n.dev.atRest)

/-- A safe state: the invariant holds and the next step answers a state (60_exceptions.md: "The step function is total").
-/
def State.Safe (s : State) : Prop := s.inv = true ∧ ∃ t, step s = .next t

/-! ### The configuration as it stands in a state -/

/-- The constant part of a device. -/
inductive DeviceCfg where
  | stub (c : StubCfg)
  | mux
  | regdev (c : RegDevCfg)
deriving DecidableEq, Repr

def Device.cfg : Device → DeviceCfg
  | .stub c _ => .stub c
  | .mux _ => .mux
  | .regdev c _ => .regdev c

/-- Everything of a state that is configuration (R6): the block-wide parameters and, node by node, the constant parts. -/
def State.configuration (s : State) : Config × List (NodeId × BusAddr × DeviceCfg) :=
  (s.cfg, s.nodes.map fun n => (n.id, n.addr0, n.dev.cfg))

/-- Every device hook of a device is the default of R6. -/
def Device.defaultHooks : Device → Bool
  | .stub _ _ => true
  | .mux _ => true
  | .regdev c _ => decide (c.hookWrite = none) && decide (c.hookRead = none) && decide (c.hookQuick = none)

/-- Every device hook and the command table of a device are the defaults of R6. -/
def Device.standard : Device → Bool
  | .stub _ _ => true
  | .mux _ => true
  | .regdev c r => (Device.regdev c r).defaultHooks && decide (c.cmdTable = defaultCmdTable)

/-- The pages of a device (none for a STUB or a MUX). -/
def Device.pages : Device → List Page
  | .stub _ _ => []
  | .mux _ => []
  | .regdev _ r => r.pg

/-! ### Terms of the statements about commands -/

/-- REGDEV `d` (parameters `c`, state `r`) has the real page `idx` selected, whose record is `pg`. -/
def Selected (s : State) (d : NodeId) (c : RegDevCfg) (r : RegDev) (idx : Nat) (pg : Page) : Prop :=
  s.regdev? d = some (c, r) ∧ r.rd.page ≠ allPages ∧ r.rd.page.toNat = idx ∧ idx < c.numPages ∧ r.pg[idx]? = some pg

/-- The device's table has the entry, and the page has its flag if it names one (R157). -/
def Exposed (c : RegDevCfg) (e : CmdEntry) (pg : Page) : Prop :=
  tableEntry c.cmdTable e.code = some e ∧ ∀ f, e.flag = some f → pg.hasFlag f = true

/-- The device's table has the entry, and the page lacks its flag (R157). -/
def GatedOff (c : RegDevCfg) (e : CmdEntry) (pg : Page) : Prop :=
  tableEntry c.cmdTable e.code = some e ∧ ∃ f, e.flag = some f ∧ pg.hasFlag f = false

/-- A code the write path does not test by value (R151, R152). -/
def Ordinary (s : State) (code : Byte) : Prop := code ≠ s.cfg.cmdPage ∧ code ≠ s.cfg.cmdClearFaults

/-- A dispatched read is due: nothing staged, pages allocated (R160). -/
def ReadDue (r : RegDev) : Prop := r.rd.outLen = 0 ∧ r.rd.pagesValid = true

/-- A REGDEV after a dispatched write of a code: latched, pages evaluated, `in_len` 0 (R151, R158). -/
def RegDev.written (r : RegDev) (code : Byte) (pages : List Page) : RegDev :=
  { r with rd := { r.rd with pagesValid := true, cmd := code, inLen := 0 }, pg := evaluatePages pages }

/-- A REGDEV after the first byte of the wire bytes `bytes` was staged and returned (R45, R170, R174). -/
def RegDev.served (r : RegDev) (bytes : List Byte) : RegDev :=
  { r with rd := { r.rd with
      outBuf := bytes.reverse ++ r.rd.outBuf.drop bytes.length, outLen := bytes.length - 1 } }

/-- The state a write call ends in: the device, some more diagnostics, the call's result. -/
def State.wroteCall (s : State) (d : NodeId) (c : RegDevCfg) (r : RegDev) (ds : List Diag) (ok : Bool) : State :=
  ((s.setRegDev d c r).setDiags (s.diags ++ ds)).respond (.writeCall ok)

/-- The state a read call ends in. -/
def State.readCalled (s : State) (d : NodeId) (c : RegDevCfg) (r : RegDev) (ds : List Diag) (b : Byte) : State :=
  ((s.setRegDev d c r).setDiags (s.diags ++ ds)).respond (.readCall b)

/-- The framer of a REGDEV replaced. -/
def State.setFramer (s : State) (d : NodeId) (fr : Framer) : State :=
  match s.regdev? d with
  | some (c, r) => s.setRegDev d c { r with fr := fr }
  | none => s

/-- REGDEV `d` has the all-pages pseudo-index selected, and one record for each of its real pages (R154, R161). -/
def AllSelected (s : State) (d : NodeId) (c : RegDevCfg) (r : RegDev) : Prop :=
  s.regdev? d = some (c, r) ∧ r.rd.page = allPages ∧ r.pg.length = c.numPages ∧ c.numPages ≤ 255

/-- The pages after each of the first `n` was changed in ascending order, every page evaluated after each change (R54, R154,
R158). -/
def fannedOut (n : Nat) (f : Page → Page) (pages : List Page) : List Page :=
  (List.range n).foldl (fun ps i => evaluatePages (ps.modify i f)) pages

/-- The state an all-pages write of a code with data ends in: every page of `pages` changed by `f`, the diagnostics `ds`
once a page, the result OK, the selector as it was (R154). -/
def State.wroteAll (s : State) (d : NodeId) (c : RegDevCfg) (r : RegDev) (code : Byte) (data : List Byte) (pages : List Page)
    (f : Page → Page) (ds : List Diag) : State :=
  s.wroteCall d c
    { r with
      rd := { r.rd with pagesValid := true, cmd := code, inLen := if c.numPages = 0 then data.length + 1 else 0 }
      pg := fannedOut c.numPages f pages }
    (List.replicate c.numPages ds).flatten true

/-- `rd[d].page <- v`. -/
def State.withSelector (s : State) (d : NodeId) (v : Byte) : State :=
  match s.regdev? d with
  | some (c, r) => s.setRegDev d c { r with rd := { r.rd with page := v } }
  | none => s

/-- A REGDEV after the fault of a read with all pages selected (R161, R322). -/
def RegDev.faulted (r : RegDev) : RegDev := { r with pg := r.pg.modify 0 Page.raiseCml }

/-- The word the data bytes of a payload give (R165): low byte first, a missing high byte 0, surplus ignored. -/
def dataWord : List Byte → Word
  | [] => 0
  | [lo] => lo.setWidth 16
  | lo :: hi :: _ => (hi ++ lo : BitVec 16)

/-- The two wire bytes of a word, low byte first (R46). -/
def wordBytes (w : Word) : List Byte := [w.extractLsb' 0 8, w.extractLsb' 8 8]

/-- The warning of R165: a data length other than the width. -/
def lengthWarning (data : List Byte) (width : Nat) : List Diag := if data.length = width then [] else [.rmLenMismatch]

/-- An instruction of a command code, its default table entry, and the field it names. -/
structure FieldCommand (φ : Type) where
  make  : CmdAccess → Instr
  entry : CmdEntry
  field : φ

/-- The read/write byte commands (class RWB). -/
def byteCommands : List (FieldCommand ByteField) :=
  [⟨.operation, entryOperation, .operation⟩, ⟨.onOffConfig, entryOnOffConfig, .onOffConfig⟩,
   ⟨.voutMode, entryVoutMode, .voutMode⟩, ⟨.statusVout, entryStatusVout, .status .vout⟩,
   ⟨.statusIout, entryStatusIout, .status .iout⟩, ⟨.statusInput, entryStatusInput, .status .input⟩,
   ⟨.statusTemperature, entryStatusTemperature, .status .temperature⟩, ⟨.statusCml, entryStatusCml, .status .cml⟩]

/-- The read/write word commands (class RWW). -/
def wordCommands : List (FieldCommand WordField) :=
  [⟨.statusWord, entryStatusWord, .statusWord⟩,
   ⟨.voutOvFaultLimit, entryVoutOvFaultLimit, .limit .voutOvFault⟩,
   ⟨.voutOvWarnLimit, entryVoutOvWarnLimit, .limit .voutOvWarn⟩,
   ⟨.voutUvWarnLimit, entryVoutUvWarnLimit, .limit .voutUvWarn⟩,
   ⟨.voutUvFaultLimit, entryVoutUvFaultLimit, .limit .voutUvFault⟩,
   ⟨.ioutOcFaultLimit, entryIoutOcFaultLimit, .limit .ioutOcFault⟩,
   ⟨.ioutOcWarnLimit, entryIoutOcWarnLimit, .limit .ioutOcWarn⟩,
   ⟨.ioutUcFaultLimit, entryIoutUcFaultLimit, .limit .ioutUcFault⟩,
   ⟨.otFaultLimit, entryOtFaultLimit, .limit .otFault⟩,
   ⟨.otWarnLimit, entryOtWarnLimit, .limit .otWarn⟩,
   ⟨.utWarnLimit, entryUtWarnLimit, .limit .utWarn⟩,
   ⟨.utFaultLimit, entryUtFaultLimit, .limit .utFault⟩,
   ⟨.vinOvFaultLimit, entryVinOvFaultLimit, .limit .vinOvFault⟩,
   ⟨.vinOvWarnLimit, entryVinOvWarnLimit, .limit .vinOvWarn⟩,
   ⟨.vinUvWarnLimit, entryVinUvWarnLimit, .limit .vinUvWarn⟩,
   ⟨.vinUvFaultLimit, entryVinUvFaultLimit, .limit .vinUvFault⟩,
   ⟨.iinOcFaultLimit, entryIinOcFaultLimit, .limit .iinOcFault⟩,
   ⟨.iinOcWarnLimit, entryIinOcWarnLimit, .limit .iinOcWarn⟩,
   ⟨.poutOpFaultLimit, entryPoutOpFaultLimit, .limit .poutOpFault⟩,
   ⟨.poutOpWarnLimit, entryPoutOpWarnLimit, .limit .poutOpWarn⟩,
   ⟨.pinOpWarnLimit, entryPinOpWarnLimit, .limit .pinOpWarn⟩]

/-- The read-only word commands (class ROW): the live readings. -/
def readingCommands : List (FieldCommand ReadingField) :=
  [⟨.readVin, entryReadVin, .vin⟩, ⟨.readIin, entryReadIin, .iin⟩, ⟨.readVout, entryReadVout, .vout⟩,
   ⟨.readIout, entryReadIout, .iout⟩, ⟨.readTemperature1, entryReadTemperature1, .temperature1⟩,
   ⟨.readPout, entryReadPout, .pout⟩, ⟨.readPin, entryReadPin, .pin⟩]

/-- The string commands (class STR). -/
def stringCommands : List (FieldCommand StringField) :=
  [⟨.mfrId, entryMfrId, .id⟩, ⟨.mfrModel, entryMfrModel, .model⟩, ⟨.mfrRevision, entryMfrRevision, .revision⟩,
   ⟨.mfrLocation, entryMfrLocation, .location⟩, ⟨.mfrDate, entryMfrDate, .date⟩, ⟨.mfrSerial, entryMfrSerial, .serial⟩]

/-- The read-only commands (classes ROW, CAP, RO5, DEVID), with no field. -/
def readOnlyCommands : List (FieldCommand Unit) :=
  [⟨.readVin, entryReadVin, ()⟩, ⟨.readIin, entryReadIin, ()⟩, ⟨.readVout, entryReadVout, ()⟩,
   ⟨.readIout, entryReadIout, ()⟩, ⟨.readTemperature1, entryReadTemperature1, ()⟩, ⟨.readPout, entryReadPout, ()⟩,
   ⟨.readPin, entryReadPin, ()⟩, ⟨.capability, entryCapability, ()⟩, ⟨.coefficients, entryCoefficients, ()⟩,
   ⟨.icDeviceId, entryIcDeviceId, ()⟩]

/-- The gated commands: every entry of the default table that names a flag. -/
def gatedCommands : List (FieldCommand Unit) :=
  [⟨.voutMode, entryVoutMode, ()⟩, ⟨.coefficients, entryCoefficients, ()⟩, ⟨.statusVout, entryStatusVout, ()⟩,
   ⟨.statusIout, entryStatusIout, ()⟩, ⟨.statusInput, entryStatusInput, ()⟩,
   ⟨.statusTemperature, entryStatusTemperature, ()⟩] ++
  (wordCommands.drop 1).map (fun x => ⟨x.make, x.entry, ()⟩) ++
  readingCommands.map (fun x => ⟨x.make, x.entry, ()⟩) ++
  stringCommands.map (fun x => ⟨x.make, x.entry, ()⟩)

/-! ### Terms of the statements about the engine, the staging buffer, the evaluator and the codec -/

mutual
/-- The nodes that a scan of a bus can meet, in scan order: those of the bus, and behind a MUX those of every channel whose
control bit is 1 (R41). `control` gives the control byte of a MUX. -/
def reachableOn (control : NodeId → Byte) : TopoBus → List NodeId
  | .empty => []
  | .slave id rest => id :: reachableOn control rest
  | .mux id chans rest => id :: (reachableBelow control (control id) 0 chans ++ reachableOn control rest)
/-- The same over the channels of a MUX from number `i` on. -/
def reachableBelow (control : NodeId → Byte) (bits : Byte) : Nat → TopoChans → List NodeId
  | _, .nil => []
  | i, .channel child rest =>
    (if bits.getLsbD i then reachableOn control child else []) ++ reachableBelow control bits (i + 1) rest
end

/-- The nodes reachable from the root bus (R41). -/
def State.reachable (s : State) : List NodeId := reachableOn s.muxControl s.cfg.root

mutual
/-- What a scan without broadcast addresses: in list order, the first node of the bus with anything to address, and all
that this node gives; `claims` says which nodes claim the address. A MUX gives itself if it claims, and what every enabled
channel gives, ascending, whether or not it or an earlier channel gave something (R82, R83). -/
def firstFoundOn (claims : NodeId → Bool) (control : NodeId → Byte) : TopoBus → List NodeId
  | .empty => []
  | .slave id rest => if claims id then [id] else firstFoundOn claims control rest
  | .mux id chans rest =>
    let here := (if claims id then [id] else []) ++ foundBelow claims control (control id) 0 chans
    if here = [] then firstFoundOn claims control rest else here
/-- The same over the channels of a MUX from number `i` on, one after the other. -/
def foundBelow (claims : NodeId → Bool) (control : NodeId → Byte) (bits : Byte) : Nat → TopoChans → List NodeId
  | _, .nil => []
  | i, .channel child rest =>
    (if bits.getLsbD i then firstFoundOn claims control child else []) ++ foundBelow claims control bits (i + 1) rest
end

/-- A slave given a byte: the device and the diagnostics it emits (R87, R95, R100; a REGDEV by its framer's `slave_send`). -/
def Device.givenByte (g : Config) (v : Byte) : Device → Device × List Diag
  | .stub c latch => (.stub c (if c.caps.receive then v else latch), [])
  | .mux _ => (.mux v, [])
  | .regdev c r => let w := frSend g v { dev := r, diags := [] }; (.regdev c w.dev, w.diags)

/-- A slave asked for a byte: the device, the diagnostics and the byte (R88, R95, R101; a REGDEV by its framer's
`slave_recv`). -/
def Device.askedByte (g : Config) : Device → (Device × List Diag) × Byte
  | .stub c latch => ((.stub c latch, []), if c.caps.send then latch else 0xFF)
  | .mux control => ((.mux control, []), 0xFF)
  | .regdev c r => let w := frRecv g c { dev := r, diags := [] }; ((.regdev c w.1.dev, w.1.diags), w.2)

/-- A slave notified of an event: the device and the diagnostics (R85, R89, R90, R95, R102; a REGDEV by its framer's
`slave_event`). -/
def Device.notified (g : Config) (e : SlaveEvent) : Device → Device × List Diag
  | .stub c latch => (.stub c latch, [])
  | .mux control => (.mux control, [])
  | .regdev c r => let w := frEvent g c e { dev := r, diags := [] }; (.regdev c w.dev, w.diags)

/-- Every addressed slave served once by `f` and no other node touched; the diagnostics in the order of `bus.cur` (R53,
R324). -/
def State.servedEach (s : State) (f : Device → Device × List Diag) : State :=
  { s with
    nodes := s.nodes.map fun n => if n.id ∈ s.bus.cur then { n with dev := (f n.dev).1 } else n
    diags := s.diags ++ s.bus.cur.flatMap fun id => ((s.node? id).map fun n => (f n.dev).2).getD [] }

/-- What a STUB or a MUX gives to a byte request (R88, R95, R101). -/
def Device.suppliedByte : Device → Byte
  | .stub c latch => if c.caps.send then latch else 0xFF
  | .mux _ => 0xFF
  | .regdev _ _ => 0xFF

/-- What a byte leaves of a STUB or a MUX (R87, R95, R100). -/
def Device.accepting (v : Byte) : Device → Device
  | .stub c latch => .stub c (if c.caps.receive then v else latch)
  | .mux _ => .mux v
  | .regdev c r => .regdev c r

/-- A node that is a REGDEV. -/
def Device.isRegDev : Device → Bool
  | .stub _ _ => false
  | .mux _ => false
  | .regdev _ _ => true

/-- The bytes of `n` byte requests served from the staging buffer (R45, R174). -/
def popAll : Nat → Work → List Byte
  | 0, _ => []
  | n + 1, w => let r := pop w; r.2 :: popAll n r.1

/-- The bits of a status family set in `a` are set in `b` (R283). -/
def Status.le (a b : Status) : Prop :=
  a.word &&& b.word = a.word ∧ ∀ f, a.get f &&& b.get f = a.get f

/-- `n` is `round_haz(q)` of R261: the nearest integer, a tie away from zero. -/
def IsRoundHaz (n : Int) (q : ℚ) : Prop := |(n : ℚ) - q| ≤ 1 / 2 ∧ (|(n : ℚ) - q| = 1 / 2 → |q| < |(n : ℚ)|)

/-- `n` is `trunc(q)` of R261: the integer part toward zero. -/
def IsTrunc (n : Int) (q : ℚ) : Prop := (0 ≤ q → n = ⌊q⌋) ∧ (q ≤ 0 → n = ⌈q⌉)

/-- The 27 fields of the physical accessors and their quantities, as R270 lists them. -/
def quantityTable : List (WordField × Quantity) :=
  [(.reading .vout, .vout), (.limit .voutOvFault, .vout), (.limit .voutOvWarn, .vout), (.limit .voutUvWarn, .vout),
   (.limit .voutUvFault, .vout),
   (.reading .vin, .vin), (.limit .vinOvFault, .vin), (.limit .vinOvWarn, .vin), (.limit .vinUvWarn, .vin),
   (.limit .vinUvFault, .vin),
   (.reading .iout, .iout), (.limit .ioutOcFault, .iout), (.limit .ioutOcWarn, .iout), (.limit .ioutUcFault, .iout),
   (.reading .iin, .iin), (.limit .iinOcFault, .iin), (.limit .iinOcWarn, .iin),
   (.reading .pout, .pout), (.limit .poutOpFault, .pout), (.limit .poutOpWarn, .pout),
   (.reading .pin, .pin), (.limit .pinOpWarn, .pin),
   (.reading .temperature1, .temperature), (.limit .otFault, .temperature), (.limit .otWarn, .temperature),
   (.limit .utWarn, .temperature), (.limit .utFault, .temperature)]

/-- REGDEV `d` has the real page `p`, whose record is `pg` (R300). -/
def RealPage (s : State) (d : NodeId) (p : Byte) (c : RegDevCfg) (r : RegDev) (pg : Page) : Prop :=
  s.regdev? d = some (c, r) ∧ p.toNat < c.numPages ∧ r.pg[p.toNat]? = some pg

/-- The page a host operation names does not exist: no REGDEV `d`, or no real page `p` (R300). -/
def NoRealPage (s : State) (d : NodeId) (p : Byte) : Prop :=
  ∀ c r, s.regdev? d = some (c, r) → c.numPages ≤ p.toNat

/-- The answer to a refused host operation: `H_BAD`, `DG_HOST_BAD_ARG`, no other change (R300). -/
def State.refusedHost (s : State) : State := { s with resp := .host .bad (.num 0), diags := s.diags ++ [.hostBadArg] }

/-- The answer `H_OK` with a value. -/
def State.servedHost (s : State) (v : RawValue) : State := { s with resp := .host .ok v }

/-- The device a command access names. -/
def deviceOf : CmdAccess → NodeId
  | .write d _ => d
  | .read d => d

end Sys2Proof.Machine
end

