-- ==== Sys2Proof/Certificates/Slice0/Obligations.lean ====
section
/-! DEFINITION. The statements for the provers. Each says which rule of spec/ it formalises. A statement about an
instruction gives the whole next state, so that its frame is the equation itself. -/

open Sys2Proof Sys2Proof.Machine

/-! ### Encoding, decoding, the step -/

/-- Every instruction, with every operand at every value, is what its encoding decodes to (R60, R61, R64, R66, R68). -/
def Obligations.EncodedInstructionDecodesToItself : Prop :=
  ∀ i : Instr, decode (encode i) = .ok i

/-- No bit of a request word is lost by decoding it (R60, R61, R63). -/
def Obligations.DecodedRequestEncodesBack : Prop :=
  ∀ req : BitVec 11, encode (decodeWire req) = .wire req

/-- Words written out from the tables of R60, R61, R66 and R68 decode to the instruction they stand for. -/
def Obligations.WordsOfTheSpecDecode : Prop :=
  decode (.wire 0b000_1000000_0) = .ok (.startSend 0x40) ∧
  decode (.wire 0b000_1000001_1) = .ok (.startRecv 0x41) ∧
  decode (.wire 0b001_01010101) = .ok (.tx 0x55) ∧
  decode (.wire 0b100_00000000) = .ok (.stop 0) ∧
  decode (.payload 0 [0x40, 0x34, 0x12]) = .ok (.voutOvFaultLimit (.write 0 [0x34, 0x12])) ∧
  decode (.latch 0 0x79) = .ok (.statusWord (.read 0)) ∧
  decode (.payload 0 [0xD0, 0x11]) = .error (.unknownCommand 0xD0) ∧
  decode (.host 2 { HostArgs.zero with page := 0xFF, flags := 0x03FF }) = .ok (.hPageConfig 0 0xFF 0x03FF) ∧
  decode (.host 9 HostArgs.zero) = .error (.reservedHostOp 9)

/-- One step serves the oldest request or host operation that is pending: it runs the decoded instruction at the state
with that request taken and the outputs emptied (R5). -/
def Obligations.StepRunsTheDecodedRequest : Prop :=
  ∀ (s : State) (rq : Request) (rest : List Request) (i : Instr),
    s.configOk = true → s.pending = rq :: rest → decode rq.frame = .ok i →
    step s = exec i { s with pending := rest, resp := .none, diags := [] }

/-- An ill-formed configuration is refused and given no behaviour (R6, D43). The conditions are those of R6: its ranges, unique
ids, one entry a code of `CMD_TABLE`, an entry of class PAGE at any code (log entry 9); that the node records are those of
the topology, in its order, is the model's way of writing it (log entry 13). -/
def Obligations.IllFormedConfigurationIsRefused : Prop :=
  ∀ s : State, s.configOk = false → step s = .refused .illFormedConfiguration

/-- Host operation numbers 7 to 15 answer `H_BAD` with `DG_HOST_BAD_ARG` and change nothing else (R68, R300). So does an
`H_SET_FIELD` whose value is of the wrong shape, a byte string for a numeric field or a number for a string field or the raw
block: the rule says nothing of it, refusing is the model's choice (log entry 10). -/
def Obligations.ReservedOrMisshapenHostOperationsAreRefused : Prop :=
  (∀ (s : State) (op : BitVec 4) (args : HostArgs) (rest : List Request),
    s.configOk = true → s.pending = .host op args :: rest → 7 ≤ op.toNat →
    step s = .next { s with pending := rest, resp := .host .bad (.num 0), diags := [.hostBadArg] }) ∧
  (∀ (s : State) (d : NodeId) (p : Byte),
    (∀ f (v : List Byte), exec (.hSetField d p (.page (.byte f)) (.bytes v)) s = .next s.refusedHost) ∧
    (∀ f (v : List Byte), exec (.hSetField d p (.page (.word f)) (.bytes v)) s = .next s.refusedHost) ∧
    (∀ f (v : DWord), exec (.hSetField d p (.page (.string f)) (.num v)) s = .next s.refusedHost) ∧
    (∀ v : DWord, exec (.hSetField d p (.page .coefficients) (.num v)) s = .next s.refusedHost))

/-- A STOP whose one addressed REGDEV holds a payload in WRITE or READ runs the command the payload decodes to, then
empties the framer and closes the bus (R64, R90, R130, R361). -/
def Obligations.StopRunsTheBufferedCommand : Prop :=
  ∀ (s : State) (d : NodeId) (c : RegDevCfg) (r : RegDev) (i : Instr) (x : Byte),
    s.bus.isOpen = true → s.bus.cur = [d] → s.regdev? d = some (c, r) →
    (r.fr.mode = .write ∨ r.fr.mode = .read) → 0 < r.fr.len → decode (.payload d r.fr.payload) = .ok i →
    ∃ t, exec i s = .next t ∧
      exec (.stop x) s =
        .next { t.setFramer d (Framer.idle s.cfg.bufCap) with bus := BusState.idle, resp := .wire .ack 0 }

/-- A repeated START in RECV direction whose one addressed REGDEV holds a payload in WRITE runs the command the payload
decodes to; the framer goes to READ with its buffer kept (R85, R123). -/
def Obligations.RepeatedStartRunsTheBufferedCommand : Prop :=
  ∀ (s : State) (d : NodeId) (c : RegDevCfg) (r : RegDev) (i : Instr),
    s.bus.isOpen = true → s.bus.cur = [d] → s.regdev? d = some (c, r) →
    r.fr.mode = .write → 0 < r.fr.len → decode (.payload d r.fr.payload) = .ok i →
    ∃ t, exec i s = .next t ∧
      exec (.startRecv s.bus.curAddr) s =
        .next { t.setFramer d { r.fr with mode := .read } with
          bus := { s.bus with dir := .recv }, resp := .wire .ack 0 }

/-- An RX whose one addressed REGDEV is in READ or RECV_ONE runs the read of the latched command and answers its byte;
RECV_ONE goes to DONE, READ stays (R56, R88, R126, R127). -/
def Obligations.RxRunsTheLatchedCommand : Prop :=
  ∀ (s : State) (d : NodeId) (c : RegDevCfg) (r : RegDev) (i : Instr) (x : Byte),
    s.bus.isOpen = true → s.bus.cur = [d] → s.regdev? d = some (c, r) →
    (r.fr.mode = .read ∨ r.fr.mode = .recvOne) → decode (.latch d r.rd.cmd) = .ok i →
    ∃ t b, exec i s = .next t ∧ t.resp = .readCall b ∧
      exec (.rx x) s =
        .next { t.setFramer d { r.fr with mode := if r.fr.mode = .recvOne then .done else .read } with
          resp := .wire .ack b }

/-! ### Reset -/

/-- After `H_RESET` every element has its reset value: the bus idle, every address `ADDR0`, latches and control bytes 0,
framers IDLE and zeroed, the register models as R20 lists them, every page its `PAGE_DEFAULT` with the status fields 0
(R27, R301, R350). It completes in every state. That requests still pending stay is the model's choice (log entry 5). -/
def Obligations.HostResetGivesEveryElementItsResetValue : Prop :=
  ∀ s : State, exec .hReset s = .next
    { s with
      bus := { isOpen := false, cur := [], curAddr := 0, bcast := false, dir := .send }
      nodes := s.nodes.map fun n =>
        { n with
          addr := n.addr0
          dev := match n.dev with
            | .stub c _ => .stub c 0x00
            | .mux _ => .mux 0x00
            | .regdev c _ => .regdev c
              { fr := { mode := .idle, buf := List.replicate s.cfg.bufCap 0x00, len := 0 }
                rd := { page := 0x00, cmd := 0x00, pagesValid := false
                        outBuf := List.replicate s.cfg.bufCap 0x00, outLen := 0, inLen := 0 }
                pg := c.pageDefault.map fun p =>
                  { p with status := { word := 0, vout := 0, iout := 0, input := 0, temperature := 0, cml := 0 } } } }
      resp := .host .ok (.num 0) }

/-- The state after reset meets the invariant. -/
def Obligations.ResetMeetsTheInvariant : Prop := State.reset.inv = true

/-! ### Invariants of every step -/

/-- Every step keeps R105, the widths of 10_state.md and the well-formed configuration. -/
def Obligations.StepKeepsTheInvariant : Prop :=
  ∀ s t : State, s.inv = true → step s = .next t → t.inv = true

/-- From a state that meets the invariant no step faults or is refused: the step function is total (60_exceptions.md). -/
def Obligations.StepIsTotal : Prop :=
  ∀ s : State, s.inv = true → ∃ t, step s = .next t

/-- The configuration is no state: no step changes a parameter (R6). -/
def Obligations.StepKeepsTheConfiguration : Prop :=
  ∀ s t : State, step s = .next t → t.configuration = s.configuration

/-- Only an opening START, STOP and `H_RESET` change the addressed set: under any other instruction `bus.isOpen`,
`bus.cur`, `bus.cur_addr` and `bus.bcast` stay (R11, R12). -/
def Obligations.OnlyOpeningStartStopAndResetChangeTheAddressedSet : Prop :=
  ∀ (i : Instr) (s t : State), exec i s = .next t →
    (∀ x, i ≠ .stop x) → i ≠ .hReset →
    (∀ a, i = .startSend a ∨ i = .startRecv a → s.bus.isOpen = true) →
    t.bus.isOpen = s.bus.isOpen ∧ t.bus.cur = s.bus.cur ∧ t.bus.curAddr = s.bus.curAddr ∧ t.bus.bcast = s.bus.bcast

/-- A wire request reaches addressed slaves only: every node that the transaction does not address, before or after, keeps
its record (R53, R82, R84). -/
def Obligations.WireRequestsReachAddressedNodesOnly : Prop :=
  ∀ (req : BitVec 11) (s t : State), exec (decodeWire req) s = .next t →
    ∀ id, id ∉ s.bus.cur → id ∉ t.bus.cur → t.node? id = s.node? id

/-- The wire port cannot write an address, capability flags, a reading or the raw block, whatever is sent: with default
hooks and the default command table these are the same after every wire request (R310). -/
def Obligations.WirePortCannotWriteHostFields : Prop :=
  ∀ (req : BitVec 11) (s t : State), s.configOk = true → (∀ n ∈ s.nodes, n.dev.standard = true) →
    exec (decodeWire req) s = .next t →
    t.nodes.map (fun n => (n.id, n.addr, n.dev.pages.map fun p => (p.flags, p.readings, p.coefficients))) =
    s.nodes.map (fun n => (n.id, n.addr, n.dev.pages.map fun p => (p.flags, p.readings, p.coefficients)))

/-- Apart from `H_RESET`, no host operation touches the bus, a framer, a register model (selector, latch, staging buffer),
a control byte or a STUB latch (R310, R311). -/
def Obligations.HostPortCannotTouchTheTransaction : Prop :=
  ∀ (op : BitVec 4) (args : HostArgs) (i : Instr) (s t : State),
    s.configOk = true → decode (.host op args) = .ok i → i ≠ .hReset → exec i s = .next t →
    t.bus = s.bus ∧
    t.nodes.map (fun n => (n.id, match n.dev with
      | .stub _ latch => (some latch, none, none)
      | .mux control => (none, some control, none)
      | .regdev _ r => (none, none, some (r.fr, r.rd)))) =
    s.nodes.map (fun n => (n.id, match n.dev with
      | .stub _ latch => (some latch, none, none)
      | .mux control => (none, some control, none)
      | .regdev _ r => (none, none, some (r.fr, r.rd))))

/-! ### The bus engine -/

/-- A START that is turned away changes no state: on an idle bus with no slave that claims the address it answers NACK, on
an open bus to another address BUSY with `DG_BUS_BUSY` (R84, R85, R325). -/
def Obligations.StartThatIsTurnedAwayChangesNothing : Prop :=
  ∀ (s : State) (a : BusAddr),
    (s.bus.isOpen = false → s.addressed a = [] →
      exec (.startSend a) s = .next { s with resp := .wire .nack 0 } ∧
      exec (.startRecv a) s = .next { s with resp := .wire .nack 0 }) ∧
    (s.bus.isOpen = true → a ≠ s.bus.curAddr →
      exec (.startSend a) s = .next { s with resp := .wire .busy 0, diags := s.diags ++ [.busBusy] } ∧
      exec (.startRecv a) s = .next { s with resp := .wire .busy 0, diags := s.diags ++ [.busBusy] })

/-- START on an idle bus that some slave claims: ACK, the transaction is open to the slaves found, every addressed REGDEV
goes to WRITE or to RECV_ONE, and nothing else of any node changes (R84, R121). -/
def Obligations.ClaimedStartOpensTheTransaction : Prop :=
  ∀ (s : State) (a : BusAddr) (dir : Direction), s.inv = true → s.bus.isOpen = false → s.addressed a ≠ [] →
    ∃ t, exec (match dir with | .send => .startSend a | .recv => .startRecv a) s = .next t ∧
      t.bus = { isOpen := true, cur := s.addressed a, curAddr := a, bcast := decide (a = s.cfg.bcastAddr), dir := dir } ∧
      t.cfg = s.cfg ∧ t.pending = s.pending ∧ t.resp = .wire .ack 0 ∧ t.diags = s.diags ∧
      t.nodes = s.nodes.map fun n =>
        { n with dev := match n.dev with
          | .stub c latch => .stub c latch
          | .mux control => .mux control
          | .regdev c r =>
            if n.id ∈ s.addressed a then
              .regdev c { r with fr := { r.fr with mode := match dir with | .send => .write | .recv => .recvOne } }
            else .regdev c r }

/-- The framer's handlers in every mode, for a REGDEV of any transaction: the state after, the diagnostics and the byte.
`rmWrite`, `rmQuick` and `rmReadByte` are the three calls of the register model (R121 to R130). -/
def Obligations.FramerFollowsTheTransitionTable : Prop :=
  ∀ (g : Config) (c : RegDevCfg) (w : Work) (v : Byte),
    let mode := w.dev.fr.mode
    let len := w.dev.fr.len
    let enter := fun (m : FrMode) (x : Work) => { x with dev := { x.dev with fr := { x.dev.fr with mode := m } } }
    let confused := { enter .confused w with diags := w.diags ++ [.frUnexpected] }
    let closed := fun (x : Work) =>
      { x with dev := { x.dev with fr := { mode := .idle, buf := List.replicate g.bufCap 0, len := 0 } } }
    -- START
    (mode = .idle → frEvent g c .startSend w = enter .write w ∧ frEvent g c .startRecv w = enter .recvOne w) ∧
    (mode ≠ .idle → frEvent g c .startSend w = confused) ∧
    (mode ≠ .idle → mode ≠ .write → frEvent g c .startRecv w = confused) ∧
    (mode = .write → len = 0 →
      frEvent g c .startRecv w = { enter .confused w with diags := w.diags ++ [.frEmptyRead] }) ∧
    (mode = .write → len ≠ 0 → frEvent g c .startRecv w = enter .read (rmWrite g c (w.dev.fr.buf.take len) w).1) ∧
    -- a byte sent
    (mode = .write → len < g.bufCap →
      frSend g v w =
        { w with dev := { w.dev with fr := { w.dev.fr with buf := w.dev.fr.buf.set len v, len := len + 1 } } }) ∧
    (mode = .write → g.bufCap ≤ len → frSend g v w = { w with diags := w.diags ++ [.frOverflow] }) ∧
    (mode ≠ .write → frSend g v w = confused) ∧
    -- a byte requested
    (mode = .recvOne → frRecv g c w = (enter .done (rmReadByte g c w).1, (rmReadByte g c w).2)) ∧
    (mode = .read → frRecv g c w = rmReadByte g c w) ∧
    (mode ≠ .recvOne → mode ≠ .read → frRecv g c w = (confused, 0xFF)) ∧
    -- NACK
    (mode = .read → frEvent g c .nack w = enter .done w) ∧
    (mode = .done → frEvent g c .nack w = w) ∧
    (mode ≠ .read → mode ≠ .done → frEvent g c .nack w = confused) ∧
    -- FINISH
    (mode = .write → len = 0 → frEvent g c .finish w = closed (rmQuick g c false w)) ∧
    (mode = .recvOne ∨ mode = .read → len = 0 → frEvent g c .finish w = closed (rmQuick g c true w)) ∧
    (mode = .write ∨ mode = .recvOne ∨ mode = .read → len ≠ 0 →
      frEvent g c .finish w = closed (rmWrite g c (w.dev.fr.buf.take len) w).1) ∧
    (mode = .idle ∨ mode = .done ∨ mode = .confused → frEvent g c .finish w = closed w)

/-- A START_SEND that finds its one addressed REGDEV in any mode but IDLE, and a START_RECV that finds it in RECV_ONE, READ,
DONE or CONFUSED, or in WRITE with an empty buffer, confuse the framer: a diagnostic, the direction, nothing else
(R85, R122, R123). -/
def Obligations.UnexpectedRepeatedStartConfusesTheFramer : Prop :=
  ∀ (s : State) (d : NodeId) (c : RegDevCfg) (r : RegDev),
    s.bus.isOpen = true → s.bus.cur = [d] → s.regdev? d = some (c, r) →
    (r.fr.mode ≠ .idle →
      exec (.startSend s.bus.curAddr) s =
        .next { s.setRegDev d c { r with fr := { r.fr with mode := .confused } } with
          bus := { s.bus with dir := .send }, resp := .wire .ack 0, diags := s.diags ++ [.frUnexpected] }) ∧
    (r.fr.mode ≠ .idle → r.fr.mode ≠ .write →
      exec (.startRecv s.bus.curAddr) s =
        .next { s.setRegDev d c { r with fr := { r.fr with mode := .confused } } with
          bus := { s.bus with dir := .recv }, resp := .wire .ack 0, diags := s.diags ++ [.frUnexpected] }) ∧
    (r.fr.mode = .write → r.fr.len = 0 →
      exec (.startRecv s.bus.curAddr) s =
        .next { s.setRegDev d c { r with fr := { r.fr with mode := .confused } } with
          bus := { s.bus with dir := .recv }, resp := .wire .ack 0, diags := s.diags ++ [.frEmptyRead] })

/-- TX and RX on a closed bus are INVALID, NACK on a closed bus answers ACK, each with `DG_NOT_OPEN`; STOP on a closed bus
answers ACK; none changes state (R87 to R90, R325). -/
def Obligations.RequestsOnAClosedBusChangeNothing : Prop :=
  ∀ (s : State) (v x : Byte), s.bus.isOpen = false →
    exec (.tx v) s = .next { s with resp := .wire .invalid 0x00, diags := s.diags ++ [.notOpen] } ∧
    exec (.rx x) s = .next { s with resp := .wire .invalid 0xFF, diags := s.diags ++ [.notOpen] } ∧
    exec (.nack x) s = .next { s with resp := .wire .ack 0x00, diags := s.diags ++ [.notOpen] } ∧
    exec (.stop x) s = .next { s with resp := .wire .ack 0x00 }

/-- Request kinds 5, 6 and 7 change no state and answer INVALID with `DG_RESERVED_REQ`; the data byte of RX, NACK, STOP
and the reserved kinds is ignored (R63). -/
def Obligations.ReservedRequestsAreInvalid : Prop :=
  ∀ (s : State) (x y : Byte),
    exec (.reserved5 x) s = .next { s with resp := .wire .invalid 0x00, diags := s.diags ++ [.reservedReq] } ∧
    exec (.reserved6 x) s = .next { s with resp := .wire .invalid 0x00, diags := s.diags ++ [.reservedReq] } ∧
    exec (.reserved7 x) s = .next { s with resp := .wire .invalid 0x00, diags := s.diags ++ [.reservedReq] } ∧
    exec (.rx x) s = exec (.rx y) s ∧ exec (.nack x) s = exec (.nack y) s ∧ exec (.stop x) s = exec (.stop y) s

/-- A byte sent to a REGDEV in WRITE is appended while there is room and dropped with `DG_FR_OVERFLOW` when there is none;
in every other mode it is dropped and the framer is confused. The answer is ACK in every case (R87, R124, R125). -/
def Obligations.TxToARegisterDevice : Prop :=
  ∀ (s : State) (d : NodeId) (c : RegDevCfg) (r : RegDev) (v : Byte),
    s.bus.isOpen = true → s.bus.cur = [d] → s.regdev? d = some (c, r) →
    (r.fr.mode = .write → r.fr.len < s.cfg.bufCap →
      exec (.tx v) s =
        .next { s.setRegDev d c { r with fr := { r.fr with buf := r.fr.buf.set r.fr.len v, len := r.fr.len + 1 } } with
          resp := .wire .ack 0 }) ∧
    (r.fr.mode = .write → s.cfg.bufCap ≤ r.fr.len →
      exec (.tx v) s =
        .next { s.setRegDev d c r with resp := .wire .ack 0, diags := s.diags ++ [.frOverflow] }) ∧
    (r.fr.mode ≠ .write →
      exec (.tx v) s =
        .next { s.setRegDev d c { r with fr := { r.fr with mode := .confused } } with
          resp := .wire .ack 0, diags := s.diags ++ [.frUnexpected] })

/-- NACK moves a REGDEV in READ to DONE, changes nothing in DONE, and confuses it in every other mode (R89, R129). -/
def Obligations.NackOfARegisterDevice : Prop :=
  ∀ (s : State) (d : NodeId) (c : RegDevCfg) (r : RegDev) (x : Byte),
    s.bus.isOpen = true → s.bus.cur = [d] → s.regdev? d = some (c, r) →
    (r.fr.mode = .read →
      exec (.nack x) s =
        .next { s.setRegDev d c { r with fr := { r.fr with mode := .done } } with resp := .wire .ack 0 }) ∧
    (r.fr.mode = .done → exec (.nack x) s = .next { s.setRegDev d c r with resp := .wire .ack 0 }) ∧
    (r.fr.mode ≠ .read → r.fr.mode ≠ .done →
      exec (.nack x) s =
        .next { s.setRegDev d c { r with fr := { r.fr with mode := .confused } } with
          resp := .wire .ack 0, diags := s.diags ++ [.frUnexpected] })

/-- A byte requested of a REGDEV in IDLE, WRITE, DONE or CONFUSED is 0xFF, with `DG_FR_UNEXPECTED` and the framer confused;
nothing else changes (R88, R128). -/
def Obligations.UnexpectedRxConfusesTheFramer : Prop :=
  ∀ (s : State) (d : NodeId) (c : RegDevCfg) (r : RegDev) (x : Byte),
    s.bus.isOpen = true → s.bus.cur = [d] → s.regdev? d = some (c, r) →
    r.fr.mode ≠ .recvOne → r.fr.mode ≠ .read →
    exec (.rx x) s =
      .next { s.setRegDev d c { r with fr := { r.fr with mode := .confused } } with
        resp := .wire .ack 0xFF, diags := s.diags ++ [.frUnexpected] }

/-- STOP with an empty buffer in WRITE or RECV_ONE is the quick command (no effect with the default hook), and in IDLE,
DONE and CONFUSED calls nothing: the framer goes to IDLE with a zeroed buffer and the bus closes (R90, R130, R169). -/
def Obligations.StopWithoutAWriteCallOnlyCloses : Prop :=
  ∀ (s : State) (d : NodeId) (c : RegDevCfg) (r : RegDev) (x : Byte),
    s.bus.isOpen = true → s.bus.cur = [d] → s.regdev? d = some (c, r) → c.hookQuick = none →
    (r.fr.len = 0 ∨ r.fr.mode = .idle ∨ r.fr.mode = .done ∨ r.fr.mode = .confused) →
    exec (.stop x) s =
      .next { s.setRegDev d c { r with fr := { mode := .idle, buf := List.replicate s.cfg.bufCap 0, len := 0 } } with
        bus := BusState.idle, resp := .wire .ack 0 }

/-- CONFUSED is sticky and harmless: under every wire request but STOP a confused REGDEV keeps its whole state (R136,
R326). -/
def Obligations.ConfusedDeviceIsFrozenUntilStop : Prop :=
  ∀ (req : BitVec 11) (s t : State) (d : NodeId) (c : RegDevCfg) (r : RegDev),
    (∀ x, decodeWire req ≠ .stop x) → s.regdev? d = some (c, r) → r.fr.mode = .confused →
    exec (decodeWire req) s = .next t → t.regdev? d = some (c, r)

/-- A START on an idle bus addresses nodes reachable through enabled channels only, and of those only such as claim the
address. A broadcast START addresses all of them, in scan order. Any other START addresses what `firstFoundOn` gives: the
search of a bus, the root or a child, ends at the first node that gives something, and a MUX searches every enabled
channel, also when it claims the address itself or an earlier channel gave something; so it addresses some slave as soon as
one claims, and on a bus without a MUX exactly the first (R41, R81, R82, R83, R84). -/
def Obligations.ScanAddressesClaimingReachableNodes : Prop :=
  ∀ (s : State) (a : BusAddr),
    (a = s.cfg.bcastAddr → s.addressed a = s.reachable.filter fun id => s.claims id a true) ∧
    (a ≠ s.cfg.bcastAddr →
      s.addressed a = firstFoundOn (fun id => s.claims id a false) s.muxControl s.cfg.root ∧
      (s.addressed a).Sublist (s.reachable.filter fun id => s.claims id a false) ∧
      (s.addressed a = [] ↔ (s.reachable.filter fun id => s.claims id a false) = []) ∧
      (s.cfg.root.members.all (fun m => !m.2) = true →
        s.addressed a = (s.reachable.find? fun id => s.claims id a false).toList))

/-- On an open bus every addressed slave of every kind is served by its own handler, once, from its own state and
independently of the others, the diagnostics in the order of `bus.cur`, and no other node changes; RX answers the AND of
their bytes. While only STUBs and MUXes are addressed: TX stores its byte in every addressed MUX and every addressed STUB
with RECEIVE, RX answers the AND of what they supply and changes no node, a repeated START, NACK and STOP change no node
(R53, R85, R87 to R90, R95, R100, R101, R102, R371). -/
def Obligations.AddressedSlavesAreServedInOrder : Prop :=
  ∀ (s : State) (v x : Byte), s.inv = true → s.bus.isOpen = true →
    (exec (.tx v) s = .next { s.servedEach (Device.givenByte s.cfg v) with resp := .wire .ack 0 } ∧
    exec (.rx x) s = .next { s.servedEach (fun d => (d.askedByte s.cfg).1) with
      resp := .wire .ack ((s.bus.cur.map fun id => ((s.node? id).map fun n => (n.dev.askedByte s.cfg).2).getD 0xFF).foldl
        (· &&& ·) 0xFF) } ∧
    exec (.nack x) s = .next { s.servedEach (Device.notified s.cfg .nack) with resp := .wire .ack 0 } ∧
    exec (.startSend s.bus.curAddr) s = .next { s.servedEach (Device.notified s.cfg .startSend) with
      bus := { s.bus with dir := .send }, resp := .wire .ack 0 } ∧
    exec (.startRecv s.bus.curAddr) s = .next { s.servedEach (Device.notified s.cfg .startRecv) with
      bus := { s.bus with dir := .recv }, resp := .wire .ack 0 } ∧
    exec (.stop x) s = .next { s.servedEach (Device.notified s.cfg .finish) with
      bus := BusState.idle, resp := .wire .ack 0 }) ∧
    ((∀ n ∈ s.nodes, n.id ∈ s.bus.cur → n.dev.isRegDev = false) →
      exec (.tx v) s = .next { s with
        nodes := s.nodes.map fun n => if n.id ∈ s.bus.cur then { n with dev := n.dev.accepting v } else n
        resp := .wire .ack 0 } ∧
      exec (.rx x) s = .next { s with
        resp := .wire .ack (((s.nodes.filter fun n => decide (n.id ∈ s.bus.cur)).map fun n => n.dev.suppliedByte).foldl
          (· &&& ·) 0xFF) } ∧
      exec (.nack x) s = .next { s with resp := .wire .ack 0 } ∧
      exec (.startSend s.bus.curAddr) s =
        .next { s with bus := { s.bus with dir := .send }, resp := .wire .ack 0 } ∧
      exec (.startRecv s.bus.curAddr) s =
        .next { s with bus := { s.bus with dir := .recv }, resp := .wire .ack 0 } ∧
      exec (.stop x) s = .next { s with bus := BusState.idle, resp := .wire .ack 0 })

/-! ### Command writes -/

/-- A write of a byte command with data, on an exposed page: the field takes the first data byte, a length other than 1
warns only, the evaluator runs, and nothing else changes (R151, R156, R157 class RWB, R158, R165). -/
def Obligations.ByteCommandWriteStoresTheByte : Prop :=
  ∀ x ∈ byteCommands, ∀ (s : State) (d : NodeId) (c : RegDevCfg) (r : RegDev) (idx : Nat) (pg : Page) (v : Byte)
    (rest : List Byte),
    Selected s d c r idx pg → Exposed c x.entry pg → Ordinary s x.entry.code →
    exec (x.make (.write d (v :: rest))) s =
      .next (s.wroteCall d c (r.written x.entry.code (r.pg.modify idx fun p => p.setByte x.field v))
        (lengthWarning (v :: rest) 1) true)

/-- A write of a word command with data, on an exposed page: the field takes the little-endian word of the first two data
bytes, a missing high byte being 0; a length other than 2 warns only (R46, R151, R156, R157 class RWW, R158, R165). -/
def Obligations.WordCommandWriteStoresTheWord : Prop :=
  ∀ x ∈ wordCommands, ∀ (s : State) (d : NodeId) (c : RegDevCfg) (r : RegDev) (idx : Nat) (pg : Page) (data : List Byte),
    Selected s d c r idx pg → Exposed c x.entry pg → Ordinary s x.entry.code → data ≠ [] →
    exec (x.make (.write d data)) s =
      .next (s.wroteCall d c (r.written x.entry.code (r.pg.modify idx fun p => p.setWord x.field (dataWord data)))
        (lengthWarning data 2) true)

/-- A byte-wide status write assigns the whole status word: its high byte becomes 0 before the evaluator runs (R157 class
SB, R207, R369). -/
def Obligations.StatusByteWriteAssignsTheWholeWord : Prop :=
  ∀ (s : State) (d : NodeId) (c : RegDevCfg) (r : RegDev) (idx : Nat) (pg : Page) (v : Byte) (rest : List Byte),
    Selected s d c r idx pg → Exposed c entryStatusByte pg → Ordinary s entryStatusByte.code →
    exec (.statusByte (.write d (v :: rest))) s =
      .next (s.wroteCall d c
        (r.written 0x78 (r.pg.modify idx fun p => { p with status := { p.status with word := v.setWidth 16 } }))
        (lengthWarning (v :: rest) 1) true)

/-- A block write whose declared length is the actual one stores the characters; any other fails with
`DG_RM_BLOCK_MALFORMED` and leaves the field. The evaluator runs in both cases (R157 class STR, R158, R167). -/
def Obligations.StringCommandWrite : Prop :=
  ∀ x ∈ stringCommands, ∀ (s : State) (d : NodeId) (c : RegDevCfg) (r : RegDev) (idx : Nat) (pg : Page) (n : Byte)
    (chars : List Byte),
    Selected s d c r idx pg → Exposed c x.entry pg → Ordinary s x.entry.code →
    (n.toNat = chars.length →
      exec (x.make (.write d (n :: chars))) s =
        .next (s.wroteCall d c (r.written x.entry.code (r.pg.modify idx fun p => p.setString x.field chars)) [] true)) ∧
    (n.toNat ≠ chars.length →
      exec (x.make (.write d (n :: chars))) s =
        .next (s.wroteCall d c (r.written x.entry.code r.pg) [.rmBlockMalformed] false))

/-- CLEAR_FAULTS with data on a real page clears the six status fields of every page, ignores the data and runs the
evaluator. A read of it answers 0xFF with `DG_RM_READ_WO` and no fault (R151, R157 class WO0, R162, R203, R370). -/
def Obligations.ClearFaultsWithDataAndItsRead : Prop :=
  ∀ (s : State) (d : NodeId) (c : RegDevCfg) (r : RegDev) (idx : Nat) (pg : Page),
    Selected s d c r idx pg → Exposed c entryClearFaults pg →
    (∀ data, data ≠ [] → s.cfg.cmdClearFaults = 0x03 → s.cfg.cmdPage ≠ 0x03 →
      exec (.clearFaults (.write d data)) s =
        .next (s.wroteCall d c
          (r.written 0x03 (r.pg.map fun p =>
            { p with status := { word := 0, vout := 0, iout := 0, input := 0, temperature := 0, cml := 0 } })) [] true)) ∧
    (ReadDue r → exec (.clearFaults (.read d)) s = .next (s.readCalled d c r [.rmReadWo] 0xFF))

/-- A page select stores any of the 256 values unchecked, whatever page is selected, without dispatch and without the
evaluator (R152, R200). Where `CMD_PAGE` is another code and the table has PAGE at 0x00 all the same, the write is
dispatched and returns OK, and the selector it leaves is a free value: the rules state none, the model's choice (log
entry 9). -/
def Obligations.PageSelectStoresAnyValue : Prop :=
  ∀ (s : State) (d : NodeId) (c : RegDevCfg) (r : RegDev) (v : Byte) (rest : List Byte),
    (s.regdev? d = some (c, r) → s.cfg.cmdPage = 0x00 → s.cfg.cmdClearFaults ≠ 0x00 →
      exec (.page (.write d (v :: rest))) s =
        .next (s.wroteCall d c
          { r with rd := { r.rd with page := v, pagesValid := true, cmd := 0x00, inLen := rest.length + 2 } }
          (lengthWarning (v :: rest) 1) true)) ∧
    (∀ (idx : Nat) (pg : Page), Selected s d c r idx pg → Exposed c entryPage pg → Ordinary s 0x00 →
      ∃ page, exec (.page (.write d (v :: rest))) s =
        .next (s.wroteCall d c
          { r.written 0x00 r.pg with rd := { r.rd with page := page, pagesValid := true, cmd := 0x00, inLen := 0 } } [] true))

/-- A write, with data, of a read-only command raises the communication/logic fault on the page, `status_word | 0x0002` and
`status_cml | 0x40`; the field is unchanged, the write returns OK and the evaluator runs (R157, R322). -/
def Obligations.ReadOnlyCommandWriteRaisesTheFault : Prop :=
  ∀ x ∈ readOnlyCommands, ∀ (s : State) (d : NodeId) (c : RegDevCfg) (r : RegDev) (idx : Nat) (pg : Page)
    (data : List Byte),
    Selected s d c r idx pg → Exposed c x.entry pg → Ordinary s x.entry.code → data ≠ [] →
    exec (x.make (.write d data)) s =
      .next (s.wroteCall d c
        (r.written x.entry.code (r.pg.modify idx fun p =>
          { p with status := { p.status with word := p.status.word ||| 0x0002, cml := p.status.cml ||| 0x40 } }))
        [.rmWriteRo] true)

/-- A payload that is a command code alone latches the code, allocates the pages and returns OK, for each of the 48 codes
and whatever the page selector holds; for CLEAR_FAULTS the six status fields of every page become 0; the evaluator does
not run (R150, R151, R370). -/
def Obligations.CommandOnlyWriteLatchesTheCode : Prop :=
  ∀ row ∈ commandRows, ∀ (s : State) (d : NodeId) (c : RegDevCfg) (r : RegDev), s.regdev? d = some (c, r) →
    exec (row.make (.write d [])) s =
      .next (s.wroteCall d c
        { r with
          rd := { r.rd with pagesValid := true, cmd := row.code, inLen := 1 }
          pg := if row.code = s.cfg.cmdClearFaults then
              r.pg.map fun p =>
                { p with status := { word := 0, vout := 0, iout := 0, input := 0, temperature := 0, cml := 0 } }
            else r.pg } [] true)

/-- A gated command on a page without its flag goes to the hook. With the default hook a write stores nothing (the
evaluator still runs), and a read stages nothing and answers 0xFF with `DG_RM_EMPTY_POP` (R157, R158, R162, R174). -/
def Obligations.GatedCommandWithoutItsFlagDoesNothing : Prop :=
  ∀ x ∈ gatedCommands, ∀ (s : State) (d : NodeId) (c : RegDevCfg) (r : RegDev) (idx : Nat) (pg : Page) (data : List Byte),
    Selected s d c r idx pg → GatedOff c x.entry pg →
    (c.hookWrite = none → Ordinary s x.entry.code → data ≠ [] →
      exec (x.make (.write d data)) s = .next (s.wroteCall d c (r.written x.entry.code r.pg) [] true)) ∧
    (c.hookRead = none → ReadDue r →
      exec (x.make (.read d)) s = .next (s.readCalled d c r [.rmEmptyPop] 0xFF))

/-- A command code that the table does not have is no violation: with the default hooks a STOP that delivers it with data
latches it and runs the evaluator, and an RX of it in READ answers 0xFF (R66, R157, R158, R162, R250). -/
def Obligations.UnlistedCommandCodeIsNoViolation : Prop :=
  ∀ (s : State) (d : NodeId) (c : RegDevCfg) (r : RegDev) (idx : Nat) (pg : Page) (x : Byte),
    Selected s d c r idx pg → s.bus.isOpen = true → s.bus.cur = [d] → s.configOk = true →
    (∀ code data, c.hookWrite = none → r.fr.mode = .write → r.fr.payload = code :: data → data ≠ [] →
      Ordinary s code → tableEntry c.cmdTable code = none →
      exec (.stop x) s =
        .next { s.setRegDev d c { r.written code r.pg with fr := Framer.idle s.cfg.bufCap } with
          bus := BusState.idle, resp := .wire .ack 0 }) ∧
    (c.hookRead = none → r.fr.mode = .read → ReadDue r → tableEntry c.cmdTable r.rd.cmd = none →
      exec (.rx x) s = .next { s with resp := .wire .ack 0xFF, diags := s.diags ++ [.rmEmptyPop] })

/-- With the all-pages pseudo-index selected, a write with data serves every real page in ascending order, the evaluator
after each, and restores the pseudo-index, for the word, byte, status-byte, string and read-only commands, for CLEAR_FAULTS
with data and for gated commands on pages without their flag (default hook). Each page ends as the change of that page,
evaluated; for a limit the page is else changed in its status only. For each of the 48 codes but the page select and
CLEAR_FAULTS, on pages of any flags: the write is that of page 0 alone, then of page 1 alone, and so on, and a failure on
one page stops none (R54, R154, R156, R157, R158, R324). -/
def Obligations.AllPagesWriteReachesEveryPage : Prop :=
  (∀ (n i : Nat) (f : Page → Page) (pages : List Page) (pg : Page), i < n → pages[i]? = some pg →
    (fannedOut n f pages)[i]? = some (f (if i = 0 then pg else pg.evaluateIfOn)).evaluateIfOn ∧
    (∀ (l : LimitField) (v : Word), f = (fun p => p.setWord (.limit l) v) →
      ∃ st : Status, (fannedOut n f pages)[i]? = some { pg.setWord (.limit l) v with status := st })) ∧
  (∀ (s : State) (d : NodeId) (c : RegDevCfg) (r : RegDev), AllSelected s d c r →
    (∀ x ∈ wordCommands, ∀ data, (∀ pg ∈ r.pg, Exposed c x.entry pg) → Ordinary s x.entry.code → data ≠ [] →
      exec (x.make (.write d data)) s =
        .next (s.wroteAll d c r x.entry.code data r.pg (fun p => p.setWord x.field (dataWord data))
          (lengthWarning data 2))) ∧
    (∀ x ∈ byteCommands, ∀ v rest, (∀ pg ∈ r.pg, Exposed c x.entry pg) → Ordinary s x.entry.code →
      exec (x.make (.write d (v :: rest))) s =
        .next (s.wroteAll d c r x.entry.code (v :: rest) r.pg (fun p => p.setByte x.field v)
          (lengthWarning (v :: rest) 1))) ∧
    (∀ v rest, (∀ pg ∈ r.pg, Exposed c entryStatusByte pg) → Ordinary s 0x78 →
      exec (.statusByte (.write d (v :: rest))) s =
        .next (s.wroteAll d c r 0x78 (v :: rest) r.pg
          (fun p => { p with status := { p.status with word := v.setWidth 16 } }) (lengthWarning (v :: rest) 1))) ∧
    (∀ x ∈ stringCommands, ∀ n chars, (∀ pg ∈ r.pg, Exposed c x.entry pg) → Ordinary s x.entry.code →
      exec (x.make (.write d (n :: chars))) s =
        .next (if n.toNat = chars.length then
            s.wroteAll d c r x.entry.code (n :: chars) r.pg (fun p => p.setString x.field chars) []
          else s.wroteAll d c r x.entry.code (n :: chars) r.pg id [.rmBlockMalformed])) ∧
    (∀ x ∈ readOnlyCommands, ∀ data, (∀ pg ∈ r.pg, Exposed c x.entry pg) → Ordinary s x.entry.code → data ≠ [] →
      exec (x.make (.write d data)) s =
        .next (s.wroteAll d c r x.entry.code data r.pg Page.raiseCml [.rmWriteRo])) ∧
    (∀ data, (∀ pg ∈ r.pg, Exposed c entryClearFaults pg) → s.cfg.cmdClearFaults = 0x03 → s.cfg.cmdPage ≠ 0x03 → data ≠ [] →
      exec (.clearFaults (.write d data)) s =
        .next (s.wroteAll d c r 0x03 data (r.pg.map Page.clearStatus) id [])) ∧
    (∀ x ∈ gatedCommands, ∀ data, (∀ pg ∈ r.pg, GatedOff c x.entry pg) → c.hookWrite = none → Ordinary s x.entry.code →
      data ≠ [] →
      exec (x.make (.write d data)) s = .next (s.wroteAll d c r x.entry.code data r.pg id [])) ∧
    (∀ row ∈ commandRows, ∀ data, c.hookWrite = none → Ordinary s row.code → data ≠ [] → 1 ≤ c.numPages →
      ∃ run : Nat → State, run 0 = s ∧
        (∀ i, i < c.numPages →
          exec (row.make (.write d data)) ((run i).withSelector d (BitVec.ofNat 8 i)) = .next (run (i + 1))) ∧
        exec (row.make (.write d data)) s =
          .next { (run c.numPages).withSelector d 0xFF with resp := .writeCall true }))

/-- An out-of-range page selector: a write with data fails and a dispatched read answers 0xFF, each with `DG_RM_BAD_PAGE`,
the selector reset to 0 and the fault raised on page 0; nothing is dispatched and the evaluator does not run. This holds
for each of the 48 codes but the page select (R155, R161, R324). -/
def Obligations.BadPageResetsTheSelector : Prop :=
  ∀ row ∈ commandRows, ∀ (s : State) (d : NodeId) (c : RegDevCfg) (r : RegDev) (data : List Byte),
    s.regdev? d = some (c, r) → r.rd.page ≠ allPages → c.numPages ≤ r.rd.page.toNat →
    (row.code ≠ s.cfg.cmdPage → data ≠ [] →
      exec (row.make (.write d data)) s =
        .next (s.wroteCall d c
          { r with
            rd := { r.rd with page := 0, pagesValid := true, cmd := row.code, inLen := data.length + 1 }
            pg := (if row.code = s.cfg.cmdClearFaults then r.pg.map Page.clearStatus else r.pg).modify 0 Page.raiseCml }
          [.rmBadPage] false)) ∧
    (ReadDue r →
      exec (row.make (.read d)) s =
        .next (s.readCalled d c { r with rd := { r.rd with page := 0 }, pg := r.pg.modify 0 Page.raiseCml }
          [.rmBadPage] 0xFF))

/-- A command access whose operand names no REGDEV is a fault, for each of the 48 codes. The model's own stop (log entry 7):
no request of either port makes such an access (R120). -/
def Obligations.AccessToNoRegisterDeviceFaults : Prop :=
  ∀ row ∈ commandRows, ∀ (s : State) (a : CmdAccess), s.regdev? (deviceOf a) = none →
    exec (row.make a) s = .fault .noRegDev

/-! ### Command reads -/

/-- A dispatched read of a byte command, of STATUS_BYTE (the low byte of the status word), of CAPABILITY and of PAGE (the
selector) on a real page answers that byte and leaves nothing staged (R160, R162, R174, R200, R204, R207). -/
def Obligations.ByteReadsAnswerTheByte : Prop :=
  ∀ (s : State) (d : NodeId) (c : RegDevCfg) (r : RegDev) (idx : Nat) (pg : Page),
    Selected s d c r idx pg → ReadDue r → 3 ≤ s.cfg.bufCap →
    (∀ x ∈ byteCommands, Exposed c x.entry pg →
      exec (x.make (.read d)) s =
        .next (s.readCalled d c (r.served [pg.getByte x.field]) [] (pg.getByte x.field))) ∧
    (Exposed c entryStatusByte pg →
      exec (.statusByte (.read d)) s =
        .next (s.readCalled d c (r.served [pg.status.word.extractLsb' 0 8]) [] (pg.status.word.extractLsb' 0 8))) ∧
    (Exposed c entryCapability pg →
      exec (.capability (.read d)) s = .next (s.readCalled d c (r.served [c.capability]) [] c.capability)) ∧
    (Exposed c entryPage pg →
      exec (.page (.read d)) s = .next (s.readCalled d c (r.served [r.rd.page]) [] r.rd.page))

/-- A dispatched read of a word command or a live reading on a real page answers the low byte and leaves the high byte
staged (R46, R160, R162, R171, R174). -/
def Obligations.WordReadsAnswerTheLowByteFirst : Prop :=
  ∀ (s : State) (d : NodeId) (c : RegDevCfg) (r : RegDev) (idx : Nat) (pg : Page),
    Selected s d c r idx pg → ReadDue r → 3 ≤ s.cfg.bufCap →
    (∀ x ∈ wordCommands, Exposed c x.entry pg →
      exec (x.make (.read d)) s =
        .next (s.readCalled d c (r.served (wordBytes (pg.getWord x.field))) []
          ((pg.getWord x.field).extractLsb' 0 8))) ∧
    (∀ x ∈ readingCommands, Exposed c x.entry pg →
      exec (x.make (.read d)) s =
        .next (s.readCalled d c (r.served (wordBytes (pg.readings.get x.field))) []
          ((pg.readings.get x.field).extractLsb' 0 8)))

/-- A dispatched read of a string, of IC_DEVICE_ID or of COEFFICIENTS on a real page stages the block, a string with its
length byte first, and answers its first byte; what does not fit the staging buffer is dropped with
`DG_RM_STAGE_OVERFLOW` (R47, R162, R170, R172, R174, R206, R247). Two corners of it are read from the rules by inference: the length byte modulo 256
(`BUF_CAP` above 257, log entry 11) and COEFFICIENTS truncated when `BUF_CAP` is 3 or 4 (log entry 15). -/
def Obligations.BlockReadsAnswerTheFirstByte : Prop :=
  ∀ (s : State) (d : NodeId) (c : RegDevCfg) (r : RegDev) (idx : Nat) (pg : Page),
    Selected s d c r idx pg → ReadDue r → 3 ≤ s.cfg.bufCap →
    (∀ x ∈ stringCommands, Exposed c x.entry pg → (pg.getString x.field).length + 1 ≤ s.cfg.bufCap →
      exec (x.make (.read d)) s =
        .next (s.readCalled d c
          (r.served (BitVec.ofNat 8 (pg.getString x.field).length :: pg.getString x.field)) []
          (BitVec.ofNat 8 (pg.getString x.field).length))) ∧
    (Exposed c entryIcDeviceId pg → c.icDeviceId.length + 1 ≤ s.cfg.bufCap →
      exec (.icDeviceId (.read d)) s =
        .next (s.readCalled d c (r.served (BitVec.ofNat 8 c.icDeviceId.length :: c.icDeviceId)) []
          (BitVec.ofNat 8 c.icDeviceId.length))) ∧
    (∀ b rest, pg.coefficients = b :: rest → Exposed c entryCoefficients pg →
      exec (.coefficients (.read d)) s =
        .next (s.readCalled d c (r.served ((b :: rest).take s.cfg.bufCap))
          (if s.cfg.bufCap < (b :: rest).length then [.rmStageOverflow] else []) b))

/-- A dispatched read with the all-pages pseudo-index selected raises the fault on page 0 with `DG_RM_ALL_PAGES_READ` and
answers page 0's data, the fault included, for every class of command; PAGE answers the selector 0xFF, CLEAR_FAULTS and
(default hook) a gated command without its flag 0xFF with their diagnostic. The selector stays 0xFF (R161, R162, R200).
The truncation of COEFFICIENTS and a length above 255 are log entries 15 and 11. -/
def Obligations.AllPagesReadAnswersPageZero : Prop :=
  ∀ (s : State) (d : NodeId) (c : RegDevCfg) (r : RegDev) (pg : Page),
    s.regdev? d = some (c, r) → r.rd.page = allPages → r.pg[0]? = some pg → ReadDue r → 3 ≤ s.cfg.bufCap →
    (∀ x ∈ byteCommands, Exposed c x.entry pg →
      exec (x.make (.read d)) s =
        .next (s.readCalled d c (r.faulted.served [pg.raiseCml.getByte x.field])
          [.rmAllPagesRead] (pg.raiseCml.getByte x.field))) ∧
    (∀ x ∈ wordCommands, Exposed c x.entry pg →
      exec (x.make (.read d)) s =
        .next (s.readCalled d c (r.faulted.served (wordBytes (pg.raiseCml.getWord x.field)))
          [.rmAllPagesRead] ((pg.raiseCml.getWord x.field).extractLsb' 0 8))) ∧
    (∀ x ∈ readingCommands, Exposed c x.entry pg →
      exec (x.make (.read d)) s =
        .next (s.readCalled d c (r.faulted.served (wordBytes (pg.readings.get x.field)))
          [.rmAllPagesRead] ((pg.readings.get x.field).extractLsb' 0 8))) ∧
    (Exposed c entryStatusByte pg →
      exec (.statusByte (.read d)) s =
        .next (s.readCalled d c (r.faulted.served [pg.raiseCml.status.word.extractLsb' 0 8])
          [.rmAllPagesRead] (pg.raiseCml.status.word.extractLsb' 0 8))) ∧
    (Exposed c entryCapability pg →
      exec (.capability (.read d)) s =
        .next (s.readCalled d c (r.faulted.served [c.capability]) [.rmAllPagesRead] c.capability)) ∧
    (Exposed c entryPage pg →
      exec (.page (.read d)) s = .next (s.readCalled d c (r.faulted.served [0xFF]) [.rmAllPagesRead] 0xFF)) ∧
    (∀ x ∈ stringCommands, Exposed c x.entry pg → (pg.getString x.field).length + 1 ≤ s.cfg.bufCap →
      exec (x.make (.read d)) s =
        .next (s.readCalled d c
          (r.faulted.served (BitVec.ofNat 8 (pg.getString x.field).length :: pg.getString x.field))
          [.rmAllPagesRead] (BitVec.ofNat 8 (pg.getString x.field).length))) ∧
    (Exposed c entryIcDeviceId pg → c.icDeviceId.length + 1 ≤ s.cfg.bufCap →
      exec (.icDeviceId (.read d)) s =
        .next (s.readCalled d c (r.faulted.served (BitVec.ofNat 8 c.icDeviceId.length :: c.icDeviceId))
          [.rmAllPagesRead] (BitVec.ofNat 8 c.icDeviceId.length))) ∧
    (∀ b rest, pg.coefficients = b :: rest → Exposed c entryCoefficients pg →
      exec (.coefficients (.read d)) s =
        .next (s.readCalled d c (r.faulted.served ((b :: rest).take s.cfg.bufCap))
          (.rmAllPagesRead :: if s.cfg.bufCap < (b :: rest).length then [.rmStageOverflow] else []) b)) ∧
    (Exposed c entryClearFaults pg →
      exec (.clearFaults (.read d)) s = .next (s.readCalled d c r.faulted [.rmAllPagesRead, .rmReadWo] 0xFF)) ∧
    (∀ x ∈ gatedCommands, GatedOff c x.entry pg → c.hookRead = none →
      exec (x.make (.read d)) s = .next (s.readCalled d c r.faulted [.rmAllPagesRead, .rmEmptyPop] 0xFF))

/-- A byte read of any of the 48 commands serves a staged byte before anything else, the highest occupied slot, without any
check; with nothing staged and no write call since reset it answers 0xFF with `DG_RM_UNALLOCATED` (R160, R174, R362,
R368). -/
def Obligations.StagedBytesAreServedFirst : Prop :=
  ∀ row ∈ commandRows, ∀ (s : State) (d : NodeId) (c : RegDevCfg) (r : RegDev), s.regdev? d = some (c, r) →
    (∀ n b, r.rd.outLen = n + 1 → r.rd.outBuf[n]? = some b →
      exec (row.make (.read d)) s =
        .next (s.readCalled d c { r with rd := { r.rd with outLen := n } } [] b)) ∧
    (r.rd.outLen = 0 → r.rd.pagesValid = false →
      exec (row.make (.read d)) s = .next (s.readCalled d c r [.rmUnallocated] 0xFF))

/-- What is staged leaves the staging buffer in wire order: the bytes of a value popped one by one are the bytes staged
(R45, R170, R174). -/
def Obligations.StagedBytesLeaveInWireOrder : Prop :=
  ∀ (cap : Nat) (bytes : List Byte) (w : Work),
    popAll (min bytes.length cap) (stageBytes cap bytes w) = bytes.take cap

/-- A byte request never clears a status bit and never changes any other page field; with default hooks (R25, R52). -/
def Obligations.ByteRequestNeverClearsStatus : Prop :=
  ∀ (s t : State) (x : Byte), s.configOk = true → (∀ n ∈ s.nodes, n.dev.defaultHooks = true) →
    exec (.rx x) s = .next t →
    List.Forall₂ (fun n n' => n'.id = n.id ∧
      List.Forall₂ (fun (p p' : Page) => { p' with status := p.status } = p ∧ p.status.le p'.status)
        n.dev.pages n'.dev.pages) s.nodes t.nodes

/-! ### The fault evaluator -/

/-- On a powered-on page the evaluator sets, and keeps, exactly the status bits of the 20 comparisons: strict, on the raw
values as unsigned numbers; `status_cml` and every other bit stay, and a page that is off stays as it is (R281, R282,
R284). -/
def Obligations.EvaluatorSetsTheTabledBits : Prop :=
  ∀ p : Page,
    let L := p.limits
    let R := p.readings
    let above := fun (x l : Word) => decide (l.toNat < x.toNat)
    let below := fun (x l : Word) => decide (x.toNat < l.toNat)
    let bits := fun (b7 b6 b5 b4 b2 b1 b0 : Bool) =>
      (BitVec.ofBool b7 ++ BitVec.ofBool b6 ++ BitVec.ofBool b5 ++ BitVec.ofBool b4 ++ BitVec.ofBool false ++
        BitVec.ofBool b2 ++ BitVec.ofBool b1 ++ BitVec.ofBool b0 : BitVec 8)
    let vout := bits (above R.vout L.voutOvFault) (above R.vout L.voutOvWarn) (below R.vout L.voutUvWarn)
      (below R.vout L.voutUvFault) false false false
    let iout := bits (above R.iout L.ioutOcFault) false (above R.iout L.ioutOcWarn) (below R.iout L.ioutUcFault)
      false (above R.pout L.poutOpFault) (above R.pout L.poutOpWarn)
    let input := bits (above R.vin L.vinOvFault) (above R.vin L.vinOvWarn) (below R.vin L.vinUvWarn)
      (below R.vin L.vinUvFault) (above R.iin L.iinOcFault) (above R.iin L.iinOcWarn) (above R.pin L.pinOpWarn)
    let temp := bits (above R.temperature1 L.otFault) (above R.temperature1 L.otWarn) (below R.temperature1 L.utWarn)
      (below R.temperature1 L.utFault) false false false
    (p.control.operation.getLsbD 7 = false → p.evaluateIfOn = p) ∧
    (p.control.operation.getLsbD 7 = true → p.evaluateIfOn =
      { p with status :=
        { p.status with
          word := p.status.word ||| (if vout = 0 then 0 else 0x8000) ||| (if iout = 0 then 0 else 0x4000) |||
            (if input = 0 then 0 else 0x2000) ||| (if temp = 0 then 0 else 0x0004)
          vout := p.status.vout ||| vout
          iout := p.status.iout ||| iout
          input := p.status.input ||| input
          temperature := p.status.temperature ||| temp } })

/-- The evaluator is sticky and idempotent: on every page it writes the status family only and clears no bit of it, and a
second run changes nothing (R283, R284). -/
def Obligations.EvaluatorIsStickyAndIdempotent : Prop :=
  ∀ pages : List Page,
    evaluatePages (evaluatePages pages) = evaluatePages pages ∧
    List.Forall₂ (fun (p p' : Page) => { p' with status := p.status } = p ∧ p.status.le p'.status)
      pages (evaluatePages pages)

/-! ### The numeric codec -/

/-- The direct format computes the rational formula, rounds half away from zero to encode and toward zero to decode, and
wraps (R261, R262, R263). -/
def Obligations.DirectCodecFollowsTheFormula : Prop :=
  ∀ (c : Coeff), c.gain ≠ 0 →
    (∀ x : DWord, ∃ n : Int,
      IsRoundHaz n (((c.gain : ℚ) * x.toNat + c.offset) * (10 : ℚ) ^ c.exponent) ∧
      ((directEncode x c).toNat : Int) = n % 2 ^ 16) ∧
    (∀ y : Word, ∃ n : Int,
      IsTrunc n (((y.toNat : ℚ) * (10 : ℚ) ^ (-c.exponent) - c.offset) / c.gain) ∧
      ((directDecode y c).toNat : Int) = n % 2 ^ 32)

/-- The shift functions of the linear format: the left shift multiplies and wraps (0 from 16 on), the right shift divides
the signed value, rounding down, so that it propagates the sign; a non-negative exponent encodes by the right and decodes by
the left shift, a negative one the other way round (R265, R266). -/
def Obligations.LinearCodecShifts : Prop :=
  (∀ (v : Word) (k : Nat),
    (shl16 v k).toNat = v.toNat * 2 ^ k % 2 ^ 16 ∧ (16 ≤ k → shl16 v k = 0) ∧
    (asr16 v k).toInt = v.toInt / 2 ^ k ∧
    (15 ≤ k → asr16 v k = if v.getLsbD 15 then 0xFFFF else 0x0000)) ∧
  (∀ (v : Word) (e : Int), 0 ≤ e → linearEncode v e = asr16 v e.toNat ∧ linearDecode v e = shl16 v e.toNat) ∧
  (∀ (v : Word) (e : Int), e < 0 → linearEncode v e = shl16 v (-e).toNat ∧ linearDecode v e = asr16 v (-e).toNat)

/-- Decoding what the linear format encoded gives the value back, up to the bits a positive exponent shifts out, while the
value stays within 15 bits (R268 (a), which the spec marks as its own inference). -/
def Obligations.LinearRoundTrip : Prop :=
  (∀ (v : Word) (e : Int), 0 ≤ e → v.toNat < 2 ^ 15 →
    (linearDecode (linearEncode v e) e).toNat = v.toNat - v.toNat % 2 ^ e.toNat) ∧
  (∀ (v : Word) (e : Int), e < 0 → v.toNat * 2 ^ (-e).toNat < 2 ^ 15 → linearDecode (linearEncode v e) e = v)

/-! ### The host port -/

/-- `H_SET_ADDR` assigns the address of a node and nothing else; `H_PAGE_CONFIG` assigns the flags of one real page, or of
every real page for 0xFF, and nothing else. Both are refused where the rule says so (R300, R302, R303). -/
def Obligations.HostSetsAddressesAndFlags : Prop :=
  (∀ (s : State) (n : NodeId) (a : BusAddr),
    ((∃ x, s.node? n = some x) →
      exec (.hSetAddr n a) s =
        .next (State.servedHost
          { s with nodes := s.nodes.map fun (m : Node) => if m.id = n then { m with addr := a } else m } (.num 0))) ∧
    (s.node? n = none → exec (.hSetAddr n a) s = .next s.refusedHost)) ∧
  (∀ (s : State) (d : NodeId) (p : Byte) (flags : Word),
    (∀ c r, s.regdev? d = some (c, r) → p = 0xFF →
      exec (.hPageConfig d p flags) s =
        .next ((s.setRegDev d c { r with pg := r.pg.map fun q => { q with flags := flags } }).servedHost (.num 0))) ∧
    (∀ c r pg, RealPage s d p c r pg → p ≠ 0xFF →
      exec (.hPageConfig d p flags) s =
        .next ((s.setRegDev d c { r with pg := r.pg.set p.toNat { pg with flags := flags } }).servedHost (.num 0))) ∧
    (s.regdev? d = none → exec (.hPageConfig d p flags) s = .next s.refusedHost) ∧
    (NoRealPage s d p → p ≠ 0xFF → exec (.hPageConfig d p flags) s = .next s.refusedHost))

/-- `H_SET_FIELD` assigns the low bits of a number to an 8-bit or 16-bit field, or a byte string of the allowed length to a
string field or to the raw block, whatever the flags, and runs the evaluator; a name or a page that the rule does not
admit is refused (R300, R304). -/
def Obligations.HostSetsFields : Prop :=
  ∀ (s : State) (d : NodeId) (p : Byte),
    (∀ c r pg, RealPage s d p c r pg →
      (∀ f (v : DWord), exec (.hSetField d p (.page (.byte f)) (.num v)) s =
        .next ((s.setRegDev d c { r with
          pg := evaluatePages (r.pg.set p.toNat (pg.setByte f (v.setWidth 8))) }).servedHost (.num 0))) ∧
      (∀ f (v : DWord), exec (.hSetField d p (.page (.word f)) (.num v)) s =
        .next ((s.setRegDev d c { r with
          pg := evaluatePages (r.pg.set p.toNat (pg.setWord f (v.setWidth 16))) }).servedHost (.num 0))) ∧
      (∀ f (v : List Byte), exec (.hSetField d p (.page (.string f)) (.bytes v)) s =
        if v.length ≤ s.cfg.bufCap - 2 then
          .next ((s.setRegDev d c { r with
            pg := evaluatePages (r.pg.set p.toNat (pg.setString f v)) }).servedHost (.num 0))
        else .next s.refusedHost) ∧
      (∀ v : List Byte, exec (.hSetField d p (.page .coefficients) (.bytes v)) s =
        if v.length = 5 then
          .next ((s.setRegDev d c { r with
            pg := evaluatePages (r.pg.set p.toNat { pg with coefficients := v }) }).servedHost (.num 0))
        else .next s.refusedHost) ∧
      (∀ v, exec (.hSetField d p (.page .flags) v) s = .next s.refusedHost)) ∧
    (∀ f v, NoRealPage s d p → exec (.hSetField d p f v) s = .next s.refusedHost) ∧
    (∀ v, exec (.hSetField d p .addr v) s = .next s.refusedHost ∧
      exec (.hSetField d p .control v) s = .next s.refusedHost ∧
      exec (.hSetField d p .latch v) s = .next s.refusedHost)

/-- `H_GET_FIELD` answers a page field, an address, a control byte or a latch, numbers zero-extended, and changes nothing;
any other combination is refused (R300, R305). -/
def Obligations.HostGetsFields : Prop :=
  ∀ (s : State) (n : NodeId) (p : Byte),
    (∀ c r pg, RealPage s n p c r pg →
      (∀ f, exec (.hGetField n p (.page (.byte f))) s = .next (s.servedHost (.num ((pg.getByte f).setWidth 32)))) ∧
      (∀ f, exec (.hGetField n p (.page (.word f))) s = .next (s.servedHost (.num ((pg.getWord f).setWidth 32)))) ∧
      (∀ f, exec (.hGetField n p (.page (.string f))) s = .next (s.servedHost (.bytes (pg.getString f)))) ∧
      exec (.hGetField n p (.page .coefficients)) s = .next (s.servedHost (.bytes pg.coefficients)) ∧
      exec (.hGetField n p (.page .flags)) s = .next (s.servedHost (.num (pg.flags.setWidth 32)))) ∧
    (∀ f, NoRealPage s n p → exec (.hGetField n p (.page f)) s = .next s.refusedHost) ∧
    (∀ x, s.node? n = some x →
      exec (.hGetField n p .addr) s = .next (s.servedHost (.num (x.addr.setWidth 32))) ∧
      exec (.hGetField n p .control) s = (match x.dev with
        | .mux control => .next (s.servedHost (.num (control.setWidth 32)))
        | .stub _ _ => .next s.refusedHost
        | .regdev _ _ => .next s.refusedHost) ∧
      exec (.hGetField n p .latch) s = (match x.dev with
        | .stub _ latch => .next (s.servedHost (.num (latch.setWidth 32)))
        | .mux _ => .next s.refusedHost
        | .regdev _ _ => .next s.refusedHost)) ∧
    (s.node? n = none → ∀ f, exec (.hGetField n p f) s = .next s.refusedHost)

/-- `H_SET_PHYS` stores the encoded value in a limit or reading field and runs the evaluator, `H_GET_PHYS` answers the
decoded value and changes nothing; the format and the triple are those of the field's quantity in the table of R270, the exponent of the
linear format is the page's `vout_mode[4:0]`. Any other field is refused (R270, R300, R306, R307). -/
def Obligations.PhysicalAccessorsUseTheCodec : Prop :=
  ∀ (s : State) (d : NodeId) (p : Byte),
    (∀ c r pg, RealPage s d p c r pg →
      ∀ (wf : WordField) (q : Quantity), (wf, q) ∈ quantityTable →
        let e := (pg.control.voutMode.extractLsb' 0 5).toInt
        (∀ x : DWord, exec (.hSetPhys d p (.page (.word wf)) x) s =
          .next ((s.setRegDev d c { r with
            pg := evaluatePages (r.pg.set p.toNat (pg.setWord wf
              (if c.fmt.get q = .direct then directEncode x (c.coeff.get q) else linearEncode (x.setWidth 16) e))) }).servedHost
            (.num 0))) ∧
        exec (.hGetPhys d p (.page (.word wf))) s =
          .next (s.servedHost (.num
            (if c.fmt.get q = .direct then directDecode (pg.getWord wf) (c.coeff.get q)
             else (linearDecode (pg.getWord wf) e).setWidth 32)))) ∧
    (∀ (f : HostField) (x : DWord),
      (NoRealPage s d p ∨ ∀ wf, f = .page (.word wf) → wf = .statusWord) →
      exec (.hSetPhys d p f x) s = .next s.refusedHost ∧ exec (.hGetPhys d p f) s = .next s.refusedHost)
end

