-- ==== Sys2Proof/Laws/State.lean ====
section
/-! SUPPORT. One lemma for each field and each update of the state, of a served REGDEV and of a page, all true by
unfolding once, so that no later proof unfolds an update. -/

namespace Sys2Proof.Machine

/-! ### State -/

@[simp] theorem State.diag_cfg (s : State) (c : Diag) : (s.diag c).cfg = s.cfg := rfl
@[simp] theorem State.diag_bus (s : State) (c : Diag) : (s.diag c).bus = s.bus := rfl
@[simp] theorem State.diag_nodes (s : State) (c : Diag) : (s.diag c).nodes = s.nodes := rfl
@[simp] theorem State.diag_pending (s : State) (c : Diag) : (s.diag c).pending = s.pending := rfl
@[simp] theorem State.diag_resp (s : State) (c : Diag) : (s.diag c).resp = s.resp := rfl
@[simp] theorem State.diag_diags (s : State) (c : Diag) : (s.diag c).diags = s.diags ++ [c] := rfl

@[simp] theorem State.setDiags_cfg (s : State) (ds : List Diag) : (s.setDiags ds).cfg = s.cfg := rfl
@[simp] theorem State.setDiags_bus (s : State) (ds : List Diag) : (s.setDiags ds).bus = s.bus := rfl
@[simp] theorem State.setDiags_nodes (s : State) (ds : List Diag) : (s.setDiags ds).nodes = s.nodes := rfl
@[simp] theorem State.setDiags_pending (s : State) (ds : List Diag) : (s.setDiags ds).pending = s.pending := rfl
@[simp] theorem State.setDiags_resp (s : State) (ds : List Diag) : (s.setDiags ds).resp = s.resp := rfl
@[simp] theorem State.setDiags_diags (s : State) (ds : List Diag) : (s.setDiags ds).diags = ds := rfl

@[simp] theorem State.respond_cfg (s : State) (r : Response) : (s.respond r).cfg = s.cfg := rfl
@[simp] theorem State.respond_bus (s : State) (r : Response) : (s.respond r).bus = s.bus := rfl
@[simp] theorem State.respond_nodes (s : State) (r : Response) : (s.respond r).nodes = s.nodes := rfl
@[simp] theorem State.respond_pending (s : State) (r : Response) : (s.respond r).pending = s.pending := rfl
@[simp] theorem State.respond_resp (s : State) (r : Response) : (s.respond r).resp = r := rfl
@[simp] theorem State.respond_diags (s : State) (r : Response) : (s.respond r).diags = s.diags := rfl

@[simp] theorem State.answer_cfg (s : State) (st : RespStatus) (b : Byte) : (s.answer st b).cfg = s.cfg := rfl
@[simp] theorem State.answer_bus (s : State) (st : RespStatus) (b : Byte) : (s.answer st b).bus = s.bus := rfl
@[simp] theorem State.answer_nodes (s : State) (st : RespStatus) (b : Byte) : (s.answer st b).nodes = s.nodes := rfl
@[simp] theorem State.answer_pending (s : State) (st : RespStatus) (b : Byte) : (s.answer st b).pending = s.pending := rfl
@[simp] theorem State.answer_resp (s : State) (st : RespStatus) (b : Byte) : (s.answer st b).resp = .wire st b := rfl
@[simp] theorem State.answer_diags (s : State) (st : RespStatus) (b : Byte) : (s.answer st b).diags = s.diags := rfl

@[simp] theorem State.hostOk_cfg (s : State) (v : RawValue) : (s.hostOk v).cfg = s.cfg := rfl
@[simp] theorem State.hostOk_bus (s : State) (v : RawValue) : (s.hostOk v).bus = s.bus := rfl
@[simp] theorem State.hostOk_nodes (s : State) (v : RawValue) : (s.hostOk v).nodes = s.nodes := rfl
@[simp] theorem State.hostOk_pending (s : State) (v : RawValue) : (s.hostOk v).pending = s.pending := rfl
@[simp] theorem State.hostOk_resp (s : State) (v : RawValue) : (s.hostOk v).resp = .host .ok v := rfl
@[simp] theorem State.hostOk_diags (s : State) (v : RawValue) : (s.hostOk v).diags = s.diags := rfl

@[simp] theorem State.hostBad_cfg (s : State) : (s.hostBad).cfg = s.cfg := rfl
@[simp] theorem State.hostBad_bus (s : State) : (s.hostBad).bus = s.bus := rfl
@[simp] theorem State.hostBad_nodes (s : State) : (s.hostBad).nodes = s.nodes := rfl
@[simp] theorem State.hostBad_pending (s : State) : (s.hostBad).pending = s.pending := rfl
@[simp] theorem State.hostBad_resp (s : State) : (s.hostBad).resp = .host .bad (.num 0) := rfl
@[simp] theorem State.hostBad_diags (s : State) : (s.hostBad).diags = s.diags ++ [.hostBadArg] := rfl

@[simp] theorem State.begin_cfg (s : State) (rest : List Request) : (s.begin rest).cfg = s.cfg := rfl
@[simp] theorem State.begin_bus (s : State) (rest : List Request) : (s.begin rest).bus = s.bus := rfl
@[simp] theorem State.begin_nodes (s : State) (rest : List Request) : (s.begin rest).nodes = s.nodes := rfl
@[simp] theorem State.begin_pending (s : State) (rest : List Request) : (s.begin rest).pending = rest := rfl
@[simp] theorem State.begin_resp (s : State) (rest : List Request) : (s.begin rest).resp = .none := rfl
@[simp] theorem State.begin_diags (s : State) (rest : List Request) : (s.begin rest).diags = [] := rfl

@[simp] theorem State.resetBlock_cfg (s : State) : (s.resetBlock).cfg = s.cfg := rfl
@[simp] theorem State.resetBlock_bus (s : State) : (s.resetBlock).bus = BusState.idle := rfl
@[simp] theorem State.resetBlock_nodes (s : State) : (s.resetBlock).nodes = s.nodes.map (Node.reset s.cfg.bufCap) := rfl
@[simp] theorem State.resetBlock_pending (s : State) : (s.resetBlock).pending = s.pending := rfl
@[simp] theorem State.resetBlock_resp (s : State) : (s.resetBlock).resp = s.resp := rfl
@[simp] theorem State.resetBlock_diags (s : State) : (s.resetBlock).diags = s.diags := rfl

@[simp] theorem State.modifyNode_cfg (s : State) (id : NodeId) (f : Node → Node) : (s.modifyNode id f).cfg = s.cfg := rfl
@[simp] theorem State.modifyNode_bus (s : State) (id : NodeId) (f : Node → Node) : (s.modifyNode id f).bus = s.bus := rfl
@[simp] theorem State.modifyNode_nodes (s : State) (id : NodeId) (f : Node → Node) : (s.modifyNode id f).nodes = s.nodes.map fun n => if n.id = id then f n else n := rfl
@[simp] theorem State.modifyNode_pending (s : State) (id : NodeId) (f : Node → Node) : (s.modifyNode id f).pending = s.pending := rfl
@[simp] theorem State.modifyNode_resp (s : State) (id : NodeId) (f : Node → Node) : (s.modifyNode id f).resp = s.resp := rfl
@[simp] theorem State.modifyNode_diags (s : State) (id : NodeId) (f : Node → Node) : (s.modifyNode id f).diags = s.diags := rfl

@[simp] theorem State.setDevice_cfg (s : State) (id : NodeId) (d : Device) : (s.setDevice id d).cfg = s.cfg := rfl
@[simp] theorem State.setDevice_bus (s : State) (id : NodeId) (d : Device) : (s.setDevice id d).bus = s.bus := rfl
@[simp] theorem State.setDevice_nodes (s : State) (id : NodeId) (d : Device) : (s.setDevice id d).nodes = s.nodes.map fun n => if n.id = id then { n with dev := d } else n := rfl
@[simp] theorem State.setDevice_pending (s : State) (id : NodeId) (d : Device) : (s.setDevice id d).pending = s.pending := rfl
@[simp] theorem State.setDevice_resp (s : State) (id : NodeId) (d : Device) : (s.setDevice id d).resp = s.resp := rfl
@[simp] theorem State.setDevice_diags (s : State) (id : NodeId) (d : Device) : (s.setDevice id d).diags = s.diags := rfl

@[simp] theorem State.setAddr_cfg (s : State) (id : NodeId) (a : BusAddr) : (s.setAddr id a).cfg = s.cfg := rfl
@[simp] theorem State.setAddr_bus (s : State) (id : NodeId) (a : BusAddr) : (s.setAddr id a).bus = s.bus := rfl
@[simp] theorem State.setAddr_nodes (s : State) (id : NodeId) (a : BusAddr) : (s.setAddr id a).nodes = s.nodes.map fun n => if n.id = id then { n with addr := a } else n := rfl
@[simp] theorem State.setAddr_pending (s : State) (id : NodeId) (a : BusAddr) : (s.setAddr id a).pending = s.pending := rfl
@[simp] theorem State.setAddr_resp (s : State) (id : NodeId) (a : BusAddr) : (s.setAddr id a).resp = s.resp := rfl
@[simp] theorem State.setAddr_diags (s : State) (id : NodeId) (a : BusAddr) : (s.setAddr id a).diags = s.diags := rfl

@[simp] theorem State.setRegDev_cfg (s : State) (id : NodeId) (c : RegDevCfg) (r : RegDev) : (s.setRegDev id c r).cfg = s.cfg := rfl
@[simp] theorem State.setRegDev_bus (s : State) (id : NodeId) (c : RegDevCfg) (r : RegDev) : (s.setRegDev id c r).bus = s.bus := rfl
@[simp] theorem State.setRegDev_nodes (s : State) (id : NodeId) (c : RegDevCfg) (r : RegDev) : (s.setRegDev id c r).nodes = s.nodes.map fun n => if n.id = id then { n with dev := .regdev c r } else n := rfl
@[simp] theorem State.setRegDev_pending (s : State) (id : NodeId) (c : RegDevCfg) (r : RegDev) : (s.setRegDev id c r).pending = s.pending := rfl
@[simp] theorem State.setRegDev_resp (s : State) (id : NodeId) (c : RegDevCfg) (r : RegDev) : (s.setRegDev id c r).resp = s.resp := rfl
@[simp] theorem State.setRegDev_diags (s : State) (id : NodeId) (c : RegDevCfg) (r : RegDev) : (s.setRegDev id c r).diags = s.diags := rfl

/-! ### A REGDEV being served -/

@[simp] theorem Work.diag_fr (w : Work) (c : Diag) : (w.diag c).dev.fr = w.dev.fr := rfl
@[simp] theorem Work.diag_rd (w : Work) (c : Diag) : (w.diag c).dev.rd = w.dev.rd := rfl
@[simp] theorem Work.diag_pg (w : Work) (c : Diag) : (w.diag c).dev.pg = w.dev.pg := rfl
@[simp] theorem Work.diag_diags (w : Work) (c : Diag) : (w.diag c).diags = w.diags ++ [c] := rfl

@[simp] theorem Work.mapFr_fr (w : Work) (f : Framer → Framer) : (w.mapFr f).dev.fr = f w.dev.fr := rfl
@[simp] theorem Work.mapFr_rd (w : Work) (f : Framer → Framer) : (w.mapFr f).dev.rd = w.dev.rd := rfl
@[simp] theorem Work.mapFr_pg (w : Work) (f : Framer → Framer) : (w.mapFr f).dev.pg = w.dev.pg := rfl
@[simp] theorem Work.mapFr_diags (w : Work) (f : Framer → Framer) : (w.mapFr f).diags = w.diags := rfl

@[simp] theorem Work.mapRd_fr (w : Work) (f : RegModel → RegModel) : (w.mapRd f).dev.fr = w.dev.fr := rfl
@[simp] theorem Work.mapRd_rd (w : Work) (f : RegModel → RegModel) : (w.mapRd f).dev.rd = f w.dev.rd := rfl
@[simp] theorem Work.mapRd_pg (w : Work) (f : RegModel → RegModel) : (w.mapRd f).dev.pg = w.dev.pg := rfl
@[simp] theorem Work.mapRd_diags (w : Work) (f : RegModel → RegModel) : (w.mapRd f).diags = w.diags := rfl

@[simp] theorem Work.modifyPage_fr (w : Work) (p : Nat) (f : Page → Page) : (w.modifyPage p f).dev.fr = w.dev.fr := rfl
@[simp] theorem Work.modifyPage_rd (w : Work) (p : Nat) (f : Page → Page) : (w.modifyPage p f).dev.rd = w.dev.rd := rfl
@[simp] theorem Work.modifyPage_pg (w : Work) (p : Nat) (f : Page → Page) : (w.modifyPage p f).dev.pg = w.dev.pg.modify p f := rfl
@[simp] theorem Work.modifyPage_diags (w : Work) (p : Nat) (f : Page → Page) : (w.modifyPage p f).diags = w.diags := rfl

@[simp] theorem Work.mapPages_fr (w : Work) (f : Page → Page) : (w.mapPages f).dev.fr = w.dev.fr := rfl
@[simp] theorem Work.mapPages_rd (w : Work) (f : Page → Page) : (w.mapPages f).dev.rd = w.dev.rd := rfl
@[simp] theorem Work.mapPages_pg (w : Work) (f : Page → Page) : (w.mapPages f).dev.pg = w.dev.pg.map f := rfl
@[simp] theorem Work.mapPages_diags (w : Work) (f : Page → Page) : (w.mapPages f).diags = w.diags := rfl

@[simp] theorem Work.setPage_fr (w : Work) (v : Byte) : (w.setPage v).dev.fr = w.dev.fr := rfl
@[simp] theorem Work.setPage_rd (w : Work) (v : Byte) : (w.setPage v).dev.rd = { w.dev.rd with page := v } := rfl
@[simp] theorem Work.setPage_pg (w : Work) (v : Byte) : (w.setPage v).dev.pg = w.dev.pg := rfl
@[simp] theorem Work.setPage_diags (w : Work) (v : Byte) : (w.setPage v).diags = w.diags := rfl

@[simp] theorem Work.setInLen_fr (w : Work) (n : Nat) : (w.setInLen n).dev.fr = w.dev.fr := rfl
@[simp] theorem Work.setInLen_rd (w : Work) (n : Nat) : (w.setInLen n).dev.rd = { w.dev.rd with inLen := n } := rfl
@[simp] theorem Work.setInLen_pg (w : Work) (n : Nat) : (w.setInLen n).dev.pg = w.dev.pg := rfl
@[simp] theorem Work.setInLen_diags (w : Work) (n : Nat) : (w.setInLen n).diags = w.diags := rfl

@[simp] theorem Work.setMode_fr (w : Work) (m : FrMode) : (w.setMode m).dev.fr = { w.dev.fr with mode := m } := rfl
@[simp] theorem Work.setMode_rd (w : Work) (m : FrMode) : (w.setMode m).dev.rd = w.dev.rd := rfl
@[simp] theorem Work.setMode_pg (w : Work) (m : FrMode) : (w.setMode m).dev.pg = w.dev.pg := rfl
@[simp] theorem Work.setMode_diags (w : Work) (m : FrMode) : (w.setMode m).diags = w.diags := rfl

@[simp] theorem Work.raiseCml_fr (w : Work) (p : Nat) : (w.raiseCml p).dev.fr = w.dev.fr := rfl
@[simp] theorem Work.raiseCml_rd (w : Work) (p : Nat) : (w.raiseCml p).dev.rd = w.dev.rd := rfl
@[simp] theorem Work.raiseCml_pg (w : Work) (p : Nat) : (w.raiseCml p).dev.pg = w.dev.pg.modify p Page.raiseCml := rfl
@[simp] theorem Work.raiseCml_diags (w : Work) (p : Nat) : (w.raiseCml p).diags = w.diags := rfl

@[simp] theorem latchCommand_fr (code : Byte) (n : Nat) (w : Work) : (latchCommand code n w).dev.fr = w.dev.fr := rfl
@[simp] theorem latchCommand_rd (code : Byte) (n : Nat) (w : Work) :
    (latchCommand code n w).dev.rd = { w.dev.rd with pagesValid := true, cmd := code, inLen := n } := rfl
@[simp] theorem latchCommand_pg (code : Byte) (n : Nat) (w : Work) : (latchCommand code n w).dev.pg = w.dev.pg := rfl
@[simp] theorem latchCommand_diags (code : Byte) (n : Nat) (w : Work) : (latchCommand code n w).diags = w.diags := rfl
@[simp] theorem clearFaults_fr (w : Work) : (clearFaults w).dev.fr = w.dev.fr := rfl
@[simp] theorem clearFaults_rd (w : Work) : (clearFaults w).dev.rd = w.dev.rd := rfl
@[simp] theorem clearFaults_pg (w : Work) : (clearFaults w).dev.pg = w.dev.pg.map Page.clearStatus := rfl
@[simp] theorem clearFaults_diags (w : Work) : (clearFaults w).diags = w.diags := rfl
@[simp] theorem finishWrite_fr (w : Work) : (finishWrite w).dev.fr = w.dev.fr := rfl
@[simp] theorem finishWrite_rd (w : Work) : (finishWrite w).dev.rd = { w.dev.rd with inLen := 0 } := rfl
@[simp] theorem finishWrite_pg (w : Work) : (finishWrite w).dev.pg = evaluatePages w.dev.pg := rfl
@[simp] theorem finishWrite_diags (w : Work) : (finishWrite w).diags = w.diags := rfl

/-! ### Pages -/

@[simp] theorem Page.evaluate_status (p : Page) : p.evaluate.status = evalStatus p evalRows p.status := rfl
@[simp] theorem Page.clearStatus_status (p : Page) : p.clearStatus.status = Status.zero := rfl
@[simp] theorem Page.evaluate_flags (p : Page) : p.evaluate.flags = p.flags := rfl
@[simp] theorem Page.evaluate_control (p : Page) : p.evaluate.control = p.control := rfl
@[simp] theorem Page.evaluate_limits (p : Page) : p.evaluate.limits = p.limits := rfl
@[simp] theorem Page.evaluate_readings (p : Page) : p.evaluate.readings = p.readings := rfl
@[simp] theorem Page.evaluate_mfr (p : Page) : p.evaluate.mfr = p.mfr := rfl
@[simp] theorem Page.evaluate_coefficients (p : Page) : p.evaluate.coefficients = p.coefficients := rfl

@[simp] theorem Page.clearStatus_flags (p : Page) : p.clearStatus.flags = p.flags := rfl
@[simp] theorem Page.clearStatus_control (p : Page) : p.clearStatus.control = p.control := rfl
@[simp] theorem Page.clearStatus_limits (p : Page) : p.clearStatus.limits = p.limits := rfl
@[simp] theorem Page.clearStatus_readings (p : Page) : p.clearStatus.readings = p.readings := rfl
@[simp] theorem Page.clearStatus_mfr (p : Page) : p.clearStatus.mfr = p.mfr := rfl
@[simp] theorem Page.clearStatus_coefficients (p : Page) : p.clearStatus.coefficients = p.coefficients := rfl

@[simp] theorem Page.raiseCml_flags (p : Page) : p.raiseCml.flags = p.flags := rfl
@[simp] theorem Page.raiseCml_control (p : Page) : p.raiseCml.control = p.control := rfl
@[simp] theorem Page.raiseCml_limits (p : Page) : p.raiseCml.limits = p.limits := rfl
@[simp] theorem Page.raiseCml_readings (p : Page) : p.raiseCml.readings = p.readings := rfl
@[simp] theorem Page.raiseCml_mfr (p : Page) : p.raiseCml.mfr = p.mfr := rfl
@[simp] theorem Page.raiseCml_coefficients (p : Page) : p.raiseCml.coefficients = p.coefficients := rfl

@[simp] theorem Page.raiseCml_word (p : Page) : p.raiseCml.status.word = p.status.word ||| 0x0002 := rfl
@[simp] theorem Page.raiseCml_cml (p : Page) : p.raiseCml.status.cml = p.status.cml ||| 0x40 := rfl
@[simp] theorem Page.raiseCml_vout (p : Page) : p.raiseCml.status.vout = p.status.vout := rfl
@[simp] theorem Page.raiseCml_iout (p : Page) : p.raiseCml.status.iout = p.status.iout := rfl
@[simp] theorem Page.raiseCml_input (p : Page) : p.raiseCml.status.input = p.status.input := rfl
@[simp] theorem Page.raiseCml_temperature (p : Page) : p.raiseCml.status.temperature = p.status.temperature := rfl

@[simp] theorem Page.setByte_flags (p : Page) (f : ByteField) (v : Byte) : (p.setByte f v).flags = p.flags := by
  cases f <;> rfl
@[simp] theorem Page.setByte_mfr (p : Page) (f : ByteField) (v : Byte) : (p.setByte f v).mfr = p.mfr := by
  cases f <;> rfl
@[simp] theorem Page.setByte_coefficients (p : Page) (f : ByteField) (v : Byte) : (p.setByte f v).coefficients = p.coefficients := by
  cases f <;> rfl
@[simp] theorem Page.setWord_flags (p : Page) (f : WordField) (v : Word) : (p.setWord f v).flags = p.flags := by
  cases f <;> rfl
@[simp] theorem Page.setWord_mfr (p : Page) (f : WordField) (v : Word) : (p.setWord f v).mfr = p.mfr := by
  cases f <;> rfl
@[simp] theorem Page.setWord_coefficients (p : Page) (f : WordField) (v : Word) : (p.setWord f v).coefficients = p.coefficients := by
  cases f <;> rfl
@[simp] theorem Page.setByte_limits (p : Page) (f : ByteField) (v : Byte) : (p.setByte f v).limits = p.limits := by
  cases f <;> rfl
@[simp] theorem Page.setByte_readings (p : Page) (f : ByteField) (v : Byte) : (p.setByte f v).readings = p.readings := by
  cases f <;> rfl
@[simp] theorem Page.setWord_control (p : Page) (f : WordField) (v : Word) : (p.setWord f v).control = p.control := by
  cases f <;> rfl
@[simp] theorem Page.setString_flags (p : Page) (f : StringField) (v : List Byte) : (p.setString f v).flags = p.flags := rfl
@[simp] theorem Page.setString_control (p : Page) (f : StringField) (v : List Byte) : (p.setString f v).control = p.control := rfl
@[simp] theorem Page.setString_limits (p : Page) (f : StringField) (v : List Byte) : (p.setString f v).limits = p.limits := rfl
@[simp] theorem Page.setString_readings (p : Page) (f : StringField) (v : List Byte) : (p.setString f v).readings = p.readings := rfl
@[simp] theorem Page.setString_status (p : Page) (f : StringField) (v : List Byte) : (p.setString f v).status = p.status := rfl
@[simp] theorem Page.setString_coefficients (p : Page) (f : StringField) (v : List Byte) : (p.setString f v).coefficients = p.coefficients := rfl
@[simp] theorem Page.setString_mfr (p : Page) (f : StringField) (v : List Byte) : (p.setString f v).mfr = p.mfr.set f v := rfl

@[simp] theorem Limits.get_set_same (l : Limits) (f : LimitField) (v : Word) : (l.set f v).get f = v := by
  cases f <;> rfl
theorem Limits.get_set_other (l : Limits) (f g : LimitField) (v : Word) (h : g ≠ f) : (l.set f v).get g = l.get g := by
  cases f <;> cases g <;> first | rfl | exact absurd rfl h

@[simp] theorem Readings.get_set_same (r : Readings) (f : ReadingField) (v : Word) : (r.set f v).get f = v := by
  cases f <;> rfl
theorem Readings.get_set_other (r : Readings) (f g : ReadingField) (v : Word) (h : g ≠ f) : (r.set f v).get g = r.get g := by
  cases f <;> cases g <;> first | rfl | exact absurd rfl h

@[simp] theorem Status.get_set_same (s : Status) (f : SubStatus) (v : Byte) : (s.set f v).get f = v := by
  cases f <;> rfl
theorem Status.get_set_other (s : Status) (f g : SubStatus) (v : Byte) (h : g ≠ f) : (s.set f v).get g = s.get g := by
  cases f <;> cases g <;> first | rfl | exact absurd rfl h

@[simp] theorem MfrInfo.get_set_same (m : MfrInfo) (f : StringField) (v : List Byte) : (m.set f v).get f = v := by
  cases f <;> rfl
theorem MfrInfo.get_set_other (m : MfrInfo) (f g : StringField) (v : List Byte) (h : g ≠ f) : (m.set f v).get g = m.get g := by
  cases f <;> cases g <;> first | rfl | exact absurd rfl h

@[simp] theorem Status.set_word (s : Status) (f : SubStatus) (v : Byte) : (s.set f v).word = s.word := by
  cases f <;> rfl

@[simp] theorem Page.getByte_setByte_same (p : Page) (f : ByteField) (v : Byte) : (p.setByte f v).getByte f = v := by
  rcases f with _ | _ | _ | f <;> first | rfl | exact Status.get_set_same _ f v

@[simp] theorem Page.getWord_setWord_same (p : Page) (f : WordField) (v : Word) : (p.setWord f v).getWord f = v := by
  rcases f with f | f | _ <;> first | rfl | exact Limits.get_set_same _ f v | exact Readings.get_set_same _ f v

@[simp] theorem Page.getString_setString_same (p : Page) (f : StringField) (v : List Byte) : (p.setString f v).getString f = v := by
  exact MfrInfo.get_set_same _ f v

theorem Page.getByte_setByte_other (p : Page) (f g : ByteField) (v : Byte) (h : g ≠ f) :
    (p.setByte f v).getByte g = p.getByte g := by
  rcases f with _ | _ | _ | f <;> rcases g with _ | _ | _ | g <;> first | rfl | exact absurd rfl h | skip
  exact Status.get_set_other _ f g v fun e => h (congrArg ByteField.status e)

theorem Page.getWord_setWord_other (p : Page) (f g : WordField) (v : Word) (h : g ≠ f) :
    (p.setWord f v).getWord g = p.getWord g := by
  rcases f with f | f | _ <;> rcases g with g | g | _ <;> first | rfl | exact absurd rfl h | skip
  · exact Limits.get_set_other _ f g v fun e => h (congrArg WordField.limit e)
  · exact Readings.get_set_other _ f g v fun e => h (congrArg WordField.reading e)

theorem Page.getString_setString_other (p : Page) (f g : StringField) (v : List Byte) (h : g ≠ f) :
    (p.setString f v).getString g = p.getString g :=
  MfrInfo.get_set_other _ f g v h

/-- Flags decide a capability flag. -/
theorem Page.hasFlag_congr (p q : Page) (h : p.flags = q.flags) (f : PageFlag) : p.hasFlag f = q.hasFlag f := by
  simp [Page.hasFlag, h]

end Sys2Proof.Machine
end

