-- ==== Sys2Proof/Laws/Buffers.lean ====
section
/-! SUPPORT. The receive helpers (R165, R167) and the staging helpers (R170 to R174) in closed form. -/

namespace Sys2Proof.Machine

/-! ### Bytes and words -/

@[simp] theorem ofNat_toNat_byte (v : Byte) : BitVec.ofNat 8 v.toNat = v := by simp

/-- The two low-byte-first bytes of a word (R46). -/
theorem leBytes_word (v : Word) : leBytes 2 v.toNat = wordBytes v := by
  have h : (BitVec.ofNat 8 v.toNat = v.extractLsb' 0 8) ∧ (BitVec.ofNat 8 (v.toNat / 256) = v.extractLsb' 8 8) := by
    constructor <;> (apply BitVec.eq_of_toNat_eq; simp [Nat.shiftRight_eq_div_pow])
  simp [leBytes, wordBytes, h.1, h.2]

theorem leBytes_byte (v : Byte) : leBytes 1 v.toNat = [v] := by simp [leBytes]

/-- What the word-wide receive helper reads of a payload with data (R165). -/
theorem ofNat_memRead_word (code : Byte) (data : List Byte) (h : data ≠ []) :
    BitVec.ofNat 16 (memRead (code :: data) 1 (min 2 data.length)) = dataWord data := by
  match data, h with
  | [lo], _ => apply BitVec.eq_of_toNat_eq; simp [memRead, dataWord]
  | lo :: hi :: rest, _ =>
    apply BitVec.eq_of_toNat_eq
    have h1 := lo.isLt
    have h2 := hi.isLt
    have h3 : (hi ++ lo : BitVec 16).toNat = hi.toNat * 2 ^ 8 + lo.toNat := by
      rw [BitVec.toNat_append, ← Nat.shiftLeft_add_eq_or_of_lt h1, Nat.shiftLeft_eq]
    simp only [dataWord, h3]
    simp [memRead]
    omega

/-! ### Receive helpers -/

/-- The diagnostics of the receive helper: the length warning of R165. -/
theorem rxUint_fst (code : Byte) (data : List Byte) (k : Nat) (w : Work) :
    (rxUint (code :: data) k w).1 = { w with diags := w.diags ++ lengthWarning data k } := by
  unfold rxUint lengthWarning Work.diag
  by_cases h : data.length = k <;> simp [h]

/-- One byte received is the first data byte (R165). -/
theorem rxUint_byte (code v : Byte) (rest : List Byte) (w : Work) :
    BitVec.ofNat 8 (rxUint (code :: v :: rest) 1 w).2 = v := by
  simp [rxUint, memRead]

theorem rxUint_byte_toNat (code v : Byte) (rest : List Byte) (w : Work) :
    (rxUint (code :: v :: rest) 1 w).2 = v.toNat := by
  simp [rxUint, memRead]

/-- One word received is the little-endian word of the data (R165). -/
theorem rxUint_word (code : Byte) (data : List Byte) (h : data ≠ []) (w : Work) :
    BitVec.ofNat 16 (rxUint (code :: data) 2 w).2 = dataWord data := by
  simpa [rxUint] using ofNat_memRead_word code data h

/-! ### Staging helpers -/

/-- Staging in closed form: the bytes reversed at the low end, `out_len` their number, what does not fit dropped (R170). -/
theorem stageBytes_eq (cap : Nat) (bytes : List Byte) (w : Work) :
    stageBytes cap bytes w =
      { dev := { w.dev with rd := { w.dev.rd with
          outBuf := (bytes.take cap).reverse ++ w.dev.rd.outBuf.drop (min bytes.length cap)
          outLen := min bytes.length cap } }
        diags := if cap < bytes.length then w.diags ++ [.rmStageOverflow] else w.diags } := by
  unfold stageBytes Work.mapRd Work.diag
  have ht : bytes.take (min bytes.length cap) = bytes.take cap := by
    by_cases h : bytes.length ≤ cap
    · rw [Nat.min_eq_left h, List.take_of_length_le (Nat.le_refl _), List.take_of_length_le h]
    · rw [Nat.min_eq_right (by omega)]
  by_cases h : cap < bytes.length <;> simp [h, ht]

@[simp] theorem stageBytes_fr (cap : Nat) (bytes : List Byte) (w : Work) : (stageBytes cap bytes w).dev.fr = w.dev.fr := by
  rw [stageBytes_eq]
@[simp] theorem stageBytes_pg (cap : Nat) (bytes : List Byte) (w : Work) : (stageBytes cap bytes w).dev.pg = w.dev.pg := by
  rw [stageBytes_eq]
@[simp] theorem pop_fr (w : Work) : (pop w).1.dev.fr = w.dev.fr := by unfold pop; split <;> rfl
@[simp] theorem pop_pg (w : Work) : (pop w).1.dev.pg = w.dev.pg := by unfold pop; split <;> rfl

/-- A pop with bytes staged: the highest occupied slot (R174). -/
theorem pop_staged (w : Work) (n : Nat) (b : Byte) (hn : w.dev.rd.outLen = n + 1) (hb : w.dev.rd.outBuf[n]? = some b) :
    pop w = ({ w with dev := { w.dev with rd := { w.dev.rd with outLen := n } } }, b) := by
  simp [pop, Work.mapRd, hn, List.getD_eq_getElem?_getD, hb]

/-- A pop with nothing staged (R174). -/
theorem pop_empty (w : Work) (h : w.dev.rd.outLen = 0) :
    pop w = ({ w with diags := w.diags ++ [.rmEmptyPop] }, 0xFF) := by
  simp [pop, Work.diag, h, errByte]

/-- Staging and then one pop: the device serves the bytes, the first one is answered (R170, R174). -/
theorem pop_stageBytes (cap : Nat) (b : Byte) (rest : List Byte) (w : Work) (hc : 0 < cap) :
    pop (stageBytes cap (b :: rest) w) =
      ({ dev := w.dev.served ((b :: rest).take cap)
         diags := w.diags ++ if cap < (b :: rest).length then [.rmStageOverflow] else [] }, b) := by
  obtain ⟨cap, rfl⟩ : ∃ k, cap = k + 1 := ⟨cap - 1, by omega⟩
  rw [stageBytes_eq]
  rw [pop_staged _ (min rest.length cap) b]
  · by_cases h : cap < rest.length <;> simp [RegDev.served, Nat.min_comm, h]
  · simp
  · simp only [List.take_succ_cons, List.reverse_cons, List.append_assoc]
    rw [List.getElem?_append_right (by simp [Nat.min_comm])]
    simp [Nat.min_comm]

end Sys2Proof.Machine
end

