-- ==== Sys2Proof/Laws/Nodes.lean ====
section
/-! SUPPORT. Lookup of a node and of a REGDEV after an update of another or of the same node. -/

namespace Sys2Proof.Machine

/-! ### Lookup reads the node list only -/

theorem State.node?_congr {s t : State} (h : t.nodes = s.nodes) (id : NodeId) : t.node? id = s.node? id := by
  simp [State.node?, h]

theorem State.regdev?_congr {s t : State} (h : t.nodes = s.nodes) (id : NodeId) : t.regdev? id = s.regdev? id := by
  simp [State.regdev?, State.node?_congr h]

@[simp] theorem State.node?_setDiags (s : State) (ds : List Diag) (id : NodeId) : (s.setDiags ds).node? id = s.node? id := rfl
@[simp] theorem State.node?_respond (s : State) (r : Response) (id : NodeId) : (s.respond r).node? id = s.node? id := rfl
@[simp] theorem State.regdev?_setDiags (s : State) (ds : List Diag) (id : NodeId) :
    (s.setDiags ds).regdev? id = s.regdev? id := rfl
@[simp] theorem State.regdev?_respond (s : State) (r : Response) (id : NodeId) :
    (s.respond r).regdev? id = s.regdev? id := rfl

/-- The record found under an id has that id. -/
theorem State.node?_id {s : State} {id : NodeId} {n : Node} (h : s.node? id = some n) : n.id = id := by
  simpa using List.find?_some h

theorem State.node?_mem {s : State} {id : NodeId} {n : Node} (h : s.node? id = some n) : n ∈ s.nodes :=
  List.mem_of_find?_eq_some h

theorem State.regdev?_eq_some {s : State} {d : NodeId} {c : RegDevCfg} {r : RegDev} :
    s.regdev? d = some (c, r) ↔ ∃ n, s.node? d = some n ∧ n.dev = .regdev c r := by
  unfold State.regdev?
  cases hn : s.node? d with
  | none => simp
  | some n => cases hd : n.dev <;> simp [hd]

/-! ### After an update -/

/-- An update that keeps ids: lookup finds the updated record. -/
theorem find?_map_if (l : List Node) (id j : NodeId) (f : Node → Node) (hf : ∀ n, (f n).id = n.id) :
    (l.map fun n => if n.id = id then f n else n).find? (fun n => decide (n.id = j)) =
      (l.find? fun n => decide (n.id = j)).map fun n => if j = id then f n else n := by
  induction l with
  | nil => rfl
  | cons n l ih =>
    by_cases hj : n.id = j
    · subst hj
      by_cases hi : n.id = id <;> simp [hi, hf]
    · by_cases hi : n.id = id
      · have : (f n).id ≠ j := by rw [hf]; exact hj
        have hij : ¬ id = j := hi ▸ hj
        rw [List.map_cons, if_pos hi, List.find?_cons_of_neg (by simpa using this), List.find?_cons_of_neg (by simpa using hj), ih]
      · simp [hi, hj, ih]

theorem State.node?_modifyNode (s : State) (id j : NodeId) (f : Node → Node) (hf : ∀ n, (f n).id = n.id) :
    (s.modifyNode id f).node? j = (s.node? j).map fun n => if j = id then f n else n :=
  find?_map_if s.nodes id j f hf

theorem State.node?_setDevice (s : State) (id j : NodeId) (d : Device) :
    (s.setDevice id d).node? j = (s.node? j).map fun n => if j = id then { n with dev := d } else n :=
  s.node?_modifyNode id j _ fun _ => rfl

/-- Another node keeps its record. -/
theorem State.node?_setDevice_other (s : State) {id j : NodeId} (d : Device) (h : j ≠ id) :
    (s.setDevice id d).node? j = s.node? j := by
  simp [State.node?_setDevice, h]

theorem State.regdev?_setRegDev_same (s : State) (d : NodeId) (c c' : RegDevCfg) (r r' : RegDev)
    (h : s.regdev? d = some (c', r')) : (s.setRegDev d c r).regdev? d = some (c, r) := by
  obtain ⟨n, hn, -⟩ := State.regdev?_eq_some.1 h
  exact State.regdev?_eq_some.2 ⟨{ n with dev := .regdev c r }, by simp [State.setRegDev, State.node?_setDevice, hn], rfl⟩

theorem State.regdev?_setRegDev_other (s : State) {d e : NodeId} (c : RegDevCfg) (r : RegDev) (h : e ≠ d) :
    (s.setRegDev d c r).regdev? e = s.regdev? e := by
  simp [State.regdev?, State.setRegDev, State.node?_setDevice_other, h]

/-- The second of two updates of one device counts. -/
@[simp] theorem State.setDevice_setDevice (s : State) (id : NodeId) (a b : Device) :
    (s.setDevice id a).setDevice id b = s.setDevice id b := by
  simp only [State.setDevice, State.modifyNode, List.map_map, State.mk.injEq, true_and, and_true]
  refine List.map_congr_left fun n _ => ?_
  by_cases h : n.id = id <;> simp [h]

@[simp] theorem State.setRegDev_setRegDev (s : State) (d : NodeId) (c c' : RegDevCfg) (r r' : RegDev) :
    (s.setRegDev d c r).setRegDev d c' r' = s.setRegDev d c' r' := s.setDevice_setDevice d _ _

/-! ### Ids -/

@[simp] theorem State.ids_modifyNode (s : State) (id : NodeId) (f : Node → Node) (hf : ∀ n, (f n).id = n.id) :
    (s.modifyNode id f).nodes.map Node.id = s.nodes.map Node.id := by
  simp only [State.modifyNode, List.map_map]
  refine List.map_congr_left fun n _ => ?_
  by_cases h : n.id = id <;> simp [h, hf]

/-- A list without repeats, as a Bool and as a proposition. -/
theorem distinct_iff_nodup {α : Type} [DecidableEq α] (l : List α) : distinct l = true ↔ l.Nodup := by
  induction l with
  | nil => simp [distinct]
  | cons a l ih => simp [distinct, ih]

/-- With distinct ids a member is what lookup finds. -/
theorem State.node?_of_mem {s : State} (hd : (s.nodes.map Node.id).Nodup) {n : Node} (h : n ∈ s.nodes) :
    s.node? n.id = some n := by
  unfold State.node?
  generalize s.nodes = l at hd h
  induction l with
  | nil => cases h
  | cons m l ih =>
    simp only [List.map_cons, List.nodup_cons] at hd
    rcases List.mem_cons.1 h with rfl | h
    · simp
    · have hne : m.id ≠ n.id := fun e => hd.1 (e ▸ List.mem_map_of_mem h)
      simp [hne, ih hd.2 h]

/-- With distinct ids, writing back the device found changes nothing. -/
theorem State.setDevice_self {s : State} (hd : (s.nodes.map Node.id).Nodup) {id : NodeId} {n : Node}
    (h : s.node? id = some n) : s.setDevice id n.dev = s := by
  have hn : s.nodes.map (fun m => if m.id = id then { m with dev := n.dev } else m) = s.nodes := by
    conv_rhs => rw [← List.map_id s.nodes]
    refine List.map_congr_left fun m hm => ?_
    by_cases hi : m.id = id
    · have := State.node?_of_mem hd hm
      rw [hi, h] at this
      cases this
      simp
    · simp [hi]
  simp only [State.setDevice, State.modifyNode, hn]

end Sys2Proof.Machine
end

