-- ==== Sys2Proof/Laws/Evaluator.lean ====
section
/-! SUPPORT. What the evaluator can do to a page: it only ORs status bits (R282 to R284). -/

namespace Sys2Proof.Machine

/-! ### The order on status families -/

theorem Status.le_refl (a : Status) : a.le a := ⟨BitVec.and_self, fun _ => BitVec.and_self⟩

theorem Status.le_trans {a b c : Status} (hab : a.le b) (hbc : b.le c) : a.le c := by
  refine ⟨?_, fun f => ?_⟩
  · rw [← hab.1, BitVec.and_assoc, hbc.1]
  · rw [← hab.2 f, BitVec.and_assoc, hbc.2 f]

/-- ORing bits in only goes up. -/
theorem and_or_self_left {n : Nat} (a b : BitVec n) : a &&& (a ||| b) = a := by
  ext i; simp; intro h; simp [h]

theorem EvalRow.le_mark (row : EvalRow) (st : Status) : st.le (row.mark st) := by
  refine ⟨by simp [EvalRow.mark, and_or_self_left], fun f => ?_⟩
  by_cases h : f = row.sub
  · subst h
    simp only [EvalRow.mark, Status.get_set_same]
    cases row.sub <;> exact and_or_self_left _ _
  · rw [EvalRow.mark, Status.get_set_other _ _ _ _ h]
    cases f <;> exact BitVec.and_self

theorem le_raiseCml (p : Page) : p.status.le p.raiseCml.status := by
  refine ⟨and_or_self_left _ _, fun f => ?_⟩
  cases f <;> first | exact BitVec.and_self | exact and_or_self_left _ _

/-! ### One page -/

/-- The evaluator clears no status bit. -/
theorem le_evalStatus (p : Page) (rows : List EvalRow) (st : Status) : st.le (evalStatus p rows st) := by
  induction rows generalizing st with
  | nil => exact st.le_refl
  | cons row rows ih =>
    rw [evalStatus]
    split
    · exact Status.le_trans (row.le_mark st) (ih _)
    · exact ih _

/-- A condition reads limits and readings only. -/
theorem EvalRow.fires_congr (row : EvalRow) (p q : Page) (hl : p.limits = q.limits) (hr : p.readings = q.readings) :
    row.fires p = row.fires q := by
  simp [EvalRow.fires, hl, hr]

theorem evalStatus_congr (p q : Page) (hl : p.limits = q.limits) (hr : p.readings = q.readings) (rows : List EvalRow)
    (st : Status) : evalStatus p rows st = evalStatus q rows st := by
  induction rows generalizing st with
  | nil => rfl
  | cons row rows ih => rw [evalStatus, evalStatus, row.fires_congr p q hl hr, ih]

/-- The evaluator of a page writes its status family and nothing else. -/
theorem Page.evaluateIfOn_frame (p : Page) : { p.evaluateIfOn with status := p.status } = p := by
  unfold Page.evaluateIfOn; split <;> rfl

theorem Page.le_evaluateIfOn (p : Page) : p.status.le p.evaluateIfOn.status := by
  unfold Page.evaluateIfOn; split
  · exact le_evalStatus p evalRows p.status
  · exact Status.le_refl _

@[simp] theorem Page.evaluateIfOn_flags (p : Page) : p.evaluateIfOn.flags = p.flags := by
  unfold Page.evaluateIfOn; split <;> rfl
@[simp] theorem Page.evaluateIfOn_control (p : Page) : p.evaluateIfOn.control = p.control := by
  unfold Page.evaluateIfOn; split <;> rfl
@[simp] theorem Page.evaluateIfOn_limits (p : Page) : p.evaluateIfOn.limits = p.limits := by
  unfold Page.evaluateIfOn; split <;> rfl
@[simp] theorem Page.evaluateIfOn_readings (p : Page) : p.evaluateIfOn.readings = p.readings := by
  unfold Page.evaluateIfOn; split <;> rfl
@[simp] theorem Page.evaluateIfOn_mfr (p : Page) : p.evaluateIfOn.mfr = p.mfr := by
  unfold Page.evaluateIfOn; split <;> rfl
@[simp] theorem Page.evaluateIfOn_coefficients (p : Page) : p.evaluateIfOn.coefficients = p.coefficients := by
  unfold Page.evaluateIfOn; split <;> rfl

/-- What the evaluator makes of a page whose status is not yet fixed: only the status differs. -/
theorem Page.evaluateIfOn_eq (p : Page) : ∃ st, p.evaluateIfOn = { p with status := st } := by
  unfold Page.evaluateIfOn; split
  · exact ⟨_, rfl⟩
  · exact ⟨p.status, rfl⟩

/-! ### All pages -/

@[simp] theorem evaluatePages_length (pg : List Page) : (evaluatePages pg).length = pg.length := by
  simp [evaluatePages]

@[simp] theorem evaluatePages_getElem? (pg : List Page) (i : Nat) :
    (evaluatePages pg)[i]? = pg[i]?.map Page.evaluateIfOn := by
  simp [evaluatePages]

/-- The widths of a page do not depend on its status. -/
theorem Page.wf_status (strMax : Nat) (p : Page) (st : Status) : Page.wf strMax { p with status := st } = Page.wf strMax p :=
  rfl

theorem Page.wf_evaluateIfOn (strMax : Nat) (p : Page) : Page.wf strMax p.evaluateIfOn = Page.wf strMax p := by
  obtain ⟨st, h⟩ := p.evaluateIfOn_eq
  rw [h, Page.wf_status]

end Sys2Proof.Machine
end

