-- ==== Sys2Proof/Laws/RegisterModel.lean ====
section
/-! SUPPORT. The register model: one lemma for each way a write or a read call can go, and once for all what a call keeps
(R150 to R174). -/

namespace Sys2Proof.Machine

variable {g : Config} {c : RegDevCfg}

/-! ### Hooks -/

theorem hookWrite_default (h : c.hookWrite = none) (idx : Nat) (P : List Byte) (w : Work) : hookWrite g c idx P w = w := by
  simp [hookWrite, h]

theorem hookRead_default (h : c.hookRead = none) (idx : Nat) (w : Work) : hookRead g c idx w = (w, []) := by
  simp [hookRead, h]

theorem rmQuick_default (h : c.hookQuick = none) (read : Bool) (w : Work) : rmQuick g c read w = w := by
  simp [rmQuick, h]

/-- A hook leaves the device as it was or in the right shape, and touches neither the framer nor the diagnostics (R157). -/
theorem Work.afterHook_cases (rd : RegModel) (pg : List Page) (w : Work) :
    w.afterHook g c rd pg = w ∨
      (rdShapeOk g c rd pg = true ∧ w.afterHook g c rd pg = { w with dev := { w.dev with rd := rd, pg := pg } }) := by
  unfold Work.afterHook
  split
  · exact .inr ⟨‹_›, rfl⟩
  · exact .inl rfl

@[simp] theorem Work.afterHook_fr (rd : RegModel) (pg : List Page) (w : Work) :
    (w.afterHook g c rd pg).dev.fr = w.dev.fr := by unfold Work.afterHook; split <;> rfl

@[simp] theorem hookWrite_fr (idx : Nat) (P : List Byte) (w : Work) : (hookWrite g c idx P w).dev.fr = w.dev.fr := by
  unfold hookWrite; split <;> simp

@[simp] theorem hookRead_fr (idx : Nat) (w : Work) : (hookRead g c idx w).1.dev.fr = w.dev.fr := by
  unfold hookRead; split <;> simp

@[simp] theorem rmQuick_fr (read : Bool) (w : Work) : (rmQuick g c read w).dev.fr = w.dev.fr := by
  unfold rmQuick; split <;> simp

/-! ### Table lookup -/

theorem Work.pageAt_of_getElem? {w : Work} {idx : Nat} {pg : Page} (h : w.dev.pg[idx]? = some pg) : w.pageAt idx = pg := by
  simp [Work.pageAt, h]

/-- An exposed command goes to its entry (R157, R162). -/
theorem selectEntry_exposed {e : CmdEntry} {idx : Nat} {w : Work} (ht : tableEntry c.cmdTable e.code = some e)
    (hf : ∀ f, e.flag = some f → (w.pageAt idx).hasFlag f = true) : selectEntry c e.code idx w = some e := by
  unfold selectEntry
  rw [ht]
  cases hfl : e.flag with
  | none => simp [hfl]
  | some f => simp [hfl, hf f hfl]

/-- A gated command without its flag goes to the hook (R157, R162). -/
theorem selectEntry_gated {e : CmdEntry} {idx : Nat} {w : Work} {f : PageFlag}
    (ht : tableEntry c.cmdTable e.code = some e) (hf : e.flag = some f) (hn : (w.pageAt idx).hasFlag f = false) :
    selectEntry c e.code idx w = none := by
  simp [selectEntry, ht, hf, hn]

/-- A code without an entry goes to the hook (R157, R162). -/
theorem selectEntry_unlisted {code : Byte} {idx : Nat} {w : Work} (ht : tableEntry c.cmdTable code = none) :
    selectEntry c code idx w = none := by
  simp [selectEntry, ht]

/-- The entry found is one of the table. -/
theorem selectEntry_mem {code : Byte} {idx : Nat} {w : Work} {e : CmdEntry} (h : selectEntry c code idx w = some e) :
    e ∈ c.cmdTable := by
  unfold selectEntry at h
  cases ht : tableEntry c.cmdTable code with
  | none => simp [ht] at h
  | some e' =>
    have hm : e' ∈ c.cmdTable := List.mem_of_find?_eq_some ht
    rw [ht] at h
    cases hf : e'.flag with
    | none => simp [hf] at h; exact h ▸ hm
    | some f => simp [hf] at h; exact h.2 ▸ hm

/-! ### The write call, path by path -/

/-- Steps 1 and 2 of the write path on a code with `n` payload bytes (R150, R151). -/
def entered (g : Config) (code : Byte) (n : Nat) (w : Work) : Work :=
  if code = g.cmdClearFaults then clearFaults (latchCommand code n w) else latchCommand code n w

@[simp] theorem entered_fr (code : Byte) (n : Nat) (w : Work) : (entered g code n w).dev.fr = w.dev.fr := by
  unfold entered; split <;> rfl
@[simp] theorem entered_rd (code : Byte) (n : Nat) (w : Work) :
    (entered g code n w).dev.rd = { w.dev.rd with pagesValid := true, cmd := code, inLen := n } := by
  unfold entered; split <;> rfl
@[simp] theorem entered_pg (code : Byte) (n : Nat) (w : Work) :
    (entered g code n w).dev.pg = if code = g.cmdClearFaults then w.dev.pg.map Page.clearStatus else w.dev.pg := by
  unfold entered; split <;> rfl
@[simp] theorem entered_diags (code : Byte) (n : Nat) (w : Work) : (entered g code n w).diags = w.diags := by
  unfold entered; split <;> rfl

/-- A payload without data ends at step 2 (R151). -/
theorem rmWrite_codeOnly (code : Byte) (w : Work) : rmWrite g c [code] w = (entered g code 1 w, true) := by
  simp [rmWrite, entered]

/-- A page select ends at step 3 (R152). -/
theorem rmWrite_pageSelect (v : Byte) (rest : List Byte) (w : Work) :
    rmWrite g c (g.cmdPage :: v :: rest) w =
      ({ entered g g.cmdPage (rest.length + 2) w with
          diags := w.diags ++ lengthWarning (v :: rest) 1 }.setPage v, true) := by
  simp [rmWrite, rxUint_fst, rxUint_byte_toNat]
  simp [entered]
  split <;> simp

/-- Any other payload reaches steps 4 to 7 (R154). -/
theorem rmWrite_data (code : Byte) (data : List Byte) (w : Work) (hd : data ≠ []) (hp : code ≠ g.cmdPage) :
    rmWrite g c (code :: data) w = writeSelected g c (code :: data) (entered g code (data.length + 1) w) := by
  simp [rmWrite, entered, hd, hp]

/-- With a real page selected a payload is dispatched and step 7 runs (R156). -/
theorem writeSelected_real {P : List Byte} {w : Work} (hp : w.dev.rd.page ≠ allPages)
    (hn : w.dev.rd.page.toNat < c.numPages) :
    writeSelected g c P w =
      (finishWrite (dispatchWrite g c w.dev.rd.page.toNat P w).1, (dispatchWrite g c w.dev.rd.page.toNat P w).2) := by
  simp [writeSelected, writeOne, hp, Nat.not_le.2 hn]

/-- With an out-of-range page selected the write fails (R155). -/
theorem writeSelected_badPage {P : List Byte} {w : Work} (hp : w.dev.rd.page ≠ allPages)
    (hn : c.numPages ≤ w.dev.rd.page.toNat) :
    writeSelected g c P w = (((w.diag .rmBadPage).setPage 0).raiseCml 0, false) := by
  simp [writeSelected, writeOne, hp, hn]

/-! ### The read call, path by path -/

/-- A due read on a real page is dispatched there (R160, R161). -/
theorem readByteOf_real {code : Byte} {w : Work} (ho : w.dev.rd.outLen = 0) (hv : w.dev.rd.pagesValid = true)
    (hp : w.dev.rd.page ≠ allPages) (hn : w.dev.rd.page.toNat < c.numPages) :
    readByteOf g c code w =
      match (dispatchRead g c code w.dev.rd.page.toNat w).2 with
      | some b => ((dispatchRead g c code w.dev.rd.page.toNat w).1, b)
      | none => pop (dispatchRead g c code w.dev.rd.page.toNat w).1 := by
  rcases hd : dispatchRead g c code w.dev.rd.page.toNat w with ⟨w', _ | b⟩ <;>
    simp [readByteOf, readFresh, readIndex, ho, hv, hp, Nat.not_le.2 hn, hd]

/-- A due read with the all-pages selector is dispatched on page 0 after the fault (R161). -/
theorem readByteOf_allPages {code : Byte} {w : Work} (ho : w.dev.rd.outLen = 0) (hv : w.dev.rd.pagesValid = true)
    (hp : w.dev.rd.page = allPages) :
    readByteOf g c code w =
      match (dispatchRead g c code 0 ((w.diag .rmAllPagesRead).raiseCml 0)).2 with
      | some b => ((dispatchRead g c code 0 ((w.diag .rmAllPagesRead).raiseCml 0)).1, b)
      | none => pop (dispatchRead g c code 0 ((w.diag .rmAllPagesRead).raiseCml 0)).1 := by
  rcases hd : dispatchRead g c code 0 ((w.diag .rmAllPagesRead).raiseCml 0) with ⟨w', _ | b⟩ <;>
    simp [readByteOf, readFresh, readIndex, ho, hv, hp, hd]

/-- A due read with an out-of-range page (R161). -/
theorem readByteOf_badPage {code : Byte} {w : Work} (ho : w.dev.rd.outLen = 0) (hv : w.dev.rd.pagesValid = true)
    (hp : w.dev.rd.page ≠ allPages) (hn : c.numPages ≤ w.dev.rd.page.toNat) :
    readByteOf g c code w = ((((w.diag .rmBadPage).setPage 0).raiseCml 0), 0xFF) := by
  simp [readByteOf, readFresh, readIndex, ho, hv, hp, hn, errByte]

/-- A read before the first write call (R160). -/
theorem readByteOf_unallocated {code : Byte} {w : Work} (ho : w.dev.rd.outLen = 0) (hv : w.dev.rd.pagesValid = false) :
    readByteOf g c code w = (w.diag .rmUnallocated, 0xFF) := by
  simp [readByteOf, ho, hv, errByte]

/-- A read with bytes staged (R160). -/
theorem readByteOf_staged {code : Byte} {w : Work} (ho : 0 < w.dev.rd.outLen) : readByteOf g c code w = pop w := by
  simp [readByteOf, ho]

/-! ### What a call keeps: the framer -/

@[simp] theorem rxUint_fr (P : List Byte) (k : Nat) (w : Work) : (rxUint P k w).1.dev = w.dev := by
  simp only [rxUint]; split <;> rfl

@[simp] theorem rxBlock_fr (idx : Nat) (f : StringField) (P : List Byte) (w : Work) :
    (rxBlock idx f P w).1.dev.fr = w.dev.fr := by
  unfold rxBlock; split <;> rfl

@[simp] theorem writeClass_fr (cls : CmdClass) (idx : Nat) (P : List Byte) (w : Work) :
    (writeClass cls idx P w).1.dev.fr = w.dev.fr := by
  cases cls <;> simp [writeClass]

@[simp] theorem dispatchWrite_fr (idx : Nat) (P : List Byte) (w : Work) :
    (dispatchWrite g c idx P w).1.dev.fr = w.dev.fr := by
  unfold dispatchWrite; split <;> simp

@[simp] theorem writeOne_fr (P : List Byte) (w : Work) : (writeOne g c P w).1.dev.fr = w.dev.fr := by
  unfold writeOne; split <;> simp

@[simp] theorem fanOut_fr (P : List Byte) (is : List Nat) (w : Work) : (fanOut g c P is w).dev.fr = w.dev.fr := by
  induction is generalizing w with
  | nil => rfl
  | cons i is ih => simp [fanOut, ih]

@[simp] theorem writeSelected_fr (P : List Byte) (w : Work) : (writeSelected g c P w).1.dev.fr = w.dev.fr := by
  unfold writeSelected; split <;> simp

/-- A write call does not touch the framer. -/
@[simp] theorem rmWrite_fr (P : List Byte) (w : Work) : (rmWrite g c P w).1.dev.fr = w.dev.fr := by
  cases P with
  | nil => rfl
  | cons code data =>
    by_cases hd : data = []
    · subst hd; simp [rmWrite_codeOnly]
    · by_cases hp : code = g.cmdPage
      · subst hp
        obtain ⟨v, rest, rfl⟩ := List.exists_cons_of_ne_nil hd
        simp [rmWrite_pageSelect]
      · simp [rmWrite_data _ _ _ hd hp]

@[simp] theorem readIndex_fr (w : Work) : (readIndex c w).1.dev.fr = w.dev.fr := by
  unfold readIndex; split <;> [simp; (split <;> simp)]

@[simp] theorem stageUint_fr (cap v n : Nat) (w : Work) : (stageUint cap v n w).dev.fr = w.dev.fr := stageBytes_fr _ _ _
@[simp] theorem stageUint_pg (cap v n : Nat) (w : Work) : (stageUint cap v n w).dev.pg = w.dev.pg := stageBytes_pg _ _ _
@[simp] theorem stageString_fr (cap : Nat) (str : List Byte) (w : Work) : (stageString cap str w).dev.fr = w.dev.fr :=
  stageBytes_fr _ _ _
@[simp] theorem stageString_pg (cap : Nat) (str : List Byte) (w : Work) : (stageString cap str w).dev.pg = w.dev.pg :=
  stageBytes_pg _ _ _

@[simp] theorem readClass_fr (cls : CmdClass) (idx : Nat) (w : Work) : (readClass g c cls idx w).1.dev.fr = w.dev.fr := by
  cases cls <;> simp [readClass]
@[simp] theorem readClass_pg (cls : CmdClass) (idx : Nat) (w : Work) : (readClass g c cls idx w).1.dev.pg = w.dev.pg := by
  cases cls <;> simp [readClass]

@[simp] theorem dispatchRead_fr (code : Byte) (idx : Nat) (w : Work) :
    (dispatchRead g c code idx w).1.dev.fr = w.dev.fr := by
  unfold dispatchRead; split <;> simp

/-- A read call does not touch the framer. -/
@[simp] theorem readByteOf_fr (code : Byte) (w : Work) : (readByteOf g c code w).1.dev.fr = w.dev.fr := by
  unfold readByteOf readFresh
  split
  · simp
  · split
    · dsimp only
      split
      · simp
      · split <;> simp
    · simp

/-! ### What a call keeps: the pages -/

/-- A property of the pages of a device that every single change of a call keeps, strings being at most `n` long. -/
structure PagesClosed (g : Config) (c : RegDevCfg) (n : Nat) (I : List Page → Prop) : Prop where
  raise : ∀ pg i, I pg → I (pg.modify i Page.raiseCml)
  clear : ∀ pg, I pg → I (pg.map Page.clearStatus)
  evaluate : ∀ pg, I pg → I (evaluatePages pg)
  byte : ∀ pg i e f v, e ∈ c.cmdTable → e.cls = .rwb f → I pg → I (pg.modify i fun p => p.setByte f v)
  word : ∀ pg i e f v, e ∈ c.cmdTable → e.cls = .rww f → I pg → I (pg.modify i fun p => p.setWord f v)
  summary : ∀ pg i v, I pg → I (pg.modify i fun p => p.setWord .statusWord v)
  string : ∀ pg i f v, v.length ≤ n → I pg → I (pg.modify i fun p => p.setString f v)
  hook : ∀ pg rd pg', c.hookWrite ≠ none ∨ c.hookRead ≠ none ∨ c.hookQuick ≠ none → rdShapeOk g c rd pg' = true →
    I pg → I pg'

namespace PagesClosed

variable {n : Nat} {I : List Page → Prop}

theorem afterHook (h : PagesClosed g c n I) (hk : c.hookWrite ≠ none ∨ c.hookRead ≠ none ∨ c.hookQuick ≠ none)
    (rd : RegModel) (pg : List Page) {w : Work} (hw : I w.dev.pg) : I (w.afterHook g c rd pg).dev.pg := by
  rcases w.afterHook_cases (g := g) (c := c) rd pg with e | ⟨hs, e⟩
  · rwa [e]
  · rw [e]; exact h.hook _ _ _ hk hs hw

theorem hookWrite (h : PagesClosed g c n I) (idx : Nat) (P : List Byte) {w : Work} (hw : I w.dev.pg) :
    I (hookWrite g c idx P w).dev.pg := by
  unfold Machine.hookWrite
  split
  · exact hw
  · exact h.afterHook (.inl (by simp [*])) _ _ hw

theorem hookRead (h : PagesClosed g c n I) (idx : Nat) {w : Work} (hw : I w.dev.pg) :
    I (hookRead g c idx w).1.dev.pg := by
  unfold Machine.hookRead
  split
  · exact hw
  · exact h.afterHook (.inr (.inl (by simp [*]))) _ _ hw

theorem rmQuick (h : PagesClosed g c n I) (read : Bool) {w : Work} (hw : I w.dev.pg) :
    I (rmQuick g c read w).dev.pg := by
  unfold Machine.rmQuick
  split
  · exact hw
  · exact h.afterHook (.inr (.inr (by simp [*]))) _ _ hw

theorem writeClass (h : PagesClosed g c n I) {e : CmdEntry} (he : e ∈ c.cmdTable) (idx : Nat) (P : List Byte)
    (hP : P.length - 2 ≤ n) {w : Work} (hw : I w.dev.pg) : I (writeClass e.cls idx P w).1.dev.pg := by
  cases hc : e.cls with
  | rwb f => simpa [Machine.writeClass] using h.byte _ idx e f _ he hc hw
  | rww f => simpa [Machine.writeClass] using h.word _ idx e f _ he hc hw
  | sb => simpa [Machine.writeClass] using h.summary _ idx _ hw
  | str f =>
    simp only [Machine.writeClass, rxBlock]
    split
    · exact h.string _ idx f _ (by simpa using hP) hw
    · exact hw
  | wo0 => exact hw
  | page => simpa [Machine.writeClass] using hw
  | rob f => simpa [Machine.writeClass] using h.raise _ idx hw
  | row f => simpa [Machine.writeClass] using h.raise _ idx hw
  | ro5 => simpa [Machine.writeClass] using h.raise _ idx hw
  | cap => simpa [Machine.writeClass] using h.raise _ idx hw
  | devid => simpa [Machine.writeClass] using h.raise _ idx hw

theorem writeOne (h : PagesClosed g c n I) (P : List Byte) (hP : P.length - 2 ≤ n) {w : Work} (hw : I w.dev.pg) :
    I (writeOne g c P w).1.dev.pg := by
  unfold Machine.writeOne
  split
  · simpa using h.raise _ 0 hw
  · simp only [finishWrite_pg, dispatchWrite]
    refine h.evaluate _ ?_
    split
    · exact h.hookWrite _ _ hw
    · exact h.writeClass (selectEntry_mem ‹_›) _ _ hP hw

theorem fanOut (h : PagesClosed g c n I) (P : List Byte) (hP : P.length - 2 ≤ n) (is : List Nat) {w : Work}
    (hw : I w.dev.pg) : I (fanOut g c P is w).dev.pg := by
  induction is generalizing w with
  | nil => exact hw
  | cons i is ih => exact ih (h.writeOne P hP (by simpa using hw))

/-- A write call keeps the property. -/
theorem rmWrite (h : PagesClosed g c n I) (P : List Byte) (hP : P.length - 2 ≤ n) {w : Work} (hw : I w.dev.pg) :
    I (rmWrite g c P w).1.dev.pg := by
  cases P with
  | nil => exact hw
  | cons code data =>
    have he : ∀ k, I (entered g code k w).dev.pg := by
      intro k
      rw [entered_pg]
      split
      · exact h.clear _ hw
      · exact hw
    by_cases hd : data = []
    · subst hd; rw [rmWrite_codeOnly]; exact he 1
    · by_cases hp : code = g.cmdPage
      · subst hp
        obtain ⟨v, rest, rfl⟩ := List.exists_cons_of_ne_nil hd
        rw [rmWrite_pageSelect]; simpa using he (rest.length + 2)
      · rw [rmWrite_data _ _ _ hd hp, writeSelected]
        split
        · simpa using h.fanOut _ hP _ (he _)
        · exact h.writeOne _ hP (he _)

/-- A read call keeps the property. -/
theorem readByteOf (h : PagesClosed g c n I) (code : Byte) {w : Work} (hw : I w.dev.pg) :
    I (readByteOf g c code w).1.dev.pg := by
  have hi : I (readIndex c w).1.dev.pg := by
    unfold readIndex
    split
    · simpa using h.raise _ 0 hw
    · split
      · simpa using h.raise _ 0 hw
      · exact hw
  have hr : ∀ idx, I (dispatchRead g c code idx (readIndex c w).1).1.dev.pg := by
    intro idx
    unfold dispatchRead
    split
    · simpa using h.hookRead idx hi
    · simpa using hi
  unfold Machine.readByteOf readFresh
  split
  · simpa using hw
  · split
    · dsimp only
      split
      · exact hi
      · split
        · exact hr _
        · simpa using hr _
    · exact hw

end PagesClosed

/-! ### What a call keeps: the widths of the register model -/

/-- The widths of R20 under capacity `cap`. -/
def RegModel.wf (cap : Nat) (rd : RegModel) : Prop := rd.outBuf.length = cap ∧ rd.outLen ≤ cap ∧ rd.inLen ≤ cap

theorem rdShapeOk_iff (rd : RegModel) (pg : List Page) :
    rdShapeOk g c rd pg = true ↔
      rd.wf g.bufCap ∧ pg.length = c.numPages ∧ ∀ p ∈ pg, Page.wf g.strMax p = true := by
  simp only [rdShapeOk, RegModel.wf, Bool.and_eq_true, decide_eq_true_eq, List.all_eq_true]
  tauto

namespace RegModel

theorem wf_afterHook (rd : RegModel) (pg : List Page) {w : Work} (hw : w.dev.rd.wf g.bufCap) :
    (w.afterHook g c rd pg).dev.rd.wf g.bufCap := by
  rcases w.afterHook_cases (g := g) (c := c) rd pg with e | ⟨hs, e⟩
  · rwa [e]
  · rw [e]; exact (rdShapeOk_iff rd pg).1 hs |>.1

theorem wf_hookWrite (idx : Nat) (P : List Byte) {w : Work} (hw : w.dev.rd.wf g.bufCap) :
    (hookWrite g c idx P w).dev.rd.wf g.bufCap := by
  unfold hookWrite; split <;> [exact hw; exact wf_afterHook _ _ hw]

theorem wf_hookRead (idx : Nat) {w : Work} (hw : w.dev.rd.wf g.bufCap) : (hookRead g c idx w).1.dev.rd.wf g.bufCap := by
  unfold hookRead; split <;> [exact hw; exact wf_afterHook _ _ hw]

theorem wf_rmQuick (read : Bool) {w : Work} (hw : w.dev.rd.wf g.bufCap) : (rmQuick g c read w).dev.rd.wf g.bufCap := by
  unfold rmQuick; split <;> [exact hw; exact wf_afterHook _ _ hw]

theorem wf_writeClass (cls : CmdClass) (idx : Nat) (P : List Byte) {w : Work} (hw : w.dev.rd.wf g.bufCap) :
    (writeClass cls idx P w).1.dev.rd.wf g.bufCap := by
  cases cls <;> simp only [writeClass, rxBlock] <;> first | exact hw | simpa using hw | (split <;> simpa using hw)

theorem wf_writeOne (P : List Byte) {w : Work} (hw : w.dev.rd.wf g.bufCap) :
    (writeOne g c P w).1.dev.rd.wf g.bufCap := by
  unfold writeOne
  split
  · simpa [RegModel.wf] using hw
  · have hd : (dispatchWrite g c w.dev.rd.page.toNat P w).1.dev.rd.wf g.bufCap := by
      unfold dispatchWrite; split <;> [exact wf_hookWrite _ _ hw; exact wf_writeClass _ _ _ hw]
    exact ⟨hd.1, hd.2.1, Nat.zero_le _⟩

theorem wf_fanOut (P : List Byte) (is : List Nat) {w : Work} (hw : w.dev.rd.wf g.bufCap) :
    (fanOut g c P is w).dev.rd.wf g.bufCap := by
  induction is generalizing w with
  | nil => exact hw
  | cons i is ih => exact ih (wf_writeOne P hw)

/-- A write call of at most `BUF_CAP` bytes keeps the widths. -/
theorem wf_rmWrite (P : List Byte) (hP : P.length ≤ g.bufCap) {w : Work} (hw : w.dev.rd.wf g.bufCap) :
    (rmWrite g c P w).1.dev.rd.wf g.bufCap := by
  cases P with
  | nil => exact hw
  | cons code data =>
    have he : ∀ k, k ≤ g.bufCap → (entered g code k w).dev.rd.wf g.bufCap := by
      intro k hk; rw [entered_rd]; exact ⟨hw.1, hw.2.1, hk⟩
    by_cases hd : data = []
    · subst hd; rw [rmWrite_codeOnly]; exact he 1 hP
    · by_cases hp : code = g.cmdPage
      · subst hp
        obtain ⟨v, rest, rfl⟩ := List.exists_cons_of_ne_nil hd
        rw [rmWrite_pageSelect]; exact he (rest.length + 2) hP
      · rw [rmWrite_data _ _ _ hd hp, writeSelected]
        split
        · exact wf_fanOut _ _ (he _ hP)
        · exact wf_writeOne _ (he _ hP)

theorem wf_stageBytes (bytes : List Byte) {w : Work} (hw : w.dev.rd.wf g.bufCap) :
    (stageBytes g.bufCap bytes w).dev.rd.wf g.bufCap := by
  rw [stageBytes_eq]
  obtain ⟨h1, -, h3⟩ := hw
  refine ⟨?_, ?_, h3⟩ <;> simp [h1]; omega

theorem wf_pop {w : Work} (hw : w.dev.rd.wf g.bufCap) : (pop w).1.dev.rd.wf g.bufCap := by
  unfold pop
  split
  · exact hw
  · exact ⟨hw.1, Nat.le_trans (Nat.sub_le _ _) hw.2.1, hw.2.2⟩

/-- A read call keeps the widths. -/
theorem wf_readByteOf (code : Byte) {w : Work} (hw : w.dev.rd.wf g.bufCap) :
    (readByteOf g c code w).1.dev.rd.wf g.bufCap := by
  have hi : (readIndex c w).1.dev.rd.wf g.bufCap := by
    unfold readIndex
    split
    · exact hw
    · split <;> exact hw
  have hr : ∀ idx, (dispatchRead g c code idx (readIndex c w).1).1.dev.rd.wf g.bufCap := by
    intro idx
    unfold dispatchRead
    split
    · exact wf_stageBytes _ (wf_hookRead idx hi)
    · rename_i e _
      cases e.cls <;> first | exact hi | exact wf_stageBytes _ hi
  unfold readByteOf readFresh
  split
  · exact wf_pop hw
  · split
    · dsimp only
      split
      · exact hi
      · split
        · exact hr _
        · exact wf_pop (hr _)
    · exact hw

end RegModel

end Sys2Proof.Machine
end

