-- ==== Sys2Proof/Laws/Commands.lean ====
section
/-! SUPPORT. The 48 command instructions: each is the access to its code; what a write and a read access end in. -/

namespace Sys2Proof.Machine

/-! ### An instruction of a list is the access to its code -/

theorem exec_commandRow {row : CommandRow} (h : row ∈ commandRows) (a : CmdAccess) (s : State) :
    exec (row.make a) s = commandAccess row.code a s := by
  simp only [commandRows, controlRows, statusRows, limitRows, readingRows, stringRows, List.cons_append, List.nil_append,
    List.mem_cons, List.not_mem_nil, or_false] at h
  rcases h with rfl | rfl | rfl | rfl | rfl | rfl | rfl | rfl | rfl | rfl | rfl | rfl | rfl | rfl | rfl | rfl | rfl | rfl |
    rfl | rfl | rfl | rfl | rfl | rfl | rfl | rfl | rfl | rfl | rfl | rfl | rfl | rfl | rfl | rfl | rfl | rfl | rfl | rfl |
    rfl | rfl | rfl | rfl | rfl | rfl | rfl | rfl | rfl | rfl <;> rfl

theorem exec_byteCommand {x : FieldCommand ByteField} (h : x ∈ byteCommands) (a : CmdAccess) (s : State) :
    exec (x.make a) s = commandAccess x.entry.code a s ∧ x.entry.cls = .rwb x.field := by
  simp only [byteCommands, List.mem_cons, List.not_mem_nil, or_false] at h
  rcases h with rfl | rfl | rfl | rfl | rfl | rfl | rfl | rfl <;> exact ⟨rfl, rfl⟩

theorem exec_wordCommand {x : FieldCommand WordField} (h : x ∈ wordCommands) (a : CmdAccess) (s : State) :
    exec (x.make a) s = commandAccess x.entry.code a s ∧ x.entry.cls = .rww x.field := by
  simp only [wordCommands, List.mem_cons, List.not_mem_nil, or_false] at h
  rcases h with rfl | rfl | rfl | rfl | rfl | rfl | rfl | rfl | rfl | rfl | rfl | rfl | rfl | rfl | rfl | rfl | rfl | rfl |
    rfl | rfl | rfl <;> exact ⟨rfl, rfl⟩

theorem exec_readingCommand {x : FieldCommand ReadingField} (h : x ∈ readingCommands) (a : CmdAccess) (s : State) :
    exec (x.make a) s = commandAccess x.entry.code a s ∧ x.entry.cls = .row (.reading x.field) := by
  simp only [readingCommands, List.mem_cons, List.not_mem_nil, or_false] at h
  rcases h with rfl | rfl | rfl | rfl | rfl | rfl | rfl <;> exact ⟨rfl, rfl⟩

theorem exec_stringCommand {x : FieldCommand StringField} (h : x ∈ stringCommands) (a : CmdAccess) (s : State) :
    exec (x.make a) s = commandAccess x.entry.code a s ∧ x.entry.cls = .str x.field := by
  simp only [stringCommands, List.mem_cons, List.not_mem_nil, or_false] at h
  rcases h with rfl | rfl | rfl | rfl | rfl | rfl <;> exact ⟨rfl, rfl⟩

theorem exec_readOnlyCommand {x : FieldCommand Unit} (h : x ∈ readOnlyCommands) (a : CmdAccess) (s : State) :
    exec (x.make a) s = commandAccess x.entry.code a s ∧ x.entry.cls.readOnly = true := by
  simp only [readOnlyCommands, List.mem_cons, List.not_mem_nil, or_false] at h
  rcases h with rfl | rfl | rfl | rfl | rfl | rfl | rfl | rfl | rfl | rfl <;> exact ⟨rfl, rfl⟩

theorem exec_gatedCommand {x : FieldCommand Unit} (h : x ∈ gatedCommands) (a : CmdAccess) (s : State) :
    exec (x.make a) s = commandAccess x.entry.code a s := by
  simp only [gatedCommands, List.mem_append, List.mem_map, List.mem_cons, List.not_mem_nil, or_false] at h
  rcases h with ((h | ⟨y, hy, rfl⟩) | ⟨y, hy, rfl⟩) | ⟨y, hy, rfl⟩
  · rcases h with rfl | rfl | rfl | rfl | rfl | rfl <;> rfl
  · exact (exec_wordCommand (List.mem_of_mem_drop hy) a s).1
  · exact (exec_readingCommand hy a s).1
  · exact (exec_stringCommand hy a s).1

/-- An instruction that a code and an access decode to is the access to that code (R64, R56). -/
theorem exec_of_decodeCommand {code : Byte} {a : CmdAccess} {i : Instr} (h : decodeCommand code a = .ok i) (s : State) :
    exec i s = commandAccess code a s := by
  unfold decodeCommand at h
  split at h
  · rename_i row hrow
    cases h
    have hc : row.code = code := by simpa using List.find?_some hrow
    rw [exec_commandRow (List.mem_of_find?_eq_some hrow), hc]
  · cases h

/-! ### The two accesses -/

theorem commandWrite_some {code : Byte} {d : NodeId} {data : List Byte} {s : State} {c : RegDevCfg} {r : RegDev}
    (h : s.regdev? d = some (c, r)) :
    commandAccess code (.write d data) s =
      let w := rmWrite s.cfg c (code :: data) { dev := r, diags := s.diags }
      .next (((s.setRegDev d c w.1.dev).setDiags w.1.diags).respond (.writeCall w.2)) := by
  simp [commandAccess, commandWrite, h]

theorem commandRead_some {code : Byte} {d : NodeId} {s : State} {c : RegDevCfg} {r : RegDev}
    (h : s.regdev? d = some (c, r)) :
    commandAccess code (.read d) s =
      let w := readByteOf s.cfg c code { dev := r, diags := s.diags }
      .next (((s.setRegDev d c w.1.dev).setDiags w.1.diags).respond (.readCall w.2)) := by
  simp [commandAccess, commandRead, h]

theorem commandWrite_regdev {code : Byte} {d : NodeId} {data : List Byte} {s : State} {c : RegDevCfg} {r : RegDev}
    (h : s.regdev? d = some (c, r)) {r' : RegDev} {ds : List Diag} {ok : Bool}
    (hw : rmWrite s.cfg c (code :: data) { dev := r, diags := s.diags } = ({ dev := r', diags := s.diags ++ ds }, ok)) :
    commandAccess code (.write d data) s = .next (s.wroteCall d c r' ds ok) := by
  simp [commandAccess, commandWrite, h, hw, State.wroteCall]

theorem commandRead_regdev {code : Byte} {d : NodeId} {s : State} {c : RegDevCfg} {r : RegDev}
    (h : s.regdev? d = some (c, r)) {r' : RegDev} {ds : List Diag} {b : Byte}
    (hr : readByteOf s.cfg c code { dev := r, diags := s.diags } = ({ dev := r', diags := s.diags ++ ds }, b)) :
    commandAccess code (.read d) s = .next (s.readCalled d c r' ds b) := by
  simp [commandAccess, commandRead, h, hr, State.readCalled]

theorem commandAccess_noRegDev {code : Byte} {a : CmdAccess} {s : State} (h : s.regdev? (deviceOf a) = none) :
    commandAccess code a s = .fault .noRegDev := by
  cases a <;> simp_all [commandAccess, commandWrite, commandRead, deviceOf]

/-- The dispatch of a write on the page selected, for a code that the write path does not test by value. -/
theorem rmWrite_ordinary {g : Config} {c : RegDevCfg} {code : Byte} {data : List Byte} {r : RegDev} {ds : List Diag}
    {idx : Nat} (hp : r.rd.page ≠ allPages) (hi : r.rd.page.toNat = idx) (hn : idx < c.numPages)
    (h1 : code ≠ g.cmdPage) (h2 : code ≠ g.cmdClearFaults) (hd : data ≠ []) :
    rmWrite g c (code :: data) { dev := r, diags := ds } =
      let w := latchCommand code (data.length + 1) { dev := r, diags := ds }
      (finishWrite (dispatchWrite g c idx (code :: data) w).1, (dispatchWrite g c idx (code :: data) w).2) := by
  subst hi
  rw [rmWrite_data _ _ _ hd h1, entered, if_neg h2]
  exact writeSelected_real hp hn

end Sys2Proof.Machine
end

