-- ==== Sys2Proof/Laws/Framer.lean ====
section
/-! SUPPORT. The framer: each handler in each mode (R121 to R130), and what the handlers keep. -/

namespace Sys2Proof.Machine

variable {g : Config} {c : RegDevCfg}

/-! ### Each handler in each mode -/

theorem frStartSend_idle {w : Work} (h : w.dev.fr.mode = .idle) : frStartSend w = w.setMode .write := by
  simp [frStartSend, h]

theorem frStartSend_other {w : Work} (h : w.dev.fr.mode ≠ .idle) : frStartSend w = confuse .frUnexpected w := by
  unfold frStartSend; split <;> simp_all

theorem frStartRecv_idle {w : Work} (h : w.dev.fr.mode = .idle) : frStartRecv g c w = w.setMode .recvOne := by
  simp [frStartRecv, h]

theorem frStartRecv_empty {w : Work} (h : w.dev.fr.mode = .write) (hl : w.dev.fr.len = 0) :
    frStartRecv g c w = confuse .frEmptyRead w := by
  simp [frStartRecv, h, hl]

theorem frStartRecv_flush {w : Work} (h : w.dev.fr.mode = .write) (hl : w.dev.fr.len ≠ 0) :
    frStartRecv g c w = (rmWrite g c w.dev.fr.payload w).1.setMode .read := by
  simp [frStartRecv, h, hl]

theorem frStartRecv_other {w : Work} (h : w.dev.fr.mode ≠ .idle) (h' : w.dev.fr.mode ≠ .write) :
    frStartRecv g c w = confuse .frUnexpected w := by
  unfold frStartRecv; split <;> simp_all

theorem frNack_read {w : Work} (h : w.dev.fr.mode = .read) : frNack w = w.setMode .done := by simp [frNack, h]

theorem frNack_done {w : Work} (h : w.dev.fr.mode = .done) : frNack w = w := by simp [frNack, h]

theorem frNack_other {w : Work} (h : w.dev.fr.mode ≠ .read) (h' : w.dev.fr.mode ≠ .done) :
    frNack w = confuse .frUnexpected w := by
  unfold frNack; split <;> simp_all

theorem frSend_write {w : Work} {v : Byte} (h : w.dev.fr.mode = .write) (hl : w.dev.fr.len < g.bufCap) :
    frSend g v w = w.mapFr fun fr => { fr with buf := fr.buf.set fr.len v, len := fr.len + 1 } := by
  simp [frSend, h, hl]

theorem frSend_full {w : Work} {v : Byte} (h : w.dev.fr.mode = .write) (hl : g.bufCap ≤ w.dev.fr.len) :
    frSend g v w = w.diag .frOverflow := by
  simp [frSend, h, Nat.not_lt.2 hl]

theorem frSend_other {w : Work} {v : Byte} (h : w.dev.fr.mode ≠ .write) : frSend g v w = confuse .frUnexpected w := by
  unfold frSend; split <;> simp_all

theorem frRecv_one {w : Work} (h : w.dev.fr.mode = .recvOne) :
    frRecv g c w = ((rmReadByte g c w).1.setMode .done, (rmReadByte g c w).2) := by
  simp [frRecv, h]

theorem frRecv_read {w : Work} (h : w.dev.fr.mode = .read) : frRecv g c w = rmReadByte g c w := by simp [frRecv, h]

theorem frRecv_other {w : Work} (h : w.dev.fr.mode ≠ .recvOne) (h' : w.dev.fr.mode ≠ .read) :
    frRecv g c w = (confuse .frUnexpected w, 0xFF) := by
  unfold frRecv; split <;> simp_all [errByte]

/-- FINISH in an open mode with a payload runs one write call (R130). -/
theorem frFinish_flush {w : Work} (h : w.dev.fr.mode = .write ∨ w.dev.fr.mode = .read) (hl : w.dev.fr.len ≠ 0) :
    frFinish g c w = (rmWrite g c w.dev.fr.payload w).1.mapFr fun _ => Framer.idle g.bufCap := by
  rcases h with h | h <;> simp [frFinish, frClose, h, hl]

/-- FINISH without a payload, or in a mode that is not open, makes no write call (R130). -/
theorem frFinish_close {w : Work} (hq : c.hookQuick = none)
    (h : w.dev.fr.len = 0 ∨ w.dev.fr.mode = .idle ∨ w.dev.fr.mode = .done ∨ w.dev.fr.mode = .confused) :
    frFinish g c w = w.mapFr fun _ => Framer.idle g.bufCap := by
  unfold frFinish
  cases hm : w.dev.fr.mode <;> simp_all [frClose, rmQuick_default hq]

/-- FINISH leaves the framer idle and empty, in every mode (R130). -/
@[simp] theorem frFinish_fr (w : Work) : (frFinish g c w).dev.fr = Framer.idle g.bufCap := rfl

/-! ### A confused framer (R136) -/

@[simp] theorem confuse_dev (d : Diag) (w : Work) :
    (confuse d w).dev = { w.dev with fr := { w.dev.fr with mode := .confused } } := rfl
@[simp] theorem confuse_diags (d : Diag) (w : Work) : (confuse d w).diags = w.diags ++ [d] := rfl

theorem RegDev.confused_self {r : RegDev} (h : r.fr.mode = .confused) :
    { r with fr := { r.fr with mode := .confused } } = r := by
  obtain ⟨⟨m, b, l⟩, rd, pg⟩ := r
  simp only at h
  rw [h]

/-- A confused device ignores every event but FINISH. -/
theorem frEvent_confused {e : SlaveEvent} (he : e ≠ .finish) {w : Work} (h : w.dev.fr.mode = .confused) :
    (frEvent g c e w).dev = w.dev := by
  cases e with
  | startSend => simp [frEvent, frStartSend_other, h, RegDev.confused_self h]
  | startRecv => simp [frEvent, frStartRecv_other, h, RegDev.confused_self h]
  | nack => simp [frEvent, frNack_other, h, RegDev.confused_self h]
  | finish => exact absurd rfl he

theorem frSend_confused {v : Byte} {w : Work} (h : w.dev.fr.mode = .confused) : (frSend g v w).dev = w.dev := by
  simp [frSend_other, h, RegDev.confused_self h]

theorem frRecv_confused {w : Work} (h : w.dev.fr.mode = .confused) : (frRecv g c w).1.dev = w.dev := by
  simp [frRecv_other, h, RegDev.confused_self h]

/-! ### What the handlers keep -/

/-- A framer that is well-formed in any mode but READ, IDLE and RECV_ONE is so in each of WRITE, DONE and CONFUSED. -/
theorem Framer.wf_setMode {cap : Nat} {fr : Framer} (h : fr.wf cap = true) (m : FrMode)
    (hm : m = .write ∨ m = .done ∨ m = .confused ∨ (m = .recvOne ∧ fr.len = 0) ∨ (m = .read ∧ fr.len ≠ 0)) :
    ({ fr with mode := m } : Framer).wf cap = true := by
  simp only [Framer.wf, Bool.and_eq_true, decide_eq_true_eq] at h ⊢
  refine ⟨h.1, ?_⟩
  rcases hm with rfl | rfl | rfl | ⟨rfl, hl⟩ | ⟨rfl, hl⟩
  · rfl
  · rfl
  · rfl
  · simpa using hl
  · simpa using Nat.pos_of_ne_zero hl

theorem Framer.wf_idle (cap : Nat) : (Framer.idle cap).wf cap = true := by
  simp [Framer.idle, Framer.wf]

/-- Appending a byte keeps the framer well-formed (R124). -/
theorem Framer.wf_append {cap : Nat} {fr : Framer} (h : fr.wf cap = true) (hm : fr.mode = .write) (hl : fr.len < cap)
    (v : Byte) : ({ fr with buf := fr.buf.set fr.len v, len := fr.len + 1 } : Framer).wf cap = true := by
  simp only [Framer.wf, Bool.and_eq_true, decide_eq_true_eq] at h ⊢
  obtain ⟨⟨⟨h1, h2⟩, h3⟩, -⟩ := h
  refine ⟨⟨⟨by simpa using h1, hl⟩, ?_⟩, by simp [hm]⟩
  rw [List.drop_set_of_lt (by omega)]
  have := congrArg (List.drop 1) h3
  rw [List.drop_drop, List.drop_replicate] at this
  simpa [Nat.sub_sub] using this

/-- The number of bytes delivered at a flush. -/
theorem Framer.payload_length {cap : Nat} {fr : Framer} (h : fr.wf cap = true) : fr.payload.length = fr.len := by
  simp only [Framer.wf, Bool.and_eq_true, decide_eq_true_eq] at h
  simp [Framer.payload, h.1.1.1, h.1.1.2]

/-- `len` is within the buffer (R19). -/
theorem Framer.len_le {cap : Nat} {fr : Framer} (h : fr.wf cap = true) : fr.len ≤ cap := by
  simp only [Framer.wf, Bool.and_eq_true, decide_eq_true_eq] at h
  exact h.1.1.2

/-! ### The state of a REGDEV keeps its widths -/

/-- The pages of a REGDEV with the widths of R21 are a property every change of a call keeps. -/
theorem pagesClosed_wf : PagesClosed g c g.strMax
    (fun pg => pg.length = c.numPages ∧ ∀ p ∈ pg, Page.wf g.strMax p = true) := by
  have hmod : ∀ (f : Page → Page), (∀ p, Page.wf g.strMax p = true → Page.wf g.strMax (f p) = true) → ∀ (pg : List Page) (i : Nat),
      (pg.length = c.numPages ∧ ∀ p ∈ pg, Page.wf g.strMax p = true) →
      (pg.modify i f).length = c.numPages ∧ ∀ p ∈ pg.modify i f, Page.wf g.strMax p = true := by
    intro f hf pg i h
    refine ⟨by simpa using h.1, fun p hp => ?_⟩
    obtain ⟨k, hk⟩ := List.getElem?_of_mem hp
    rw [List.getElem?_modify] at hk
    obtain ⟨q, hq, rfl⟩ := Option.map_eq_some_iff.1 hk
    have hq' := h.2 q (List.mem_of_getElem? hq)
    split
    · exact hf q hq'
    · exact hq'
  refine ⟨?_, ?_, ?_, ?_, ?_, ?_, ?_, ?_⟩
  · exact fun pg i => hmod Page.raiseCml (fun p h => h) pg i
  · intro pg h
    refine ⟨by simpa using h.1, fun p hp => ?_⟩
    obtain ⟨q, hq, rfl⟩ := List.mem_map.1 hp
    exact h.2 q hq
  · intro pg h
    refine ⟨by simpa using h.1, fun p hp => ?_⟩
    obtain ⟨q, hq, rfl⟩ := List.mem_map.1 hp
    rw [Page.wf_evaluateIfOn]; exact h.2 q hq
  · intro pg i e f v _ _
    exact hmod _ (fun p h => by simpa [Page.wf] using h) pg i
  · intro pg i e f v _ _
    exact hmod _ (fun p h => by simpa [Page.wf] using h) pg i
  · intro pg i v
    exact hmod _ (fun p h => by simpa [Page.wf] using h) pg i
  · intro pg i f v hv
    refine hmod _ (fun p h => ?_) pg i
    simp only [Page.wf, Bool.and_eq_true, decide_eq_true_eq] at h ⊢
    cases f <;> simp only [Page.setString, MfrInfo.set] <;> tauto
  · intro pg rd pg' _ hs _
    exact ((rdShapeOk_iff rd pg').1 hs).2

theorem RegDev.wf_iff (r : RegDev) :
    r.wf g c = true ↔ r.fr.wf g.bufCap = true ∧ r.rd.wf g.bufCap ∧
      (r.pg.length = c.numPages ∧ ∀ p ∈ r.pg, Page.wf g.strMax p = true) := by
  rw [RegDev.wf, Bool.and_eq_true, rdShapeOk_iff]

/-- A write call of a payload that fits keeps the widths. -/
theorem RegDev.wf_rmWrite {w : Work} (P : List Byte) (hP : P.length ≤ g.bufCap) (h : w.dev.wf g c = true) :
    (rmWrite g c P w).1.dev.wf g c = true := by
  rw [RegDev.wf_iff] at h ⊢
  exact ⟨by simpa using h.1, RegModel.wf_rmWrite P hP h.2.1,
    pagesClosed_wf.rmWrite P (by simp only [Config.strMax]; omega) h.2.2⟩

/-- A read call keeps the widths. -/
theorem RegDev.wf_readByteOf {w : Work} (code : Byte) (h : w.dev.wf g c = true) :
    (readByteOf g c code w).1.dev.wf g c = true := by
  rw [RegDev.wf_iff] at h ⊢
  exact ⟨by simpa using h.1, RegModel.wf_readByteOf code h.2.1, pagesClosed_wf.readByteOf code h.2.2⟩

theorem RegDev.wf_rmQuick {w : Work} (read : Bool) (h : w.dev.wf g c = true) : (rmQuick g c read w).dev.wf g c = true := by
  rw [RegDev.wf_iff] at h ⊢
  exact ⟨by simpa using h.1, RegModel.wf_rmQuick read h.2.1, pagesClosed_wf.rmQuick read h.2.2⟩

/-- A change of the framer to a well-formed one keeps the widths. -/
theorem RegDev.wf_mapFr {w : Work} (f : Framer → Framer) (hf : (f w.dev.fr).wf g.bufCap = true) (h : w.dev.wf g c = true) :
    (w.mapFr f).dev.wf g c = true := by
  rw [RegDev.wf_iff] at h ⊢
  exact ⟨hf, h.2⟩

theorem RegDev.wf_fr {w : Work} (h : w.dev.wf g c = true) : w.dev.fr.wf g.bufCap = true :=
  ((RegDev.wf_iff _).1 h).1

theorem RegDev.wf_confuse {w : Work} (d : Diag) (h : w.dev.wf g c = true) : (confuse d w).dev.wf g c = true :=
  RegDev.wf_mapFr _ (Framer.wf_setMode (RegDev.wf_fr h) _ (.inr (.inr (.inl rfl)))) h

/-- Every event keeps the widths (R121 to R130). -/
theorem RegDev.wf_frEvent {w : Work} (e : SlaveEvent) (h : w.dev.wf g c = true) : (frEvent g c e w).dev.wf g c = true := by
  have hf := RegDev.wf_fr h
  have hlen : w.dev.fr.payload.length ≤ g.bufCap := by
    rw [Framer.payload_length hf]; exact Framer.len_le hf
  cases e with
  | startSend =>
    by_cases hm : w.dev.fr.mode = .idle
    · simp only [frEvent, frStartSend_idle hm]
      exact RegDev.wf_mapFr _ (Framer.wf_setMode hf _ (.inl rfl)) h
    · simp only [frEvent, frStartSend_other hm]
      exact RegDev.wf_confuse _ h
  | startRecv =>
    simp only [frEvent]
    by_cases hi : w.dev.fr.mode = .idle
    · rw [frStartRecv_idle hi]
      have hl : w.dev.fr.len = 0 := by
        simp only [Framer.wf, hi, Bool.and_eq_true, decide_eq_true_eq] at hf
        exact hf.2
      exact RegDev.wf_mapFr _ (Framer.wf_setMode hf _ (.inr (.inr (.inr (.inl ⟨rfl, hl⟩))))) h
    · by_cases hw : w.dev.fr.mode = .write
      · by_cases hl : w.dev.fr.len = 0
        · rw [frStartRecv_empty hw hl]; exact RegDev.wf_confuse _ h
        · rw [frStartRecv_flush hw hl]
          refine RegDev.wf_mapFr _ (Framer.wf_setMode ?_ _ ?_) (RegDev.wf_rmWrite _ hlen h)
          · simpa using hf
          · simp [hl]
      · rw [frStartRecv_other hi hw]; exact RegDev.wf_confuse _ h
  | nack =>
    simp only [frEvent]
    by_cases hr : w.dev.fr.mode = .read
    · rw [frNack_read hr]; exact RegDev.wf_mapFr _ (Framer.wf_setMode hf _ (.inr (.inl rfl))) h
    · by_cases hd : w.dev.fr.mode = .done
      · rw [frNack_done hd]; exact h
      · rw [frNack_other hr hd]; exact RegDev.wf_confuse _ h
  | finish =>
    simp only [frEvent, frFinish]
    refine RegDev.wf_mapFr _ (Framer.wf_idle _) ?_
    have hclose : ∀ b, (frClose g c b w).dev.wf g c = true := by
      intro b
      unfold frClose
      split
      · exact RegDev.wf_rmQuick b h
      · exact RegDev.wf_rmWrite _ hlen h
    split
    · exact hclose false
    · exact hclose true
    · exact hclose true
    · exact h
    · exact h
    · exact h

theorem RegDev.wf_frSend {w : Work} (v : Byte) (h : w.dev.wf g c = true) : (frSend g v w).dev.wf g c = true := by
  by_cases hm : w.dev.fr.mode = .write
  · by_cases hl : w.dev.fr.len < g.bufCap
    · rw [frSend_write hm hl]; exact RegDev.wf_mapFr _ (Framer.wf_append (RegDev.wf_fr h) hm hl v) h
    · rw [frSend_full hm (by omega)]; exact h
  · rw [frSend_other hm]; exact RegDev.wf_confuse _ h

theorem RegDev.wf_frRecv {w : Work} (h : w.dev.wf g c = true) : (frRecv g c w).1.dev.wf g c = true := by
  by_cases h1 : w.dev.fr.mode = .recvOne
  · rw [frRecv_one h1]
    have h' := RegDev.wf_readByteOf w.dev.rd.cmd h
    exact RegDev.wf_mapFr _ (Framer.wf_setMode (RegDev.wf_fr h') _ (.inr (.inl rfl))) h'
  · by_cases h2 : w.dev.fr.mode = .read
    · rw [frRecv_read h2]; exact RegDev.wf_readByteOf _ h
    · rw [frRecv_other h1 h2]; exact RegDev.wf_confuse _ h

end Sys2Proof.Machine
end

