-- ==== Sys2Proof/Laws/Diagnostics.lean ====
section
/-! SUPPORT. No rule reads the diagnostics (R320): a call does the same after any diagnostics and only appends its own. So a
slave is served independently of what the slaves before it emitted (R53). -/

namespace Sys2Proof.Machine

variable {g : Config} {c : RegDevCfg}

/-- A REGDEV being served in a step that has emitted `ds` before. -/
def Work.after (ds : List Diag) (w : Work) : Work := { w with diags := ds ++ w.diags }

/-! ### Parts of a call -/

@[simp] theorem Work.after_dev (ds : List Diag) (w : Work) : (w.after ds).dev = w.dev := rfl
@[simp] theorem Work.after_diags (ds : List Diag) (w : Work) : (w.after ds).diags = ds ++ w.diags := rfl
@[simp] theorem Work.after_diag (ds : List Diag) (c : Diag) (w : Work) : (w.after ds).diag c = (w.diag c).after ds := by
  simp [Work.after, Work.diag]
@[simp] theorem Work.after_mapFr (ds : List Diag) (f : Framer → Framer) (w : Work) :
    (w.after ds).mapFr f = (w.mapFr f).after ds := rfl
@[simp] theorem Work.after_mapRd (ds : List Diag) (f : RegModel → RegModel) (w : Work) :
    (w.after ds).mapRd f = (w.mapRd f).after ds := rfl
@[simp] theorem Work.after_modifyPage (ds : List Diag) (p : Nat) (f : Page → Page) (w : Work) :
    (w.after ds).modifyPage p f = (w.modifyPage p f).after ds := rfl
@[simp] theorem Work.after_setPage (ds : List Diag) (v : Byte) (w : Work) :
    (w.after ds).setPage v = (w.setPage v).after ds := rfl
@[simp] theorem Work.after_setMode (ds : List Diag) (m : FrMode) (w : Work) :
    (w.after ds).setMode m = (w.setMode m).after ds := rfl
@[simp] theorem Work.after_raiseCml (ds : List Diag) (p : Nat) (w : Work) :
    (w.after ds).raiseCml p = (w.raiseCml p).after ds := rfl
@[simp] theorem Work.after_pageAt (ds : List Diag) (p : Nat) (w : Work) : (w.after ds).pageAt p = w.pageAt p := rfl
@[simp] theorem Work.after_afterHook (ds : List Diag) (rd : RegModel) (pg : List Page) (w : Work) :
    (w.after ds).afterHook g c rd pg = (w.afterHook g c rd pg).after ds := by
  unfold Work.afterHook; split <;> rfl

@[simp] theorem selectEntry_after (ds : List Diag) (code : Byte) (idx : Nat) (w : Work) :
    selectEntry c code idx (w.after ds) = selectEntry c code idx w := rfl

@[simp] theorem hookWrite_after (ds : List Diag) (idx : Nat) (P : List Byte) (w : Work) :
    hookWrite g c idx P (w.after ds) = (hookWrite g c idx P w).after ds := by
  unfold hookWrite; split <;> simp
@[simp] theorem hookRead_after (ds : List Diag) (idx : Nat) (w : Work) :
    hookRead g c idx (w.after ds) = ((hookRead g c idx w).1.after ds, (hookRead g c idx w).2) := by
  unfold hookRead; split <;> simp
@[simp] theorem rmQuick_after (ds : List Diag) (read : Bool) (w : Work) :
    rmQuick g c read (w.after ds) = (rmQuick g c read w).after ds := by
  unfold rmQuick; split <;> simp

@[simp] theorem rxUint_after (ds : List Diag) (P : List Byte) (k : Nat) (w : Work) :
    rxUint P k (w.after ds) = ((rxUint P k w).1.after ds, (rxUint P k w).2) := by
  simp only [rxUint]; split <;> simp
@[simp] theorem rxBlock_after (ds : List Diag) (idx : Nat) (f : StringField) (P : List Byte) (w : Work) :
    rxBlock idx f P (w.after ds) = ((rxBlock idx f P w).1.after ds, (rxBlock idx f P w).2) := by
  unfold rxBlock; split <;> simp
@[simp] theorem stageBytes_after (ds : List Diag) (cap : Nat) (bytes : List Byte) (w : Work) :
    stageBytes cap bytes (w.after ds) = (stageBytes cap bytes w).after ds := by
  unfold stageBytes; split <;> simp
@[simp] theorem stageUint_after (ds : List Diag) (cap v n : Nat) (w : Work) :
    stageUint cap v n (w.after ds) = (stageUint cap v n w).after ds := stageBytes_after ..
@[simp] theorem stageString_after (ds : List Diag) (cap : Nat) (str : List Byte) (w : Work) :
    stageString cap str (w.after ds) = (stageString cap str w).after ds := stageBytes_after ..
@[simp] theorem pop_after (ds : List Diag) (w : Work) : pop (w.after ds) = ((pop w).1.after ds, (pop w).2) := by
  by_cases h : w.dev.rd.outLen = 0 <;> simp [pop, h]

/-! ### The write call -/

@[simp] theorem writeClass_after (ds : List Diag) (cls : CmdClass) (idx : Nat) (P : List Byte) (w : Work) :
    writeClass cls idx P (w.after ds) = ((writeClass cls idx P w).1.after ds, (writeClass cls idx P w).2) := by
  cases cls <;> simp [writeClass]
@[simp] theorem dispatchWrite_after (ds : List Diag) (idx : Nat) (P : List Byte) (w : Work) :
    dispatchWrite g c idx P (w.after ds) = ((dispatchWrite g c idx P w).1.after ds, (dispatchWrite g c idx P w).2) := by
  simp only [dispatchWrite, Work.after_dev, selectEntry_after]; split <;> simp
@[simp] theorem finishWrite_after (ds : List Diag) (w : Work) : finishWrite (w.after ds) = (finishWrite w).after ds := rfl
@[simp] theorem writeOne_after (ds : List Diag) (P : List Byte) (w : Work) :
    writeOne g c P (w.after ds) = ((writeOne g c P w).1.after ds, (writeOne g c P w).2) := by
  by_cases h : c.numPages ≤ w.dev.rd.page.toNat <;> simp [writeOne, h]
@[simp] theorem fanOut_after (ds : List Diag) (P : List Byte) (is : List Nat) (w : Work) :
    fanOut g c P is (w.after ds) = (fanOut g c P is w).after ds := by
  induction is generalizing w with
  | nil => rfl
  | cons i is ih => simp [fanOut, ih]
@[simp] theorem writeSelected_after (ds : List Diag) (P : List Byte) (w : Work) :
    writeSelected g c P (w.after ds) = ((writeSelected g c P w).1.after ds, (writeSelected g c P w).2) := by
  by_cases h : w.dev.rd.page = allPages <;> simp [writeSelected, h]
@[simp] theorem entered_after (ds : List Diag) (code : Byte) (n : Nat) (w : Work) :
    entered g code n (w.after ds) = (entered g code n w).after ds := by
  unfold entered; split <;> rfl
theorem rmWrite_after (ds : List Diag) (P : List Byte) (w : Work) :
    rmWrite g c P (w.after ds) = ((rmWrite g c P w).1.after ds, (rmWrite g c P w).2) := by
  cases P with
  | nil => simp [rmWrite]
  | cons code data =>
    by_cases hd : data = []
    · subst hd; simp [rmWrite_codeOnly]
    · by_cases hp : code = g.cmdPage
      · subst hp
        obtain ⟨v, rest, rfl⟩ := List.exists_cons_of_ne_nil hd
        simp only [rmWrite_pageSelect, entered]
        split <;> simp [Work.after, Work.setPage, Work.mapRd, latchCommand, clearFaults, Work.mapPages]
      · simp [rmWrite_data _ _ _ hd hp]

/-! ### The read call -/

@[simp] theorem readIndex_after (ds : List Diag) (w : Work) :
    readIndex c (w.after ds) = ((readIndex c w).1.after ds, (readIndex c w).2) := by
  by_cases h : w.dev.rd.page = allPages <;> by_cases h' : c.numPages ≤ w.dev.rd.page.toNat <;> simp [readIndex, h, h']
@[simp] theorem readClass_after (ds : List Diag) (cls : CmdClass) (idx : Nat) (w : Work) :
    readClass g c cls idx (w.after ds) = ((readClass g c cls idx w).1.after ds, (readClass g c cls idx w).2) := by
  cases cls <;> simp [readClass]
@[simp] theorem dispatchRead_after (ds : List Diag) (code : Byte) (idx : Nat) (w : Work) :
    dispatchRead g c code idx (w.after ds) =
      ((dispatchRead g c code idx w).1.after ds, (dispatchRead g c code idx w).2) := by
  simp only [dispatchRead, selectEntry_after]; split <;> simp
theorem readByteOf_after (ds : List Diag) (code : Byte) (w : Work) :
    readByteOf g c code (w.after ds) = ((readByteOf g c code w).1.after ds, (readByteOf g c code w).2) := by
  have hf : readFresh g c code (w.after ds) = ((readFresh g c code w).1.after ds, (readFresh g c code w).2) := by
    simp only [readFresh, readIndex_after]
    cases (readIndex c w).2 with
    | none => rfl
    | some idx =>
      simp only [dispatchRead_after]
      cases (dispatchRead g c code idx (readIndex c w).1).2 <;> simp
  by_cases ho : 0 < w.dev.rd.outLen <;> by_cases hv : w.dev.rd.pagesValid = true <;> simp [readByteOf, ho, hv, hf]

/-! ### The framer's handlers -/

@[simp] theorem confuse_after (ds : List Diag) (x : Diag) (w : Work) : confuse x (w.after ds) = (confuse x w).after ds := by
  simp [confuse]

/-- An event is served independently of the diagnostics before it. -/
theorem frEvent_after (ds : List Diag) (e : SlaveEvent) (w : Work) :
    frEvent g c e (w.after ds) = (frEvent g c e w).after ds := by
  cases e with
  | startSend => cases h : w.dev.fr.mode <;> simp [frEvent, frStartSend, h]
  | startRecv =>
    by_cases hl : w.dev.fr.len = 0 <;> cases h : w.dev.fr.mode <;> simp [frEvent, frStartRecv, h, hl, rmWrite_after]
  | nack => cases h : w.dev.fr.mode <;> simp [frEvent, frNack, h]
  | finish =>
    by_cases hl : w.dev.fr.len = 0 <;> cases h : w.dev.fr.mode <;>
      simp [frEvent, frFinish, frClose, h, hl, rmWrite_after]

theorem frSend_after (ds : List Diag) (v : Byte) (w : Work) : frSend g v (w.after ds) = (frSend g v w).after ds := by
  by_cases hl : w.dev.fr.len < g.bufCap <;> cases h : w.dev.fr.mode <;> simp [frSend, h, hl]

theorem frRecv_after (ds : List Diag) (w : Work) :
    frRecv g c (w.after ds) = ((frRecv g c w).1.after ds, (frRecv g c w).2) := by
  cases h : w.dev.fr.mode <;> simp [frRecv, rmReadByte, h, readByteOf_after]

end Sys2Proof.Machine
end

