-- ==== Sys2Proof/Laws/Engine.lean ====
section
/-! SUPPORT. The engine: one slave served (R80), all addressed slaves served in order (R53), and the bus scan (R82, R83). -/

namespace Sys2Proof.Machine

/-! ### One slave served -/

@[simp] theorem State.putServed_eq (s : State) (id : NodeId) (r : Device × List Diag) :
    s.putServed id r = (s.setDevice id r.1).setDiags r.2 := rfl

theorem State.eventTo_regdev {s : State} {d : NodeId} {c : RegDevCfg} {r : RegDev} (e : SlaveEvent)
    (h : s.regdev? d = some (c, r)) :
    s.eventTo e d =
      (s.setRegDev d c (frEvent s.cfg c e { dev := r, diags := s.diags }).dev).setDiags
        (frEvent s.cfg c e { dev := r, diags := s.diags }).diags := by
  obtain ⟨n, hn, hd⟩ := State.regdev?_eq_some.1 h
  simp [State.eventTo, hn, hd, Device.caps, Device.onEvent, State.setRegDev]

theorem State.sendTo_regdev {s : State} {d : NodeId} {c : RegDevCfg} {r : RegDev} (v : Byte)
    (h : s.regdev? d = some (c, r)) :
    s.sendTo v d =
      (s.setRegDev d c (frSend s.cfg v { dev := r, diags := s.diags }).dev).setDiags
        (frSend s.cfg v { dev := r, diags := s.diags }).diags := by
  obtain ⟨n, hn, hd⟩ := State.regdev?_eq_some.1 h
  simp [State.sendTo, hn, hd, Device.caps, Device.onSend, State.setRegDev]

theorem State.recvFrom_regdev {s : State} {d : NodeId} {c : RegDevCfg} {r : RegDev}
    (h : s.regdev? d = some (c, r)) :
    s.recvFrom d =
      ((s.setRegDev d c (frRecv s.cfg c { dev := r, diags := s.diags }).1.dev).setDiags
        (frRecv s.cfg c { dev := r, diags := s.diags }).1.diags, (frRecv s.cfg c { dev := r, diags := s.diags }).2) := by
  obtain ⟨n, hn, hd⟩ := State.regdev?_eq_some.1 h
  simp [State.recvFrom, hn, hd, Device.caps, Device.onRecv, State.setRegDev]

/-- What serving a slave is in general: nothing, or its device replaced and the diagnostics with it. -/
theorem State.eventTo_cases (e : SlaveEvent) (s : State) (id : NodeId) :
    s.eventTo e id = s ∨ ∃ n, s.node? id = some n ∧ n.dev.caps.event = true ∧
      s.eventTo e id = (s.setDevice id (n.dev.onEvent s.cfg e s.diags).1).setDiags (n.dev.onEvent s.cfg e s.diags).2 := by
  unfold State.eventTo
  cases h : s.node? id with
  | none => exact .inl rfl
  | some n =>
    by_cases hc : n.dev.caps.event = true
    · exact .inr ⟨n, rfl, hc, by simp [hc]⟩
    · exact .inl (by simp [hc])

theorem State.sendTo_cases (v : Byte) (s : State) (id : NodeId) :
    s.sendTo v id = s ∨ ∃ n, s.node? id = some n ∧ n.dev.caps.receive = true ∧
      s.sendTo v id = (s.setDevice id (n.dev.onSend s.cfg v s.diags).1).setDiags (n.dev.onSend s.cfg v s.diags).2 := by
  unfold State.sendTo
  cases h : s.node? id with
  | none => exact .inl rfl
  | some n =>
    by_cases hc : n.dev.caps.receive = true
    · exact .inr ⟨n, rfl, hc, by simp [hc]⟩
    · exact .inl (by simp [hc])

theorem State.recvFrom_cases (s : State) (id : NodeId) :
    (s.recvFrom id).1 = s ∨ ∃ n, s.node? id = some n ∧ n.dev.caps.send = true ∧
      (s.recvFrom id).1 = (s.setDevice id (n.dev.onRecv s.cfg s.diags).1.1).setDiags (n.dev.onRecv s.cfg s.diags).1.2 := by
  unfold State.recvFrom
  cases h : s.node? id with
  | none => exact .inl rfl
  | some n =>
    by_cases hc : n.dev.caps.send = true
    · exact .inr ⟨n, rfl, hc, by simp [hc]⟩
    · exact .inl (by simp [hc])

/-! ### All addressed slaves served -/

/-- A relation that is reflexive and transitive and that serving one slave respects holds over a whole round. -/
theorem State.eventAll_rel {R : State → State → Prop} (hr : ∀ s, R s s) (ht : ∀ a b c, R a b → R b c → R a c)
    (e : SlaveEvent) (ids : List NodeId) (h : ∀ s id, id ∈ ids → R s (s.eventTo e id)) (s : State) :
    R s (State.eventAll e ids s) := by
  induction ids generalizing s with
  | nil => exact hr s
  | cons id ids ih =>
    exact ht _ _ _ (h s id List.mem_cons_self) (ih (fun s i hi => h s i (List.mem_cons_of_mem _ hi)) _)

theorem State.sendAll_rel {R : State → State → Prop} (hr : ∀ s, R s s) (ht : ∀ a b c, R a b → R b c → R a c)
    (v : Byte) (ids : List NodeId) (h : ∀ s id, id ∈ ids → R s (s.sendTo v id)) (s : State) :
    R s (State.sendAll v ids s) := by
  induction ids generalizing s with
  | nil => exact hr s
  | cons id ids ih =>
    exact ht _ _ _ (h s id List.mem_cons_self) (ih (fun s i hi => h s i (List.mem_cons_of_mem _ hi)) _)

theorem State.recvAll_rel {R : State → State → Prop} (hr : ∀ s, R s s) (ht : ∀ a b c, R a b → R b c → R a c)
    (ids : List NodeId) (h : ∀ s id, id ∈ ids → R s (s.recvFrom id).1) (s : State) (acc : Byte) :
    R s (State.recvAll ids s acc).1 := by
  induction ids generalizing s acc with
  | nil => exact hr s
  | cons id ids ih =>
    exact ht _ _ _ (h s id List.mem_cons_self) (ih (fun s i hi => h s i (List.mem_cons_of_mem _ hi)) _ _)

/-- An invariant that serving one slave keeps is kept by a whole round. -/
theorem State.eventAll_inv {I : State → Prop} (e : SlaveEvent) (ids : List NodeId)
    (h : ∀ s id, id ∈ ids → I s → I (s.eventTo e id)) {s : State} (hs : I s) : I (State.eventAll e ids s) :=
  State.eventAll_rel (R := fun a b => I a → I b) (fun _ h => h) (fun _ _ _ f g h => g (f h)) e ids
    (fun s id hi => h s id hi) s hs

theorem State.sendAll_inv {I : State → Prop} (v : Byte) (ids : List NodeId)
    (h : ∀ s id, id ∈ ids → I s → I (s.sendTo v id)) {s : State} (hs : I s) : I (State.sendAll v ids s) :=
  State.sendAll_rel (R := fun a b => I a → I b) (fun _ h => h) (fun _ _ _ f g h => g (f h)) v ids
    (fun s id hi => h s id hi) s hs

theorem State.recvAll_inv {I : State → Prop} (ids : List NodeId)
    (h : ∀ s id, id ∈ ids → I s → I (s.recvFrom id).1) {s : State} (acc : Byte) (hs : I s) :
    I (State.recvAll ids s acc).1 :=
  State.recvAll_rel (R := fun a b => I a → I b) (fun _ h => h) (fun _ _ _ f g h => g (f h)) ids
    (fun s id hi => h s id hi) s acc hs

/-! ### Frames: serving slaves touches devices and diagnostics only -/

/-- Two states with the same configuration, bus, requests and response. -/
def SameShell (s t : State) : Prop := t.cfg = s.cfg ∧ t.bus = s.bus ∧ t.pending = s.pending ∧ t.resp = s.resp

theorem SameShell.refl (s : State) : SameShell s s := ⟨rfl, rfl, rfl, rfl⟩
theorem SameShell.trans (a b c : State) (h : SameShell a b) (h' : SameShell b c) : SameShell a c :=
  ⟨h'.1.trans h.1, h'.2.1.trans h.2.1, h'.2.2.1.trans h.2.2.1, h'.2.2.2.trans h.2.2.2⟩

theorem SameShell.setDevice (s : State) (id : NodeId) (d : Device) (ds : List Diag) :
    SameShell s ((s.setDevice id d).setDiags ds) := ⟨rfl, rfl, rfl, rfl⟩

theorem State.eventAll_shell (e : SlaveEvent) (ids : List NodeId) (s : State) : SameShell s (State.eventAll e ids s) := by
  refine State.eventAll_rel SameShell.refl SameShell.trans e ids (fun s id _ => ?_) s
  rcases s.eventTo_cases e id with h | ⟨n, -, -, h⟩ <;> rw [h]
  · exact .refl s
  · exact .setDevice ..

theorem State.sendAll_shell (v : Byte) (ids : List NodeId) (s : State) : SameShell s (State.sendAll v ids s) := by
  refine State.sendAll_rel SameShell.refl SameShell.trans v ids (fun s id _ => ?_) s
  rcases s.sendTo_cases v id with h | ⟨n, -, -, h⟩ <;> rw [h]
  · exact .refl s
  · exact .setDevice ..

theorem State.recvAll_shell (ids : List NodeId) (s : State) (acc : Byte) : SameShell s (State.recvAll ids s acc).1 := by
  refine State.recvAll_rel SameShell.refl SameShell.trans ids (fun s id _ => ?_) s acc
  rcases s.recvFrom_cases id with h | ⟨n, -, -, h⟩ <;> rw [h]
  · exact .refl s
  · exact .setDevice ..

/-- A slave that is not addressed keeps its record. -/
theorem State.node?_eventAll (e : SlaveEvent) {ids : List NodeId} {j : NodeId} (hj : j ∉ ids) (s : State) :
    (State.eventAll e ids s).node? j = s.node? j := by
  refine State.eventAll_rel (R := fun s t => t.node? j = s.node? j) (fun _ => rfl) (fun _ _ _ h h' => h'.trans h) e ids
    (fun s id hi => ?_) s
  rcases s.eventTo_cases e id with h | ⟨n, -, -, h⟩ <;> rw [h]
  exact s.node?_setDevice_other _ fun e => hj (e ▸ hi)

theorem State.node?_sendAll (v : Byte) {ids : List NodeId} {j : NodeId} (hj : j ∉ ids) (s : State) :
    (State.sendAll v ids s).node? j = s.node? j := by
  refine State.sendAll_rel (R := fun s t => t.node? j = s.node? j) (fun _ => rfl) (fun _ _ _ h h' => h'.trans h) v ids
    (fun s id hi => ?_) s
  rcases s.sendTo_cases v id with h | ⟨n, -, -, h⟩ <;> rw [h]
  exact s.node?_setDevice_other _ fun e => hj (e ▸ hi)

theorem State.node?_recvAll {ids : List NodeId} {j : NodeId} (hj : j ∉ ids) (s : State) (acc : Byte) :
    (State.recvAll ids s acc).1.node? j = s.node? j := by
  refine State.recvAll_rel (R := fun s t => t.node? j = s.node? j) (fun _ => rfl) (fun _ _ _ h h' => h'.trans h) ids
    (fun s id hi => ?_) s acc
  rcases s.recvFrom_cases id with h | ⟨n, -, -, h⟩ <;> rw [h]
  exact s.node?_setDevice_other _ fun e => hj (e ▸ hi)

/-! ### Serving a slave keeps its constant part -/

@[simp] theorem Device.onEvent_cfg (g : Config) (e : SlaveEvent) (ds : List Diag) (d : Device) :
    (d.onEvent g e ds).1.cfg = d.cfg := by cases d <;> rfl
@[simp] theorem Device.onSend_cfg (g : Config) (v : Byte) (ds : List Diag) (d : Device) :
    (d.onSend g v ds).1.cfg = d.cfg := by cases d <;> rfl
@[simp] theorem Device.onRecv_cfg (g : Config) (ds : List Diag) (d : Device) :
    (d.onRecv g ds).1.1.cfg = d.cfg := by cases d <;> rfl

/-- What the configuration says of a device depends on its constant part. -/
theorem Device.isMux_of_cfg {a b : Device} (h : a.cfg = b.cfg) : a.isMux = b.isMux := by
  cases a <;> cases b <;> simp_all [Device.cfg, Device.isMux]

theorem Device.configOk_of_cfg {g : Config} {a b : Device} (h : a.cfg = b.cfg) : a.configOk g = b.configOk g := by
  cases a <;> cases b <;> simp_all [Device.cfg, Device.configOk]

/-! ### The scan -/

/-- The accumulator of a scan is a prefix of its result; what is added does not depend on it (R82). -/
theorem scan_acc (s : State) (a : BusAddr) (b : Bool) :
    (∀ B acc, scanBus s a b B acc = (acc ++ (scanBus s a b B []).1, (scanBus s a b B []).2)) ∧
    (∀ C bits i acc, scanChans s a b bits i C acc =
      (acc ++ (scanChans s a b bits i C []).1, (scanChans s a b bits i C []).2)) := by
  suffices H : ∀ n, (∀ B : TopoBus, sizeOf B ≤ n → ∀ acc, scanBus s a b B acc =
        (acc ++ (scanBus s a b B []).1, (scanBus s a b B []).2)) ∧
      (∀ C : TopoChans, sizeOf C ≤ n → ∀ bits i acc, scanChans s a b bits i C acc =
        (acc ++ (scanChans s a b bits i C []).1, (scanChans s a b bits i C []).2)) from
    ⟨fun B => (H _).1 B (Nat.le_refl _), fun C => (H _).2 C (Nat.le_refl _)⟩
  have hadd : ∀ id acc, s.addIfClaims id a b acc = acc ++ s.addIfClaims id a b [] := by
    intro id acc; unfold State.addIfClaims; split <;> simp
  intro n
  induction n with
  | zero => exact ⟨fun B h => by cases B <;> simp at h, fun C h => by cases C <;> simp at h⟩
  | succ n ih =>
    constructor
    · intro B hB acc
      cases B with
      | empty => simp [scanBus]
      | slave id rest =>
        have hr : sizeOf rest ≤ n := by simp at hB; omega
        simp only [scanBus]
        rw [hadd id acc]
        split
        · rfl
        · rw [ih.1 rest hr (acc ++ _), ih.1 rest hr (s.addIfClaims id a b [])]; simp
      | mux id chans rest =>
        have hr : sizeOf rest ≤ n := by simp at hB; omega
        have hc : sizeOf chans ≤ n := by simp at hB; omega
        simp only [scanBus]
        rw [hadd id acc, ih.2 chans hc _ _ (acc ++ _), ih.2 chans hc _ _ (s.addIfClaims id a b [])]
        split
        · simp
        · rw [ih.1 rest hr (acc ++ _ ++ _), ih.1 rest hr (s.addIfClaims id a b [] ++ _)]; simp
    · intro C hC bits i acc
      cases C with
      | nil => simp [scanChans]
      | channel child rest =>
        have hr : sizeOf rest ≤ n := by simp at hC; omega
        have hc : sizeOf child ≤ n := by simp at hC; omega
        simp only [scanChans]
        split
        · rw [ih.1 child hc acc, ih.2 rest hr bits (i + 1) (acc ++ _), ih.2 rest hr bits (i + 1) (scanBus s a b child []).1]
          simp
        · exact ih.2 rest hr bits (i + 1) acc

end Sys2Proof.Machine
end

