-- ==== Sys2Proof/Laws/FanOut.lean ====
section
/-! SUPPORT. The all-pages write (R154): what the loop does when the dispatch does the same to every page. -/

namespace Sys2Proof.Machine

variable {g : Config} {c : RegDevCfg}

/-- One more page is one more change and evaluation. -/
theorem fannedOut_succ (n : Nat) (f : Page → Page) (pages : List Page) :
    fannedOut (n + 1) f pages = evaluatePages ((fannedOut n f pages).modify n f) := by
  simp [fannedOut, List.range_succ]

@[simp] theorem fannedOut_zero (f : Page → Page) (pages : List Page) : fannedOut 0 f pages = pages := rfl

/-- A loop over real pages, on each of which the dispatch changes the page by `f` and emits `ds`. The pages are known by a
property `Q` of their capability flags, which `f` leaves. -/
theorem fanOut_uniform {code : Byte} {P : List Byte} {f : Page → Page} {ds : List Diag} {Q : Page → Prop}
    (hQ : ∀ p p' : Page, p'.flags = p.flags → Q p → Q p') (hf : ∀ p, (f p).flags = p.flags)
    (hd : ∀ (i : Nat) (w : Work) (pg : Page), w.dev.rd.cmd = code → w.dev.pg[i]? = some pg → Q pg →
      (dispatchWrite g c i P w).1 = { dev := { w.dev with pg := w.dev.pg.modify i f }, diags := w.diags ++ ds })
    (hn : c.numPages ≤ 255) (is : List Nat) (his : ∀ i ∈ is, i < c.numPages) (w : Work) (hcmd : w.dev.rd.cmd = code)
    (hlen : w.dev.pg.length = c.numPages) (hex : ∀ pg ∈ w.dev.pg, Q pg) :
    fanOut g c P is w =
      { dev := { w.dev with
          rd := { w.dev.rd with
            page := (is.getLast?.map (BitVec.ofNat 8)).getD w.dev.rd.page
            inLen := if is = [] then w.dev.rd.inLen else 0 }
          pg := is.foldl (fun ps i => evaluatePages (ps.modify i f)) w.dev.pg }
        diags := w.diags ++ (is.map fun _ => ds).flatten } := by
  induction is generalizing w with
  | nil => simp [fanOut]
  | cons i is ih =>
    have hi : i < c.numPages := his i (by simp)
    have ht : (BitVec.ofNat 8 i).toNat = i := by simp; omega
    have h1 : (writeOne g c P (w.setPage (BitVec.ofNat 8 i))).1 =
        { dev := { w.dev with
            rd := { w.dev.rd with page := BitVec.ofNat 8 i, inLen := 0 }
            pg := evaluatePages (w.dev.pg.modify i f) }
          diags := w.diags ++ ds } := by
      obtain ⟨pg, hpg⟩ : ∃ pg, w.dev.pg[i]? = some pg := ⟨_, List.getElem?_eq_getElem (by omega)⟩
      have := hd i (w.setPage (BitVec.ofNat 8 i)) pg hcmd (by simpa using hpg) (hex pg (List.mem_of_getElem? hpg))
      simp only [writeOne, Work.setPage_rd, ht, Nat.not_le.2 hi, if_false, this]
      rfl
    rw [fanOut, h1, ih]
    · cases is with
      | nil => simp
      | cons j is => simp [List.getLast?_cons]
    · exact fun j hj => his j (by simp [hj])
    · exact hcmd
    · simpa using hlen
    · intro pg hpg
      simp only [evaluatePages, List.mem_map] at hpg
      obtain ⟨q, hq, rfl⟩ := hpg
      obtain ⟨k, hk⟩ := List.getElem?_of_mem hq
      rw [List.getElem?_modify] at hk
      simp only [Option.map_eq_map, Option.map_eq_some_iff] at hk
      obtain ⟨p, hp, rfl⟩ := hk
      refine hQ p _ ?_ (hex p (List.mem_of_getElem? hp))
      split <;> simp [hf]

/-- An all-pages write whose dispatch does the same to every page (R151, R154). -/
theorem rmWrite_allPages {code : Byte} {data : List Byte} {f : Page → Page} {ds : List Diag} {Q : Page → Prop} {r : RegDev}
    {ds₀ : List Diag} (hd : data ≠ []) (hp : code ≠ g.cmdPage) (hall : r.rd.page = allPages)
    (hlen : r.pg.length = c.numPages) (hn : c.numPages ≤ 255)
    (hQ : ∀ p p' : Page, p'.flags = p.flags → Q p → Q p') (hf : ∀ p, (f p).flags = p.flags)
    (hw : ∀ (i : Nat) (w : Work) (pg : Page), w.dev.rd.cmd = code → w.dev.pg[i]? = some pg → Q pg →
      (dispatchWrite g c i (code :: data) w).1 =
        { dev := { w.dev with pg := w.dev.pg.modify i f }, diags := w.diags ++ ds })
    (hex : ∀ pg ∈ r.pg, Q pg) :
    rmWrite g c (code :: data) { dev := r, diags := ds₀ } =
      ({ dev := { r with
          rd := { r.rd with
            pagesValid := true
            cmd := code
            inLen := if c.numPages = 0 then data.length + 1 else 0 }
          pg := fannedOut c.numPages f (if code = g.cmdClearFaults then r.pg.map Page.clearStatus else r.pg) }
         diags := ds₀ ++ (List.replicate c.numPages ds).flatten }, true) := by
  rw [rmWrite_data _ _ _ hd hp, writeSelected, if_pos (by simpa using hall),
    fanOut_uniform hQ hf hw hn (List.range c.numPages) (fun i hi => by simpa using hi)]
  · simp [Work.setPage, Work.mapRd, hall, List.map_const', fannedOut]
  · simp
  · rw [entered_pg]; split <;> simpa using hlen
  · intro pg hpg
    rw [entered_pg] at hpg
    split at hpg
    · obtain ⟨q, hq, rfl⟩ := List.mem_map.1 hpg
      exact hQ q _ rfl (hex q hq)
    · exact hex pg hpg

end Sys2Proof.Machine
end

