-- ==== Sys2Proof/Laws/Requests.lean ====
section
/-! SUPPORT. The wire requests while one REGDEV is addressed: the whole next state (R85, R87 to R90). -/

namespace Sys2Proof.Machine

variable {s : State} {d : NodeId} {c : RegDevCfg} {r : RegDev}

theorem startRequest_repeated (dir : Direction) (ho : s.bus.isOpen = true) (hcur : s.bus.cur = [d])
    (hr : s.regdev? d = some (c, r)) :
    startRequest s.bus.curAddr dir s =
      { s.setRegDev d c (frEvent s.cfg c (startEvent dir) { dev := r, diags := s.diags }).dev with
        bus := { s.bus with dir := dir }
        resp := .wire .ack 0
        diags := (frEvent s.cfg c (startEvent dir) { dev := r, diags := s.diags }).diags } := by
  have hr' : State.regdev? { s with bus := { s.bus with dir := dir } } d = some (c, r) := hr
  rw [startRequest, if_pos ho, startOpen, if_pos rfl, hcur, State.eventAll, State.eventAll, State.eventTo_regdev _ hr']
  rfl

theorem execTx_single (v : Byte) (ho : s.bus.isOpen = true) (hcur : s.bus.cur = [d]) (hr : s.regdev? d = some (c, r)) :
    exec (.tx v) s =
      .next { s.setRegDev d c (frSend s.cfg v { dev := r, diags := s.diags }).dev with
        resp := .wire .ack 0
        diags := (frSend s.cfg v { dev := r, diags := s.diags }).diags } := by
  rw [exec, execTx, if_pos ho, hcur, State.sendAll, State.sendAll, State.sendTo_regdev _ hr]
  rfl

theorem execRx_single (x : Byte) (ho : s.bus.isOpen = true) (hcur : s.bus.cur = [d]) (hr : s.regdev? d = some (c, r)) :
    exec (.rx x) s =
      .next { s.setRegDev d c (frRecv s.cfg c { dev := r, diags := s.diags }).1.dev with
        resp := .wire .ack (frRecv s.cfg c { dev := r, diags := s.diags }).2
        diags := (frRecv s.cfg c { dev := r, diags := s.diags }).1.diags } := by
  have hff : ∀ b : Byte, errByte &&& b = b := fun b => by rw [errByte]; exact BitVec.allOnes_and
  rw [exec, execRx, if_pos ho, hcur, State.recvAll, State.recvAll, State.recvFrom_regdev hr, hff]
  rfl

theorem execNack_single (x : Byte) (ho : s.bus.isOpen = true) (hcur : s.bus.cur = [d]) (hr : s.regdev? d = some (c, r)) :
    exec (.nack x) s =
      .next { s.setRegDev d c (frNack { dev := r, diags := s.diags }).dev with
        resp := .wire .ack 0
        diags := (frNack { dev := r, diags := s.diags }).diags } := by
  rw [exec, execNack, if_pos ho, hcur, State.eventAll, State.eventAll, State.eventTo_regdev _ hr]
  rfl

theorem execStop_single (x : Byte) (ho : s.bus.isOpen = true) (hcur : s.bus.cur = [d]) (hr : s.regdev? d = some (c, r)) :
    exec (.stop x) s =
      .next { s.setRegDev d c (frFinish s.cfg c { dev := r, diags := s.diags }).dev with
        bus := BusState.idle
        resp := .wire .ack 0
        diags := (frFinish s.cfg c { dev := r, diags := s.diags }).diags } := by
  rw [exec, execStop, if_pos ho, hcur, State.eventAll, State.eventAll, State.eventTo_regdev _ hr]
  rfl

/-! ### What a wire request is in general -/

/-- A wire request always answers a next state, and on an open bus it is one round over the addressed slaves. -/
theorem execStart_total (a : BusAddr) (s : State) :
    exec (.startSend a) s = .next (startRequest a .send s) ∧ exec (.startRecv a) s = .next (startRequest a .recv s) :=
  ⟨rfl, rfl⟩

end Sys2Proof.Machine
end

