-- ==== Sys2Proof/Laws/Rounds.lean ====
section
/-! SUPPORT. A round over the addressed slaves as a relation between node lists, the configuration as a constant of every
round, and the forms a wire request takes. -/

namespace Sys2Proof.Machine

/-! ### The scan finds nodes of the topology, each at most once (R82, R83) -/

theorem State.addIfClaims_nil (s : State) (id : NodeId) (a : BusAddr) (b : Bool) :
    s.addIfClaims id a b [] = if s.claims id a b then [id] else [] := by
  unfold State.addIfClaims; split <;> simp

/-- What a scan finds stands in the topology, in its order. -/
theorem scan_sublist (s : State) (a : BusAddr) (b : Bool) :
    (∀ B : TopoBus, (scanBus s a b B []).1.Sublist (B.members.map Prod.fst)) ∧
    (∀ (C : TopoChans) (bits : Byte) (i : Nat), (scanChans s a b bits i C []).1.Sublist (C.members.map Prod.fst)) := by
  suffices H : ∀ n, (∀ B : TopoBus, sizeOf B ≤ n → (scanBus s a b B []).1.Sublist (B.members.map Prod.fst)) ∧
      (∀ C : TopoChans, sizeOf C ≤ n → ∀ (bits : Byte) (i : Nat),
        (scanChans s a b bits i C []).1.Sublist (C.members.map Prod.fst)) from
    ⟨fun B => (H _).1 B (Nat.le_refl _), fun C => (H _).2 C (Nat.le_refl _)⟩
  have one : ∀ id, (if s.claims id a b then [id] else []).Sublist [id] := by intro id; split <;> simp
  intro n
  induction n with
  | zero => exact ⟨fun B h => by cases B <;> simp at h, fun C h => by cases C <;> simp at h⟩
  | succ n ih =>
    constructor
    · intro B hB
      cases B with
      | empty => simp [scanBus]
      | slave id rest =>
        have hr : sizeOf rest ≤ n := by simp at hB; omega
        simp only [scanBus, State.addIfClaims_nil, TopoBus.members, List.map_cons]
        rw [(scan_acc s a b).1 rest]
        have h2 := (one id).append (ih.1 rest hr)
        generalize (if s.claims id a b = true then [id] else []) = X at h2 ⊢
        split
        · exact (List.sublist_append_left _ _).trans h2
        · exact h2
      | mux id chans rest =>
        have hr : sizeOf rest ≤ n := by simp at hB; omega
        have hc : sizeOf chans ≤ n := by simp at hB; omega
        simp only [scanBus, State.addIfClaims_nil, TopoBus.members, List.map_cons, List.map_append]
        rw [(scan_acc s a b).2 chans, (scan_acc s a b).1 rest]
        have h2 := ((one id).append (ih.2 chans hc (s.muxControl id) 0)).append (ih.1 rest hr)
        generalize (if s.claims id a b = true then [id] else []) = X at h2 ⊢
        rw [List.append_assoc [id], List.singleton_append] at h2
        split
        · exact (List.sublist_append_left _ _).trans h2
        · exact h2
    · intro C hC bits i
      cases C with
      | nil => simp [scanChans]
      | channel child rest =>
        have hr : sizeOf rest ≤ n := by simp at hC; omega
        have hc : sizeOf child ≤ n := by simp at hC; omega
        simp only [scanChans, TopoChans.members, List.map_append]
        split
        · rw [(scan_acc s a b).2 rest]
          exact (ih.1 child hc).append (ih.2 rest hr bits (i + 1))
        · exact (ih.2 rest hr bits (i + 1)).trans (List.sublist_append_right _ _)

theorem State.addressed_sublist (s : State) (a : BusAddr) :
    (s.addressed a).Sublist (s.cfg.root.members.map Prod.fst) :=
  (scan_sublist s a _).1 s.cfg.root

/-! ### The configuration is a constant of every round -/

/-- A well-formed configuration: the node records have the ids of the topology, none twice. -/
theorem State.configOk_ids {s : State} (h : s.configOk = true) :
    s.nodes.map Node.id = s.cfg.root.members.map Prod.fst ∧ (s.nodes.map Node.id).Nodup := by
  simp only [State.configOk, Bool.and_eq_true, decide_eq_true_eq, Config.wf] at h
  obtain ⟨⟨h1, h2⟩, h3⟩ := h
  have : (s.nodes.map Node.id) = s.cfg.root.members.map Prod.fst := by rw [← h2]; simp
  refine ⟨this, ?_⟩
  rw [this]
  exact (distinct_iff_nodup _).1 h1.2

/-- Well-formedness depends on the configuration only. -/
theorem State.configOk_congr {s t : State} (h : t.configuration = s.configuration) :
    t.configOk = s.configOk := by
  simp only [State.configuration, Prod.mk.injEq] at h
  obtain ⟨hc, hn⟩ := h
  have e1 : ∀ u : State, u.nodes.map (fun n => (n.id, n.dev.isMux)) =
      (u.nodes.map fun n => (n.id, n.addr0, n.dev.cfg)).map fun x =>
        (x.1, match x.2.2 with | .stub _ => false | .mux => true | .regdev _ => false) := by
    intro u
    rw [List.map_map]
    refine List.map_congr_left fun n _ => ?_
    cases h : n.dev <;> simp [Device.isMux, Device.cfg, h]
  have e2 : ∀ u : State, ∀ g, u.nodes.all (fun n => n.dev.configOk g) =
      (u.nodes.map fun n => (n.id, n.addr0, n.dev.cfg)).all fun x =>
        match x.2.2 with | .stub _ => true | .mux => true | .regdev c => c.wf g := by
    intro u g
    rw [List.all_map]
    congr 1
    funext n
    cases h : n.dev <;> simp [Device.configOk, Device.cfg, h]
  simp only [State.configOk, e1, e2, hc, hn]

/-- Writing back a device with the same parameters keeps the configuration. -/
theorem State.configuration_setDevice {s : State} (hd : (s.nodes.map Node.id).Nodup) {id : NodeId} {n : Node} {d : Device}
    (h : s.node? id = some n) (hc : d.cfg = n.dev.cfg) (ds : List Diag) :
    ((s.setDevice id d).setDiags ds).configuration = s.configuration := by
  simp only [State.configuration, State.setDiags_cfg, State.setDevice_cfg, State.setDiags_nodes, State.setDevice_nodes,
    List.map_map, Prod.mk.injEq, true_and]
  refine List.map_congr_left fun m hm => ?_
  by_cases hi : m.id = id
  · have := State.node?_of_mem hd hm
    rw [hi, h] at this
    cases this
    simp [Function.comp, hi, hc]
  · simp [Function.comp, hi]

theorem State.ids_of_configuration {s t : State} (h : t.configuration = s.configuration) :
    t.nodes.map Node.id = s.nodes.map Node.id := by
  simp only [State.configuration, Prod.mk.injEq] at h
  have := congrArg (List.map Prod.fst) h.2
  simp only [List.map_map] at this
  exact this


/-! ### A round as a relation between node lists -/

/-- A relation between a node before and after some calls: it holds of no call, composes, and keeps the id. -/
structure NodeRel (R : Node → Node → Prop) : Prop where
  refl : ∀ n, R n n
  trans : ∀ a b c, R a b → R b c → R a c
  id : ∀ a b, R a b → b.id = a.id

namespace NodeRel

variable {R : Node → Node → Prop}

theorem refls (hR : NodeRel R) (a : List Node) : List.Forall₂ R a a := List.forall₂_same.2 fun n _ => hR.refl n

theorem transs (hR : NodeRel R) : ∀ {a b c : List Node}, List.Forall₂ R a b → List.Forall₂ R b c → List.Forall₂ R a c
  | _, _, _, .nil, .nil => .nil
  | _, _, _, .cons h t, .cons h' t' => .cons (hR.trans _ _ _ h h') (hR.transs t t')

theorem ids (hR : NodeRel R) : ∀ {a b : List Node}, List.Forall₂ R a b → b.map Node.id = a.map Node.id
  | _, _, .nil => rfl
  | _, _, .cons h t => by simp [hR.id _ _ h, hR.ids t]

theorem setDevice (hR : NodeRel R) {s : State} (hd : (s.nodes.map Node.id).Nodup) {id : NodeId} {n : Node} {d : Device}
    (h : s.node? id = some n) (hn : R n { n with dev := d }) : List.Forall₂ R s.nodes (s.setDevice id d).nodes := by
  rw [State.setDevice_nodes, List.forall₂_map_right_iff, List.forall₂_same]
  intro m hm
  by_cases hi : m.id = id
  · have := State.node?_of_mem hd hm
    rw [hi, h] at this; cases this
    simpa [hi] using hn
  · simpa [hi] using hR.refl m

/-- A relation that one event keeps holds over a round. -/
theorem eventAll (hR : NodeRel R) (e : SlaveEvent) (g : Config)
    (hn : ∀ (n : Node) (ds : List Diag), R n { n with dev := (n.dev.onEvent g e ds).1 }) (ids : List NodeId) (s : State)
    (hg : s.cfg = g) (hd : (s.nodes.map Node.id).Nodup) : List.Forall₂ R s.nodes (State.eventAll e ids s).nodes := by
  refine (State.eventAll_inv (I := fun t => List.Forall₂ R s.nodes t.nodes ∧ t.cfg = g) e ids (fun t id _ ht => ?_)
    ⟨hR.refls _, hg⟩).1
  rcases t.eventTo_cases e id with h | ⟨n, hh, -, h⟩ <;> rw [h]
  · exact ht
  · exact ⟨hR.transs ht.1 (hR.setDevice (by rw [hR.ids ht.1]; exact hd) hh (by rw [ht.2]; exact hn _ _)), ht.2⟩

theorem sendAll (hR : NodeRel R) (v : Byte) (g : Config)
    (hn : ∀ (n : Node) (ds : List Diag), R n { n with dev := (n.dev.onSend g v ds).1 }) (ids : List NodeId) (s : State)
    (hg : s.cfg = g) (hd : (s.nodes.map Node.id).Nodup) : List.Forall₂ R s.nodes (State.sendAll v ids s).nodes := by
  refine (State.sendAll_inv (I := fun t => List.Forall₂ R s.nodes t.nodes ∧ t.cfg = g) v ids (fun t id _ ht => ?_)
    ⟨hR.refls _, hg⟩).1
  rcases t.sendTo_cases v id with h | ⟨n, hh, -, h⟩ <;> rw [h]
  · exact ht
  · exact ⟨hR.transs ht.1 (hR.setDevice (by rw [hR.ids ht.1]; exact hd) hh (by rw [ht.2]; exact hn _ _)), ht.2⟩

theorem recvAll (hR : NodeRel R) (g : Config)
    (hn : ∀ (n : Node) (ds : List Diag), R n { n with dev := (n.dev.onRecv g ds).1.1 }) (ids : List NodeId) (s : State)
    (hg : s.cfg = g) (hd : (s.nodes.map Node.id).Nodup) (acc : Byte) :
    List.Forall₂ R s.nodes (State.recvAll ids s acc).1.nodes := by
  refine (State.recvAll_inv (I := fun t => List.Forall₂ R s.nodes t.nodes ∧ t.cfg = g) ids (fun t id _ ht => ?_) acc
    ⟨hR.refls _, hg⟩).1
  rcases t.recvFrom_cases id with h | ⟨n, hh, -, h⟩ <;> rw [h]
  · exact ht
  · exact ⟨hR.transs ht.1 (hR.setDevice (by rw [hR.ids ht.1]; exact hd) hh (by rw [ht.2]; exact hn _ _)), ht.2⟩

/-- Every round keeps the id, the addresses and the parameters of each node. -/
theorem constants : NodeRel fun n n' => n'.id = n.id ∧ n'.addr0 = n.addr0 ∧ n'.addr = n.addr ∧ n'.dev.cfg = n.dev.cfg :=
  ⟨fun _ => ⟨rfl, rfl, rfl, rfl⟩,
   fun _ _ _ h h' => ⟨h'.1.trans h.1, h'.2.1.trans h.2.1, h'.2.2.1.trans h.2.2.1, h'.2.2.2.trans h.2.2.2⟩, fun _ _ h => h.1⟩

end NodeRel

/-! ### Rounds that change the addressed devices alone -/

/-- Writing back a function of the device found is a function of the record. -/
theorem State.modifyNode_of_node? {s : State} (hd : (s.nodes.map Node.id).Nodup) {id : NodeId} {n : Node}
    (h : s.node? id = some n) (F : Device → Device) :
    s.setDevice id (F n.dev) = s.modifyNode id fun m => { m with dev := F m.dev } := by
  simp only [State.setDevice, State.modifyNode, State.mk.injEq, true_and, and_true]
  refine List.map_congr_left fun m hm => ?_
  by_cases hi : m.id = id
  · have := State.node?_of_mem hd hm
    rw [hi, h] at this; cases this
    simp [hi]
  · simp [hi]

/-- An id without a record: nothing changes. -/
theorem State.modifyNode_none {s : State} {id : NodeId} (h : s.node? id = none) (f : Node → Node) :
    s.modifyNode id f = s := by
  have : s.nodes.map (fun n => if n.id = id then f n else n) = s.nodes := by
    conv_rhs => rw [← List.map_id s.nodes]
    refine List.map_congr_left fun m hm => ?_
    have := List.find?_eq_none.1 h m hm
    rw [if_neg (by simpa using this)]; rfl
  simp [State.modifyNode, this]

/-- One call and a round after it are one round. -/
theorem map_modify_map (s : State) (F : Device → Device) (id : NodeId) (ids : List NodeId) (hid : id ∉ ids) :
    ((s.modifyNode id fun m => { m with dev := F m.dev }).nodes.map fun n =>
      if n.id ∈ ids then { n with dev := F n.dev } else n) =
      s.nodes.map fun n => if n.id ∈ id :: ids then { n with dev := F n.dev } else n := by
  simp only [State.modifyNode, List.map_map]
  refine List.map_congr_left fun n _ => ?_
  by_cases hi : n.id = id
  · subst hi; simp [hid]
  · by_cases hj : n.id ∈ ids <;> simp [hi, hj]

/-- A round in which every call is a change `F` of the device alone, without diagnostics. -/
theorem State.eventAll_map (e : SlaveEvent) (F : Device → Device) : ∀ (ids : List NodeId) (s : State), ids.Nodup →
    (s.nodes.map Node.id).Nodup →
    (∀ n ∈ s.nodes, n.id ∈ ids → ∀ ds,
      (if n.dev.caps.event then n.dev.onEvent s.cfg e ds else (n.dev, ds)) = (F n.dev, ds)) →
    State.eventAll e ids s =
      { s with nodes := s.nodes.map fun n => if n.id ∈ ids then { n with dev := F n.dev } else n }
  | [], s, _, _, _ => by simp [State.eventAll]
  | id :: ids, s, hn, hd, h => by
    have hn' := List.nodup_cons.1 hn
    have h1 : s.eventTo e id = s.modifyNode id fun m => { m with dev := F m.dev } := by
      cases hf : s.node? id with
      | none => rw [State.modifyNode_none hf]; simp [State.eventTo, hf]
      | some n =>
        have := h n (State.node?_mem hf) (by simp [State.node?_id hf]) s.diags
        rw [← State.modifyNode_of_node? hd hf]
        simp only [State.eventTo, hf]
        split at this
        · rename_i hc; rw [if_pos hc, State.putServed_eq, this]; rfl
        · rename_i hc; rw [if_neg hc]
          have hF : F n.dev = n.dev := (congrArg Prod.fst this).symm
          rw [hF, State.setDevice_self hd hf]
    rw [State.eventAll, h1, State.eventAll_map e F ids _ hn'.2
      (by rw [State.ids_modifyNode s id (fun m => { m with dev := F m.dev }) fun _ => rfl]; exact hd)]
    · rw [map_modify_map s F id ids hn'.1]; rfl
    · intro n hm hi ds
      obtain ⟨q, hq, rfl⟩ := List.mem_map.1 hm
      by_cases hqi : q.id = id
      · rw [if_pos hqi] at hi
        exact absurd (by simpa [hqi] using hi) hn'.1
      · rw [if_neg hqi] at hi ⊢
        exact h q hq (List.mem_cons_of_mem _ hi) ds

/-- A round of sends in which every call is a change `F` of the device alone. -/
theorem State.sendAll_map (v : Byte) (F : Device → Device) : ∀ (ids : List NodeId) (s : State), ids.Nodup →
    (s.nodes.map Node.id).Nodup →
    (∀ n ∈ s.nodes, n.id ∈ ids → ∀ ds,
      (if n.dev.caps.receive then n.dev.onSend s.cfg v ds else (n.dev, ds)) = (F n.dev, ds)) →
    State.sendAll v ids s =
      { s with nodes := s.nodes.map fun n => if n.id ∈ ids then { n with dev := F n.dev } else n }
  | [], s, _, _, _ => by simp [State.sendAll]
  | id :: ids, s, hn, hd, h => by
    have hn' := List.nodup_cons.1 hn
    have h1 : s.sendTo v id = s.modifyNode id fun m => { m with dev := F m.dev } := by
      cases hf : s.node? id with
      | none => rw [State.modifyNode_none hf]; simp [State.sendTo, hf]
      | some n =>
        have := h n (State.node?_mem hf) (by simp [State.node?_id hf]) s.diags
        rw [← State.modifyNode_of_node? hd hf]
        simp only [State.sendTo, hf]
        split at this
        · rename_i hc; rw [if_pos hc, State.putServed_eq, this]; rfl
        · rename_i hc; rw [if_neg hc]
          have hF : F n.dev = n.dev := (congrArg Prod.fst this).symm
          rw [hF, State.setDevice_self hd hf]
    rw [State.sendAll, h1, State.sendAll_map v F ids _ hn'.2
      (by rw [State.ids_modifyNode s id (fun m => { m with dev := F m.dev }) fun _ => rfl]; exact hd)]
    · rw [map_modify_map s F id ids hn'.1]; rfl
    · intro n hm hi ds
      obtain ⟨q, hq, rfl⟩ := List.mem_map.1 hm
      by_cases hqi : q.id = id
      · rw [if_pos hqi] at hi
        exact absurd (by simpa [hqi] using hi) hn'.1
      · rw [if_neg hqi] at hi ⊢
        exact h q hq (List.mem_cons_of_mem _ hi) ds

/-! ### The invariant in parts -/

theorem State.inv_iff (s : State) :
    s.inv = true ↔ s.configOk = true ∧ s.bus.wf = true ∧ (∀ n ∈ s.nodes, n.dev.wf s.cfg = true) ∧
      (∀ id ∈ s.bus.cur, ∃ n ∈ s.nodes, n.id = id) ∧ (∀ n ∈ s.nodes, n.id ∈ s.bus.cur ∨ n.dev.atRest = true) := by
  simp only [State.inv, Bool.and_eq_true, List.all_eq_true, List.any_eq_true, decide_eq_true_eq, Bool.or_eq_true]
  tauto

theorem BusState.wf_iff (b : BusState) :
    b.wf = true ↔ (b.isOpen = true ↔ b.cur ≠ []) ∧ b.cur.Nodup ∧ (b.isOpen = false → b = BusState.idle) := by
  simp only [BusState.wf, Bool.and_eq_true, decide_eq_true_eq, Bool.or_eq_true, distinct_iff_nodup]
  cases b.isOpen <;> simp [and_assoc]

/-! ### The forms of a wire request -/

/-- What a wire request does: nothing to the nodes, or one round over the addressed slaves (R84 to R90). -/
inductive WireForm (s : State) : Instr → State → Prop
  | same (i t) (hn : t.nodes = s.nodes) (hc : t.cfg = s.cfg) (hb : t.bus = s.bus) : WireForm s i t
  | start (i) (dir : Direction) (ids t) (bus : BusState) (hcur : ids = bus.cur)
      (hk : (s.bus.isOpen = true ∧ ids = s.bus.cur ∧ bus = { s.bus with dir := dir }) ∨
        (s.bus.isOpen = false ∧ ∃ a, ids = s.addressed a ∧ ids ≠ [] ∧
          bus = { isOpen := true, cur := ids, curAddr := a, bcast := decide (a = s.cfg.bcastAddr), dir := dir }))
      (ht : t = (State.eventAll (startEvent dir) ids { s with bus := bus }).answer .ack 0) : WireForm s i t
  | send (i v t) (ho : s.bus.isOpen = true) (ht : t = (State.sendAll v s.bus.cur s).answer .ack 0) : WireForm s i t
  | recv (x t) (ho : s.bus.isOpen = true)
      (ht : t = (State.recvAll s.bus.cur s errByte).1.answer .ack (State.recvAll s.bus.cur s errByte).2) :
      WireForm s (.rx x) t
  | nack (i t) (ho : s.bus.isOpen = true) (ht : t = (State.eventAll .nack s.bus.cur s).answer .ack 0) : WireForm s i t
  | stop (x t) (ho : s.bus.isOpen = true)
      (ht : t = ({ State.eventAll .finish s.bus.cur s with bus := BusState.idle } : State).answer .ack 0) :
      WireForm s (.stop x) t

theorem wireForm_start (s : State) (i : Instr) (a : BusAddr) (dir : Direction) : WireForm s i (startRequest a dir s) := by
  unfold startRequest
  by_cases ho : s.bus.isOpen
  · rw [if_pos ho]
    unfold startOpen
    split
    · exact .start i dir s.bus.cur _ { s.bus with dir := dir } rfl (.inl ⟨ho, rfl, rfl⟩) rfl
    · exact .same _ _ rfl rfl rfl
  · rw [if_neg ho]
    unfold startFresh
    dsimp only
    split
    · exact .same _ _ rfl rfl rfl
    · exact .start i dir (s.addressed a) _ _ rfl (.inr ⟨by simpa using ho, a, rfl, by assumption, rfl⟩) rfl

theorem wireForm (req : BitVec 11) (s t : State) (h : exec (decodeWire req) s = .next t) :
    WireForm s (decodeWire req) t := by
  have key : ∀ i : Instr, (∃ a, i = .startSend a) ∨ (∃ a, i = .startRecv a) ∨ (∃ a, i = .tx a) ∨ (∃ a, i = .rx a) ∨
      (∃ a, i = .nack a) ∨ (∃ a, i = .stop a) ∨ (∃ a, i = .reserved5 a) ∨ (∃ a, i = .reserved6 a) ∨
      (∃ a, i = .reserved7 a) → exec i s = .next t → WireForm s i t := by
    rintro i (⟨a, rfl⟩ | ⟨a, rfl⟩ | ⟨a, rfl⟩ | ⟨a, rfl⟩ | ⟨a, rfl⟩ | ⟨a, rfl⟩ | ⟨a, rfl⟩ | ⟨a, rfl⟩ | ⟨a, rfl⟩) h <;>
      simp only [exec] at h
    · cases h; exact wireForm_start _ _ _ _
    · cases h; exact wireForm_start _ _ _ _
    · unfold execTx at h
      split at h <;> cases h
      · exact .send _ _ _ (by assumption) rfl
      · exact .same _ _ rfl rfl rfl
    · unfold execRx at h
      split at h <;> cases h
      · exact .recv _ _ (by assumption) rfl
      · exact .same _ _ rfl rfl rfl
    · unfold execNack at h
      split at h <;> cases h
      · exact .nack _ _ (by assumption) rfl
      · exact .same _ _ rfl rfl rfl
    · unfold execStop at h
      split at h <;> cases h
      · exact .stop _ _ (by assumption) rfl
      · exact .same _ _ rfl rfl rfl
    · cases h; exact .same _ _ rfl rfl rfl
    · cases h; exact .same _ _ rfl rfl rfl
    · cases h; exact .same _ _ rfl rfl rfl
  apply key _ _ h
  unfold decodeWire
  split
  · split <;> simp
  all_goals simp

/-- Every wire request answers a next state. -/
theorem exec_wire_total (req : BitVec 11) (s : State) : ∃ t, exec (decodeWire req) s = .next t := by
  have key : ∀ i : Instr, (∃ a, i = .startSend a) ∨ (∃ a, i = .startRecv a) ∨ (∃ a, i = .tx a) ∨ (∃ a, i = .rx a) ∨
      (∃ a, i = .nack a) ∨ (∃ a, i = .stop a) ∨ (∃ a, i = .reserved5 a) ∨ (∃ a, i = .reserved6 a) ∨
      (∃ a, i = .reserved7 a) → ∃ t, exec i s = .next t := by
    rintro i (⟨a, rfl⟩ | ⟨a, rfl⟩ | ⟨a, rfl⟩ | ⟨a, rfl⟩ | ⟨a, rfl⟩ | ⟨a, rfl⟩ | ⟨a, rfl⟩ | ⟨a, rfl⟩ | ⟨a, rfl⟩) <;>
      simp only [exec, execTx, execRx, execNack, execStop] <;> first | exact ⟨_, rfl⟩ | (split <;> exact ⟨_, rfl⟩)
  apply key
  unfold decodeWire
  split
  · split <;> simp
  all_goals simp

/-- A relation that every call of a slave keeps holds between the nodes before and after a wire request. -/
theorem NodeRel.wire {R : Node → Node → Prop} (hR : NodeRel R) {s : State}
    (he : ∀ (e : SlaveEvent) (n : Node) (ds : List Diag), R n { n with dev := (n.dev.onEvent s.cfg e ds).1 })
    (hs : ∀ (v : Byte) (n : Node) (ds : List Diag), R n { n with dev := (n.dev.onSend s.cfg v ds).1 })
    (hr : ∀ (n : Node) (ds : List Diag), R n { n with dev := (n.dev.onRecv s.cfg ds).1.1 })
    (req : BitVec 11) (t : State) (hd : (s.nodes.map Node.id).Nodup) (h : exec (decodeWire req) s = .next t) :
    List.Forall₂ R s.nodes t.nodes := by
  have hf := wireForm req s t h
  generalize decodeWire req = i at *
  clear h
  cases hf with
  | same _ _ hh _ _ => rw [hh]; exact hR.refls _
  | start i dir ids t bus hcur hk ht => subst ht; exact hR.eventAll _ s.cfg (he _) ids { s with bus := bus } rfl hd
  | send i v t ho ht => subst ht; exact hR.sendAll _ s.cfg (hs _) _ _ rfl hd
  | recv x t ho ht => subst ht; exact hR.recvAll s.cfg hr _ _ rfl hd _
  | nack i t ho ht => subst ht; exact hR.eventAll _ s.cfg (he _) _ _ rfl hd
  | stop x t ho ht => subst ht; exact hR.eventAll _ s.cfg (he _) _ _ rfl hd

end Sys2Proof.Machine
end

