-- ==== Sys2Proof/Laws/HostPort.lean ====
section
/-! SUPPORT. The forms a host operation takes, and that its page updates keep the widths of R21. -/

namespace Sys2Proof.Machine

/-- What a host operation does: nothing to the nodes, a reset, one address, or the pages of one REGDEV (R300 to R307). -/
inductive HostForm (s t : State) : Prop
  | same (hn : t.nodes = s.nodes) (hc : t.cfg = s.cfg) (hb : t.bus = s.bus)
  | reset (hn : t.nodes = s.nodes.map (Node.reset s.cfg.bufCap)) (hc : t.cfg = s.cfg) (hb : t.bus = BusState.idle)
  | addr (n a) (hn : t.nodes = (s.setAddr n a).nodes) (hc : t.cfg = s.cfg) (hb : t.bus = s.bus)
  | pages (d c r pg) (hr : s.regdev? d = some (c, r))
      (hp : pg.length = r.pg.length ∧
        ((∀ p ∈ r.pg, Page.wf s.cfg.strMax p = true) → ∀ p ∈ pg, Page.wf s.cfg.strMax p = true))
      (hn : t.nodes = (s.setRegDev d c { r with pg := pg }).nodes) (hc : t.cfg = s.cfg) (hb : t.bus = s.bus)

/-- A real page is a page of a REGDEV. -/
theorem State.regdev?_of_realPage? {s : State} {d : NodeId} {p : Byte} {c : RegDevCfg} {r : RegDev} {pg : Page}
    (h : s.realPage? d p = some (c, r, pg)) : s.regdev? d = some (c, r) := by
  unfold State.realPage? at h
  split at h
  · cases h
  · split at h
    · split at h <;> cases h; assumption
    · cases h

/-- Changing one page keeps the widths of all. -/
theorem Page.wf_modify {m : Nat} {f : Page → Page} (hf : ∀ p, Page.wf m p = true → Page.wf m (f p) = true)
    (pg : List Page) (i : Nat) (h : ∀ p ∈ pg, Page.wf m p = true) : ∀ p ∈ pg.modify i f, Page.wf m p = true := by
  intro p hp
  obtain ⟨k, hk⟩ := List.getElem?_of_mem hp
  rw [List.getElem?_modify] at hk
  obtain ⟨q, hq, rfl⟩ := Option.map_eq_some_iff.1 hk
  have hq' := h q (List.mem_of_getElem? hq)
  split
  · exact hf q hq'
  · exact hq'

/-- A field assigned and the evaluator run keep the widths. -/
theorem Page.wf_updateAndEvaluate {m : Nat} {f : Page → Page} (hf : ∀ p, Page.wf m p = true → Page.wf m (f p) = true)
    (r : RegDev) (i : Nat) :
    (updateAndEvaluate r i f).pg.length = r.pg.length ∧
      ((∀ p ∈ r.pg, Page.wf m p = true) → ∀ p ∈ (updateAndEvaluate r i f).pg, Page.wf m p = true) := by
  refine ⟨by simp [updateAndEvaluate, evaluatePages], fun h p hp => ?_⟩
  simp only [updateAndEvaluate, evaluatePages] at hp
  obtain ⟨q, hq, rfl⟩ := List.mem_map.1 hp
  rw [Page.wf_evaluateIfOn]
  exact Page.wf_modify hf _ _ h q hq

/-- A raw value that is accepted has the width of its field (R304). -/
theorem fieldUpdate_wf {m : Nat} {f : HostField} {v : RawValue} {upd : Page → Page} (h : fieldUpdate m f v = some upd)
    (p : Page) (hp : Page.wf m p = true) : Page.wf m (upd p) = true := by
  unfold fieldUpdate at h
  repeat' split at h
  all_goals try (cases h; done)
  all_goals cases h
  all_goals simp only [Page.wf, Bool.and_eq_true, decide_eq_true_eq] at hp ⊢
  all_goals (try simp_all)
  all_goals (rename_i f _ _; cases f <;> simp_all [MfrInfo.set])

theorem hostForm {op : BitVec 4} {args : HostArgs} {i : Instr} {s t : State} (hd : decode (.host op args) = .ok i)
    (h : exec i s = .next t) : HostForm s t := by
  simp only [decode, decodeHost] at hd
  split at hd <;> cases hd
  · cases h; exact .reset rfl rfl rfl
  · simp only [exec, execHSetAddr] at h
    split at h <;> cases h
    · exact .addr _ _ rfl rfl rfl
    · exact .same rfl rfl rfl
  · simp only [exec, execHPageConfig] at h
    split at h
    · cases h; exact .same rfl rfl rfl
    · rename_i c r hr
      split at h
      · cases h
        refine .pages _ c r (r.pg.map fun q => { q with flags := args.flags }) hr ⟨by simp, fun h p hp => ?_⟩ rfl rfl rfl
        obtain ⟨q, hq, rfl⟩ := List.mem_map.1 hp
        exact h q hq
      · split at h
        · cases h
          exact .pages _ c r _ hr ⟨by simp, fun h => Page.wf_modify (f := fun q => { q with flags := args.flags })
            (fun p hp => hp) _ _ h⟩ rfl rfl rfl
        · cases h; exact .same rfl rfl rfl
  · simp only [exec, execHSetField] at h
    split at h
    · cases h; exact .same rfl rfl rfl
    · rename_i c r pg hr
      split at h
      · cases h; exact .same rfl rfl rfl
      · rename_i upd hu
        cases h; exact .pages _ _ _ _ (State.regdev?_of_realPage? hr) (Page.wf_updateAndEvaluate (fieldUpdate_wf hu) _ _) rfl rfl rfl
  · simp only [exec, execHGetField] at h
    split at h <;> cases h <;> exact .same rfl rfl rfl
  · simp only [exec, execHSetPhys] at h
    split at h
    · cases h; exact .same rfl rfl rfl
    · rename_i hr
      split at h
      · cases h; exact .same rfl rfl rfl
      · cases h
        exact .pages _ _ _ _ (State.regdev?_of_realPage? hr)
          (Page.wf_updateAndEvaluate (fun p hp => by simpa [Page.wf] using hp) _ _) rfl rfl rfl
  · simp only [exec, execHGetPhys] at h
    split at h
    · cases h; exact .same rfl rfl rfl
    · split at h <;> cases h <;> exact .same rfl rfl rfl

end Sys2Proof.Machine
end

