-- ==== Sys2Proof/Laws/PerInstr.lean ====
section
/-! SUPPORT. Statements made per instruction. Family MatchBits: the encoding of an instruction is in the format of its row
of spec/opcode_table.json and has the row's fixed bits. -/

namespace Sys2Proof.Laws.MatchBits

/-- The three formats of 30_encoding.md. -/
inductive Layout where
  | busreq | cmd | host
deriving DecidableEq, Repr

/-- A row of the opcode table: its format, the value of its fixed bits and their mask. -/
structure Row where
  layout : Layout
  value  : Nat
  mask   : Nat
deriving DecidableEq, Repr

/-- The rows of spec/opcode_table.json, as written there. -/
def row : Instr → Row
  | .startSend _ => ⟨.busreq, 0x000, 0x701⟩
  | .startRecv _ => ⟨.busreq, 0x001, 0x701⟩
  | .tx _ => ⟨.busreq, 0x100, 0x700⟩
  | .rx _ => ⟨.busreq, 0x200, 0x700⟩
  | .nack _ => ⟨.busreq, 0x300, 0x700⟩
  | .stop _ => ⟨.busreq, 0x400, 0x700⟩
  | .reserved5 _ => ⟨.busreq, 0x500, 0x700⟩
  | .reserved6 _ => ⟨.busreq, 0x600, 0x700⟩
  | .reserved7 _ => ⟨.busreq, 0x700, 0x700⟩
  | .page _ => ⟨.cmd, 0x00, 0xFF⟩
  | .operation _ => ⟨.cmd, 0x01, 0xFF⟩
  | .onOffConfig _ => ⟨.cmd, 0x02, 0xFF⟩
  | .clearFaults _ => ⟨.cmd, 0x03, 0xFF⟩
  | .capability _ => ⟨.cmd, 0x19, 0xFF⟩
  | .voutMode _ => ⟨.cmd, 0x20, 0xFF⟩
  | .coefficients _ => ⟨.cmd, 0x30, 0xFF⟩
  | .statusByte _ => ⟨.cmd, 0x78, 0xFF⟩
  | .statusWord _ => ⟨.cmd, 0x79, 0xFF⟩
  | .statusVout _ => ⟨.cmd, 0x7A, 0xFF⟩
  | .statusIout _ => ⟨.cmd, 0x7B, 0xFF⟩
  | .statusInput _ => ⟨.cmd, 0x7C, 0xFF⟩
  | .statusTemperature _ => ⟨.cmd, 0x7D, 0xFF⟩
  | .statusCml _ => ⟨.cmd, 0x7E, 0xFF⟩
  | .voutOvFaultLimit _ => ⟨.cmd, 0x40, 0xFF⟩
  | .voutOvWarnLimit _ => ⟨.cmd, 0x42, 0xFF⟩
  | .voutUvWarnLimit _ => ⟨.cmd, 0x43, 0xFF⟩
  | .voutUvFaultLimit _ => ⟨.cmd, 0x44, 0xFF⟩
  | .ioutOcFaultLimit _ => ⟨.cmd, 0x46, 0xFF⟩
  | .ioutOcWarnLimit _ => ⟨.cmd, 0x4A, 0xFF⟩
  | .ioutUcFaultLimit _ => ⟨.cmd, 0x4B, 0xFF⟩
  | .otFaultLimit _ => ⟨.cmd, 0x4F, 0xFF⟩
  | .otWarnLimit _ => ⟨.cmd, 0x51, 0xFF⟩
  | .utWarnLimit _ => ⟨.cmd, 0x52, 0xFF⟩
  | .utFaultLimit _ => ⟨.cmd, 0x53, 0xFF⟩
  | .vinOvFaultLimit _ => ⟨.cmd, 0x55, 0xFF⟩
  | .vinOvWarnLimit _ => ⟨.cmd, 0x57, 0xFF⟩
  | .vinUvWarnLimit _ => ⟨.cmd, 0x58, 0xFF⟩
  | .vinUvFaultLimit _ => ⟨.cmd, 0x59, 0xFF⟩
  | .iinOcFaultLimit _ => ⟨.cmd, 0x5B, 0xFF⟩
  | .iinOcWarnLimit _ => ⟨.cmd, 0x5D, 0xFF⟩
  | .poutOpFaultLimit _ => ⟨.cmd, 0x68, 0xFF⟩
  | .poutOpWarnLimit _ => ⟨.cmd, 0x6A, 0xFF⟩
  | .pinOpWarnLimit _ => ⟨.cmd, 0x6B, 0xFF⟩
  | .readVin _ => ⟨.cmd, 0x88, 0xFF⟩
  | .readIin _ => ⟨.cmd, 0x89, 0xFF⟩
  | .readVout _ => ⟨.cmd, 0x8B, 0xFF⟩
  | .readIout _ => ⟨.cmd, 0x8C, 0xFF⟩
  | .readTemperature1 _ => ⟨.cmd, 0x8D, 0xFF⟩
  | .readPout _ => ⟨.cmd, 0x96, 0xFF⟩
  | .readPin _ => ⟨.cmd, 0x97, 0xFF⟩
  | .mfrId _ => ⟨.cmd, 0x99, 0xFF⟩
  | .mfrModel _ => ⟨.cmd, 0x9A, 0xFF⟩
  | .mfrRevision _ => ⟨.cmd, 0x9B, 0xFF⟩
  | .mfrLocation _ => ⟨.cmd, 0x9C, 0xFF⟩
  | .mfrDate _ => ⟨.cmd, 0x9D, 0xFF⟩
  | .mfrSerial _ => ⟨.cmd, 0x9E, 0xFF⟩
  | .icDeviceId _ => ⟨.cmd, 0xAD, 0xFF⟩
  | .hReset => ⟨.host, 0x0, 0xF⟩
  | .hSetAddr _ _ => ⟨.host, 0x1, 0xF⟩
  | .hPageConfig _ _ _ => ⟨.host, 0x2, 0xF⟩
  | .hSetField _ _ _ _ => ⟨.host, 0x3, 0xF⟩
  | .hGetField _ _ _ => ⟨.host, 0x4, 0xF⟩
  | .hSetPhys _ _ _ _ => ⟨.host, 0x5, 0xF⟩
  | .hGetPhys _ _ _ => ⟨.host, 0x6, 0xF⟩

/-- The format of a frame, and the bits that the opcode table describes. -/
def bits : Frame → Layout × Nat
  | .wire req => (.busreq, req.toNat)
  | .payload _ [] => (.cmd, 256)
  | .payload _ (code :: _) => (.cmd, code.toNat)
  | .latch _ code => (.cmd, code.toNat)
  | .host op _ => (.host, op.toNat)

/-- The encoding of an instruction has the fixed bits of its row, whatever its operands are. -/
def Statement (i : Instr) : Prop :=
  (bits (encode i)).1 = (row i).layout ∧ (bits (encode i)).2 &&& (row i).mask = (row i).value

/-- A request word of a kind has the kind in its bits 10:8 (R60). -/
theorem reqWord_kind (kind : BitVec 3) : ∀ b : Byte, (reqWord kind b).toNat &&& 0x700 = kind.toNat * 256 := by
  revert kind; decide

/-- A START word has its kind in bits 10:8 and its direction in bit 0 (R60, R61). -/
theorem reqWord_start (rw : BitVec 1) : ∀ a : BusAddr, (reqWord 0 (addrByte a rw)).toNat &&& 0x701 = rw.toNat := by
  revert rw; decide

/-- A command frame has the code in its bits, for a write and for a read (R64, R56). -/
theorem commandFrame_bits (code : Byte) (a : CmdAccess) : bits (commandFrame code a) = (.cmd, code.toNat) := by
  cases a <;> rfl

/-- An eight-bit code under an eight-bit mask. -/
theorem cmd_row {i : Instr} {code : Byte} {a : CmdAccess} {v : Nat} (he : encode i = commandFrame code a)
    (hr : row i = ⟨.cmd, v, 0xFF⟩) (hv : code.toNat &&& 0xFF = v) : Statement i := by
  simp [Statement, he, hr, commandFrame_bits, hv]

/-- A four-bit operation number under a four-bit mask. -/
theorem host_row {i : Instr} {op : BitVec 4} {args : HostArgs} {v : Nat} (he : encode i = .host op args)
    (hr : row i = ⟨.host, v, 0xF⟩) (hv : op.toNat &&& 0xF = v) : Statement i := by
  simp [Statement, he, hr, bits, hv]

theorem startSend (a : BusAddr) : Statement (.startSend a) := ⟨rfl, reqWord_start 0 a⟩
theorem startRecv (a : BusAddr) : Statement (.startRecv a) := ⟨rfl, reqWord_start 1 a⟩
theorem tx (b : Byte) : Statement (.tx b) := ⟨rfl, reqWord_kind 1 b⟩
theorem rx (b : Byte) : Statement (.rx b) := ⟨rfl, reqWord_kind 2 b⟩
theorem nack (b : Byte) : Statement (.nack b) := ⟨rfl, reqWord_kind 3 b⟩
theorem stop (b : Byte) : Statement (.stop b) := ⟨rfl, reqWord_kind 4 b⟩
theorem reserved5 (b : Byte) : Statement (.reserved5 b) := ⟨rfl, reqWord_kind 5 b⟩
theorem reserved6 (b : Byte) : Statement (.reserved6 b) := ⟨rfl, reqWord_kind 6 b⟩
theorem reserved7 (b : Byte) : Statement (.reserved7 b) := ⟨rfl, reqWord_kind 7 b⟩
theorem page (a : CmdAccess) : Statement (.page a) := cmd_row rfl rfl rfl
theorem operation (a : CmdAccess) : Statement (.operation a) := cmd_row rfl rfl rfl
theorem onOffConfig (a : CmdAccess) : Statement (.onOffConfig a) := cmd_row rfl rfl rfl
theorem clearFaults (a : CmdAccess) : Statement (.clearFaults a) := cmd_row rfl rfl rfl
theorem capability (a : CmdAccess) : Statement (.capability a) := cmd_row rfl rfl rfl
theorem voutMode (a : CmdAccess) : Statement (.voutMode a) := cmd_row rfl rfl rfl
theorem coefficients (a : CmdAccess) : Statement (.coefficients a) := cmd_row rfl rfl rfl
theorem statusByte (a : CmdAccess) : Statement (.statusByte a) := cmd_row rfl rfl rfl
theorem statusWord (a : CmdAccess) : Statement (.statusWord a) := cmd_row rfl rfl rfl
theorem statusVout (a : CmdAccess) : Statement (.statusVout a) := cmd_row rfl rfl rfl
theorem statusIout (a : CmdAccess) : Statement (.statusIout a) := cmd_row rfl rfl rfl
theorem statusInput (a : CmdAccess) : Statement (.statusInput a) := cmd_row rfl rfl rfl
theorem statusTemperature (a : CmdAccess) : Statement (.statusTemperature a) := cmd_row rfl rfl rfl
theorem statusCml (a : CmdAccess) : Statement (.statusCml a) := cmd_row rfl rfl rfl
theorem voutOvFaultLimit (a : CmdAccess) : Statement (.voutOvFaultLimit a) := cmd_row rfl rfl rfl
theorem voutOvWarnLimit (a : CmdAccess) : Statement (.voutOvWarnLimit a) := cmd_row rfl rfl rfl
theorem voutUvWarnLimit (a : CmdAccess) : Statement (.voutUvWarnLimit a) := cmd_row rfl rfl rfl
theorem voutUvFaultLimit (a : CmdAccess) : Statement (.voutUvFaultLimit a) := cmd_row rfl rfl rfl
theorem ioutOcFaultLimit (a : CmdAccess) : Statement (.ioutOcFaultLimit a) := cmd_row rfl rfl rfl
theorem ioutOcWarnLimit (a : CmdAccess) : Statement (.ioutOcWarnLimit a) := cmd_row rfl rfl rfl
theorem ioutUcFaultLimit (a : CmdAccess) : Statement (.ioutUcFaultLimit a) := cmd_row rfl rfl rfl
theorem otFaultLimit (a : CmdAccess) : Statement (.otFaultLimit a) := cmd_row rfl rfl rfl
theorem otWarnLimit (a : CmdAccess) : Statement (.otWarnLimit a) := cmd_row rfl rfl rfl
theorem utWarnLimit (a : CmdAccess) : Statement (.utWarnLimit a) := cmd_row rfl rfl rfl
theorem utFaultLimit (a : CmdAccess) : Statement (.utFaultLimit a) := cmd_row rfl rfl rfl
theorem vinOvFaultLimit (a : CmdAccess) : Statement (.vinOvFaultLimit a) := cmd_row rfl rfl rfl
theorem vinOvWarnLimit (a : CmdAccess) : Statement (.vinOvWarnLimit a) := cmd_row rfl rfl rfl
theorem vinUvWarnLimit (a : CmdAccess) : Statement (.vinUvWarnLimit a) := cmd_row rfl rfl rfl
theorem vinUvFaultLimit (a : CmdAccess) : Statement (.vinUvFaultLimit a) := cmd_row rfl rfl rfl
theorem iinOcFaultLimit (a : CmdAccess) : Statement (.iinOcFaultLimit a) := cmd_row rfl rfl rfl
theorem iinOcWarnLimit (a : CmdAccess) : Statement (.iinOcWarnLimit a) := cmd_row rfl rfl rfl
theorem poutOpFaultLimit (a : CmdAccess) : Statement (.poutOpFaultLimit a) := cmd_row rfl rfl rfl
theorem poutOpWarnLimit (a : CmdAccess) : Statement (.poutOpWarnLimit a) := cmd_row rfl rfl rfl
theorem pinOpWarnLimit (a : CmdAccess) : Statement (.pinOpWarnLimit a) := cmd_row rfl rfl rfl
theorem readVin (a : CmdAccess) : Statement (.readVin a) := cmd_row rfl rfl rfl
theorem readIin (a : CmdAccess) : Statement (.readIin a) := cmd_row rfl rfl rfl
theorem readVout (a : CmdAccess) : Statement (.readVout a) := cmd_row rfl rfl rfl
theorem readIout (a : CmdAccess) : Statement (.readIout a) := cmd_row rfl rfl rfl
theorem readTemperature1 (a : CmdAccess) : Statement (.readTemperature1 a) := cmd_row rfl rfl rfl
theorem readPout (a : CmdAccess) : Statement (.readPout a) := cmd_row rfl rfl rfl
theorem readPin (a : CmdAccess) : Statement (.readPin a) := cmd_row rfl rfl rfl
theorem mfrId (a : CmdAccess) : Statement (.mfrId a) := cmd_row rfl rfl rfl
theorem mfrModel (a : CmdAccess) : Statement (.mfrModel a) := cmd_row rfl rfl rfl
theorem mfrRevision (a : CmdAccess) : Statement (.mfrRevision a) := cmd_row rfl rfl rfl
theorem mfrLocation (a : CmdAccess) : Statement (.mfrLocation a) := cmd_row rfl rfl rfl
theorem mfrDate (a : CmdAccess) : Statement (.mfrDate a) := cmd_row rfl rfl rfl
theorem mfrSerial (a : CmdAccess) : Statement (.mfrSerial a) := cmd_row rfl rfl rfl
theorem icDeviceId (a : CmdAccess) : Statement (.icDeviceId a) := cmd_row rfl rfl rfl
theorem hReset : Statement .hReset := host_row rfl rfl rfl
theorem hSetAddr (s : NodeId) (a : BusAddr) : Statement (.hSetAddr s a) := host_row rfl rfl rfl
theorem hPageConfig (d : NodeId) (p : Byte) (flags : Word) : Statement (.hPageConfig d p flags) := host_row rfl rfl rfl
theorem hSetField (d : NodeId) (p : Byte) (f : HostField) (v : RawValue) : Statement (.hSetField d p f v) := host_row rfl rfl rfl
theorem hGetField (s : NodeId) (p : Byte) (f : HostField) : Statement (.hGetField s p f) := host_row rfl rfl rfl
theorem hSetPhys (d : NodeId) (p : Byte) (f : HostField) (x : DWord) : Statement (.hSetPhys d p f x) := host_row rfl rfl rfl
theorem hGetPhys (d : NodeId) (p : Byte) (f : HostField) : Statement (.hGetPhys d p f) := host_row rfl rfl rfl

end Sys2Proof.Laws.MatchBits
end

