-- ==== Sys2Proof/Laws/Serving.lean ====
section
/-! SUPPORT. A round over any addressed slaves in closed form: each is served once, from its own state; the diagnostics come
in the order of the round, the bytes are combined by AND (R53, R88, R324). -/

namespace Sys2Proof.Machine

/-- The nodes of `ids` served once by `f` and no other node touched; the diagnostics in the order of `ids`. -/
def State.servedOn (ids : List NodeId) (f : Device → Device × List Diag) (s : State) : State :=
  { s with
    nodes := s.nodes.map fun n => if n.id ∈ ids then { n with dev := (f n.dev).1 } else n
    diags := s.diags ++ ids.flatMap fun id => ((s.node? id).map fun n => (f n.dev).2).getD [] }

/-- One call that serves node `id` by `f`. -/
def State.serveOne (f : Device → Device × List Diag) (s : State) (id : NodeId) : State :=
  match s.node? id with
  | some n => (s.setDevice id (f n.dev).1).setDiags (s.diags ++ (f n.dev).2)
  | none => s

theorem State.serveOne_cfg (f : Device → Device × List Diag) (s : State) (id : NodeId) : (s.serveOne f id).cfg = s.cfg := by
  unfold State.serveOne; split <;> rfl

theorem State.serveOne_nodes {f : Device → Device × List Diag} {s : State} (hd : (s.nodes.map Node.id).Nodup) (id : NodeId) :
    (s.serveOne f id).nodes = (s.modifyNode id fun m => { m with dev := (f m.dev).1 }).nodes := by
  unfold State.serveOne
  cases hf : s.node? id with
  | none => rw [State.modifyNode_none hf]
  | some n => rw [← State.modifyNode_of_node? hd hf fun d => (f d).1]; rfl

theorem State.serveOne_ids {f : Device → Device × List Diag} {s : State} (hd : (s.nodes.map Node.id).Nodup) (id : NodeId) :
    (s.serveOne f id).nodes.map Node.id = s.nodes.map Node.id := by
  rw [State.serveOne_nodes hd]; exact State.ids_modifyNode s id _ fun _ => rfl

theorem State.serveOne_node?_other {f : Device → Device × List Diag} {s : State} {id j : NodeId} (h : j ≠ id) :
    (s.serveOne f id).node? j = s.node? j := by
  unfold State.serveOne
  split
  · exact State.node?_setDevice_other _ _ h
  · rfl

/-- A round of such calls is the closed form. -/
theorem State.foldl_serveOne (f : Device → Device × List Diag) : ∀ (ids : List NodeId) (s : State), ids.Nodup →
    (s.nodes.map Node.id).Nodup → ids.foldl (State.serveOne f) s = s.servedOn ids f
  | [], s, _, _ => by simp [State.servedOn]
  | id :: ids, s, hn, hd => by
    obtain ⟨hn1, hn2⟩ := List.nodup_cons.1 hn
    rw [List.foldl_cons, State.foldl_serveOne f ids _ hn2 (by rw [State.serveOne_ids hd]; exact hd)]
    have hnodes : ((s.serveOne f id).nodes.map fun n => if n.id ∈ ids then { n with dev := (f n.dev).1 } else n) =
        s.nodes.map fun n => if n.id ∈ id :: ids then { n with dev := (f n.dev).1 } else n := by
      rw [State.serveOne_nodes hd]
      exact map_modify_map s (fun d => (f d).1) id ids hn1
    have hds : (ids.flatMap fun j => (((s.serveOne f id).node? j).map fun n => (f n.dev).2).getD []) =
        ids.flatMap fun j => ((s.node? j).map fun n => (f n.dev).2).getD [] :=
      List.flatMap_congr fun j hj => by rw [State.serveOne_node?_other (by rintro rfl; exact hn1 hj)]
    have hd1 : (s.serveOne f id).diags = s.diags ++ ((s.node? id).map fun n => (f n.dev).2).getD [] := by
      unfold State.serveOne
      cases s.node? id <;> simp
    have hrest : ∀ (ns : List Node) (ds : List Diag),
        ({ s.serveOne f id with nodes := ns, diags := ds } : State) = { s with nodes := ns, diags := ds } := by
      intro ns ds
      unfold State.serveOne
      cases s.node? id <;> rfl
    simp only [State.servedOn]
    rw [hnodes, hds, hd1, hrest, List.flatMap_cons, List.append_assoc]

/-! ### Each kind of call serves one node -/

/-- A REGDEV's call after earlier diagnostics is its call after none. -/
theorem Work.start_after (r : RegDev) (ds : List Diag) :
    ({ dev := r, diags := ds } : Work) = ({ dev := r, diags := [] } : Work).after ds := by simp [Work.after]

theorem State.eventTo_serveOne (e : SlaveEvent) {s : State} (hd : (s.nodes.map Node.id).Nodup) (id : NodeId) :
    s.eventTo e id = s.serveOne (Device.notified s.cfg e) id := by
  unfold State.eventTo State.serveOne
  cases hf : s.node? id with
  | none => rfl
  | some n =>
    have hself := State.setDevice_self hd hf
    dsimp only
    cases hdev : n.dev with
    | stub c l =>
      rw [hdev] at hself
      by_cases hc : c.caps.event = true <;>
        simp [Device.caps, hc, Device.onEvent, Device.notified, State.putServed, hself, State.setDiags]
    | mux m => rw [hdev] at hself; simp [Device.caps, Device.notified, hself, State.setDiags]
    | regdev c r =>
      rw [hdev] at hself
      simp only [Device.caps, if_true, Device.onEvent, Device.notified, State.putServed]
      rw [Work.start_after r s.diags, frEvent_after]
      rfl

theorem State.sendTo_serveOne (v : Byte) {s : State} (hd : (s.nodes.map Node.id).Nodup) (id : NodeId) :
    s.sendTo v id = s.serveOne (Device.givenByte s.cfg v) id := by
  unfold State.sendTo State.serveOne
  cases hf : s.node? id with
  | none => rfl
  | some n =>
    have hself := State.setDevice_self hd hf
    dsimp only
    cases hdev : n.dev with
    | stub c l =>
      rw [hdev] at hself
      by_cases hc : c.caps.receive = true <;>
        simp [Device.caps, hc, Device.onSend, Device.givenByte, State.putServed, hself, State.setDiags]
    | mux m => simp [Device.caps, Device.onSend, Device.givenByte, State.putServed]
    | regdev c r =>
      simp only [Device.caps, if_true, Device.onSend, Device.givenByte, State.putServed]
      rw [Work.start_after r s.diags, frSend_after]
      rfl

/-- The byte node `id` answers, 0xFF where there is no such node. -/
def State.askedOf (s : State) (id : NodeId) : Byte := ((s.node? id).map fun n => (n.dev.askedByte s.cfg).2).getD 0xFF

theorem State.recvFrom_serveOne {s : State} (hd : (s.nodes.map Node.id).Nodup) (id : NodeId) :
    s.recvFrom id = (s.serveOne (fun d => (d.askedByte s.cfg).1) id, s.askedOf id) := by
  unfold State.recvFrom State.serveOne State.askedOf
  cases hf : s.node? id with
  | none => rfl
  | some n =>
    have hself := State.setDevice_self hd hf
    dsimp only
    cases hdev : n.dev with
    | stub c l =>
      rw [hdev] at hself
      by_cases hc : c.caps.send = true <;>
        simp [Device.caps, hc, Device.onRecv, Device.askedByte, State.putServed, hself, State.setDiags, hdev, errByte]
    | mux m =>
      rw [hdev] at hself
      simp [Device.caps, Device.askedByte, hself, State.setDiags, hdev, errByte]
    | regdev c r =>
      simp only [Device.caps, if_true, Device.onRecv, Device.askedByte, State.putServed, hdev, Option.map_some, Option.getD_some]
      rw [Work.start_after r s.diags, frRecv_after]
      rfl

/-! ### The rounds -/

theorem State.eventAll_served (e : SlaveEvent) (g : Config) : ∀ (ids : List NodeId) (s : State), s.cfg = g →
    (s.nodes.map Node.id).Nodup → State.eventAll e ids s = ids.foldl (State.serveOne (Device.notified g e)) s
  | [], _, _, _ => rfl
  | id :: ids, s, hg, hd => by
    rw [State.eventAll, List.foldl_cons, State.eventTo_serveOne e hd, hg,
      State.eventAll_served e g ids _ (by rw [State.serveOne_cfg, hg]) (by rw [State.serveOne_ids hd]; exact hd)]

theorem State.sendAll_served (v : Byte) (g : Config) : ∀ (ids : List NodeId) (s : State), s.cfg = g →
    (s.nodes.map Node.id).Nodup → State.sendAll v ids s = ids.foldl (State.serveOne (Device.givenByte g v)) s
  | [], _, _, _ => rfl
  | id :: ids, s, hg, hd => by
    rw [State.sendAll, List.foldl_cons, State.sendTo_serveOne v hd, hg,
      State.sendAll_served v g ids _ (by rw [State.serveOne_cfg, hg]) (by rw [State.serveOne_ids hd]; exact hd)]

theorem State.recvAll_served (g : Config) : ∀ (ids : List NodeId) (s : State) (acc : Byte), s.cfg = g → ids.Nodup →
    (s.nodes.map Node.id).Nodup →
    State.recvAll ids s acc =
      (ids.foldl (State.serveOne fun d => (d.askedByte g).1) s, (ids.map s.askedOf).foldl (· &&& ·) acc)
  | [], _, _, _, _, _ => rfl
  | id :: ids, s, acc, hg, hn, hd => by
    obtain ⟨hn1, hn2⟩ := List.nodup_cons.1 hn
    rw [State.recvAll, State.recvFrom_serveOne hd, hg]
    dsimp only
    rw [State.recvAll_served g ids _ _ (by rw [State.serveOne_cfg, hg]) hn2 (by rw [State.serveOne_ids hd]; exact hd)]
    have : ids.map (s.serveOne (fun d => (d.askedByte g).1) id).askedOf = ids.map s.askedOf :=
      List.map_congr_left fun j hj => by
        unfold State.askedOf
        rw [State.serveOne_node?_other (by rintro rfl; exact hn1 hj), State.serveOne_cfg]
    rw [this, List.map_cons, List.foldl_cons, List.foldl_cons]

end Sys2Proof.Machine
end

