-- ==== Sys2Proof/Tests/Slice0.lean ====
section
/-! SUPPORT. Tests: ill-formed terms that the checks refuse, the decoding of words written out from the spec's encoding
tables, one-step tests with the results of 95_test_vectors.md, and one witness for the hypotheses of each obligation. -/

namespace Sys2Proof.Tests

open Sys2Proof Sys2Proof.Machine

/-! ### WellFormed: each check refuses an ill-formed term -/

/-- A payload of `BUF_CAP` bytes with its code is the longest a framer delivers (R19). -/
theorem test_wf_payload : (Instr.operation (.write 0 [1, 2])).wf 3 = true ∧ (Instr.operation (.write 0 [1, 2, 3])).wf 3 = false ∧
    (Instr.mfrId (.write 0 [0, 0, 0])).wf 3 = false ∧ (Instr.readVin (.read 0)).wf 3 = true := by decide

/-- R6: `BUF_CAP` is at least 3. -/
theorem test_wf_bufCap : { referenceConfig with bufCap := 3 }.wf = true ∧ { referenceConfig with bufCap := 2 }.wf = false := by
  decide

/-- R6: `MAX_DEPTH` is at most 255, and the nesting is at most `MAX_DEPTH`. -/
theorem test_wf_depth : { referenceConfig with maxDepth := 256 }.wf = false ∧
    { referenceConfig with maxDepth := 1 }.wf = true ∧ { referenceConfig with maxDepth := 0 }.wf = false := by decide

/-- R6: a MUX has 1 to 8 channels. -/
theorem test_wf_channels : { referenceConfig with root := .mux 0 .nil .empty }.wf = false ∧
    { referenceConfig with root := .mux 0 (.channel .empty .nil) .empty }.wf = true ∧
    { referenceConfig with root := .mux 0 (.channel .empty (.channel .empty (.channel .empty (.channel .empty
      (.channel .empty (.channel .empty (.channel .empty (.channel .empty (.channel .empty .nil))))))))) .empty }.wf = false := by
  decide

/-- R6: node ids are unique. -/
theorem test_wf_ids : { referenceConfig with root := .slave 4 (.slave 4 .empty) }.wf = false := by decide

/-- R6: `NUM_PAGES` is 1 to 255 and there is one `PAGE_DEFAULT` a page. -/
theorem test_wf_pages : (RegDevCfg.withPages 0).wf referenceConfig = false ∧
    RegDevCfg.dflt.wf referenceConfig = true ∧
    { RegDevCfg.dflt with numPages := 2 }.wf referenceConfig = false := by decide

/-- R6: no page number is the pseudo-index. -/
theorem test_wf_pages_256 : (RegDevCfg.withPages 256).wf referenceConfig = false := by decide

/-- R6, R21: the strings of a page and the identity are at most `STR_MAX` bytes, the raw block is 5 bytes. -/
theorem test_wf_strings : { RegDevCfg.dflt with icDeviceId := [1, 2] }.wf { referenceConfig with bufCap := 4 } = true ∧
    { RegDevCfg.dflt with icDeviceId := [1, 2, 3] }.wf { referenceConfig with bufCap := 4 } = false ∧
    { RegDevCfg.dflt with pageDefault := [Page.zero.setString .id [1, 2, 3]] }.wf
      { referenceConfig with bufCap := 4 } = false ∧
    { RegDevCfg.dflt with pageDefault := [{ Page.zero with coefficients := [1] }] }.wf referenceConfig = false := by
  decide

/-- R6: the gain of a triple is not 0. -/
theorem test_wf_gain : { RegDevCfg.dflt with coeff := PerQuantity.all ⟨0, 1, 1⟩ }.wf referenceConfig = false := by
  decide

/-- R6: `CMD_TABLE` has one entry a code; the default table is well-formed with any `CMD_PAGE` (log entry 9). -/
theorem test_wf_table : cmdTableOk [entryPage, entryPage] = false ∧ cmdTableOk defaultCmdTable = true ∧
    { State.reset with cfg := { referenceConfig with cmdPage := 0x05 } }.configOk = true := by decide

/-- R6: the defaults of `NUM_PAGES`, `BCAST_EN`, `IC_DEVICE_ID`, `CAPS` and `NCHAN`. -/
theorem test_defaults : RegDevCfg.dflt.numPages = 1 ∧ RegDevCfg.dflt.bcastEn = false ∧ RegDevCfg.dflt.icDeviceId = [] ∧
    StubCfg.dflt = ⟨⟨true, true, true⟩, false⟩ ∧ TopoChans.dflt.count = 4 := ⟨rfl, rfl, rfl, rfl, rfl⟩

/-- R6: the node records are those of the topology, in its order and of its kinds (log entry 13). -/
theorem test_wf_nodes : State.reset.configOk = true ∧ { State.reset with nodes := State.reset.nodes.tail }.configOk = false ∧
    { State.reset with nodes := State.reset.nodes.reverse }.configOk = false ∧
    (State.reset.setDevice 1 (.stub ⟨⟨true, true, true⟩, true⟩ 0)).configOk = false := by decide

/-! ### Decoding: words written out from the spec's tables, every constructor -/

/-- R60, R61, R63: `kind` in bits 10:8, the address in 7:1 and the direction in 0 of a START. -/
theorem test_decode_wire :
    decode (.wire 0b000_1000000_0) = .ok (.startSend 0x40) ∧
    decode (.wire 0b000_1000000_1) = .ok (.startRecv 0x40) ∧
    decode (.wire 0b001_01010101) = .ok (.tx 0x55) ∧
    decode (.wire 0b010_00000000) = .ok (.rx 0) ∧
    decode (.wire 0b011_10000001) = .ok (.nack 0x81) ∧
    decode (.wire 0b100_00000000) = .ok (.stop 0) ∧
    decode (.wire 0b101_00000001) = .ok (.reserved5 1) ∧
    decode (.wire 0b110_00000010) = .ok (.reserved6 2) ∧
    decode (.wire 0b111_11111111) = .ok (.reserved7 0xFF) :=
  ⟨rfl, rfl, rfl, rfl, rfl, rfl, rfl, rfl, rfl⟩

/-- R64, R200 to R206: byte 0 of a payload is the code, the rest is data. -/
theorem test_decode_control :
    decode (.payload 0 [0x00, 0x34, 0x12]) = .ok (.page (.write 0 [0x34, 0x12])) ∧
    decode (.payload 0 [0x01, 0x34, 0x12]) = .ok (.operation (.write 0 [0x34, 0x12])) ∧
    decode (.payload 0 [0x02, 0x34, 0x12]) = .ok (.onOffConfig (.write 0 [0x34, 0x12])) ∧
    decode (.payload 0 [0x03, 0x34, 0x12]) = .ok (.clearFaults (.write 0 [0x34, 0x12])) ∧
    decode (.payload 0 [0x19, 0x34, 0x12]) = .ok (.capability (.write 0 [0x34, 0x12])) ∧
    decode (.payload 0 [0x20, 0x34, 0x12]) = .ok (.voutMode (.write 0 [0x34, 0x12])) ∧
    decode (.payload 0 [0x30, 0x34, 0x12]) = .ok (.coefficients (.write 0 [0x34, 0x12])) :=
  ⟨rfl, rfl, rfl, rfl, rfl, rfl, rfl⟩

/-- R64, R207 to R213. -/
theorem test_decode_status :
    decode (.payload 0 [0x78, 0x34, 0x12]) = .ok (.statusByte (.write 0 [0x34, 0x12])) ∧
    decode (.payload 0 [0x79, 0x34, 0x12]) = .ok (.statusWord (.write 0 [0x34, 0x12])) ∧
    decode (.payload 0 [0x7A, 0x34, 0x12]) = .ok (.statusVout (.write 0 [0x34, 0x12])) ∧
    decode (.payload 0 [0x7B, 0x34, 0x12]) = .ok (.statusIout (.write 0 [0x34, 0x12])) ∧
    decode (.payload 0 [0x7C, 0x34, 0x12]) = .ok (.statusInput (.write 0 [0x34, 0x12])) ∧
    decode (.payload 0 [0x7D, 0x34, 0x12]) = .ok (.statusTemperature (.write 0 [0x34, 0x12])) ∧
    decode (.payload 0 [0x7E, 0x34, 0x12]) = .ok (.statusCml (.write 0 [0x34, 0x12])) :=
  ⟨rfl, rfl, rfl, rfl, rfl, rfl, rfl⟩

/-- R64, R214 to R233. -/
theorem test_decode_limit :
    decode (.payload 0 [0x40, 0x34, 0x12]) = .ok (.voutOvFaultLimit (.write 0 [0x34, 0x12])) ∧
    decode (.payload 0 [0x42, 0x34, 0x12]) = .ok (.voutOvWarnLimit (.write 0 [0x34, 0x12])) ∧
    decode (.payload 0 [0x43, 0x34, 0x12]) = .ok (.voutUvWarnLimit (.write 0 [0x34, 0x12])) ∧
    decode (.payload 0 [0x44, 0x34, 0x12]) = .ok (.voutUvFaultLimit (.write 0 [0x34, 0x12])) ∧
    decode (.payload 0 [0x46, 0x34, 0x12]) = .ok (.ioutOcFaultLimit (.write 0 [0x34, 0x12])) ∧
    decode (.payload 0 [0x4A, 0x34, 0x12]) = .ok (.ioutOcWarnLimit (.write 0 [0x34, 0x12])) ∧
    decode (.payload 0 [0x4B, 0x34, 0x12]) = .ok (.ioutUcFaultLimit (.write 0 [0x34, 0x12])) ∧
    decode (.payload 0 [0x4F, 0x34, 0x12]) = .ok (.otFaultLimit (.write 0 [0x34, 0x12])) ∧
    decode (.payload 0 [0x51, 0x34, 0x12]) = .ok (.otWarnLimit (.write 0 [0x34, 0x12])) ∧
    decode (.payload 0 [0x52, 0x34, 0x12]) = .ok (.utWarnLimit (.write 0 [0x34, 0x12])) ∧
    decode (.payload 0 [0x53, 0x34, 0x12]) = .ok (.utFaultLimit (.write 0 [0x34, 0x12])) ∧
    decode (.payload 0 [0x55, 0x34, 0x12]) = .ok (.vinOvFaultLimit (.write 0 [0x34, 0x12])) ∧
    decode (.payload 0 [0x57, 0x34, 0x12]) = .ok (.vinOvWarnLimit (.write 0 [0x34, 0x12])) ∧
    decode (.payload 0 [0x58, 0x34, 0x12]) = .ok (.vinUvWarnLimit (.write 0 [0x34, 0x12])) ∧
    decode (.payload 0 [0x59, 0x34, 0x12]) = .ok (.vinUvFaultLimit (.write 0 [0x34, 0x12])) ∧
    decode (.payload 0 [0x5B, 0x34, 0x12]) = .ok (.iinOcFaultLimit (.write 0 [0x34, 0x12])) ∧
    decode (.payload 0 [0x5D, 0x34, 0x12]) = .ok (.iinOcWarnLimit (.write 0 [0x34, 0x12])) ∧
    decode (.payload 0 [0x68, 0x34, 0x12]) = .ok (.poutOpFaultLimit (.write 0 [0x34, 0x12])) ∧
    decode (.payload 0 [0x6A, 0x34, 0x12]) = .ok (.poutOpWarnLimit (.write 0 [0x34, 0x12])) ∧
    decode (.payload 0 [0x6B, 0x34, 0x12]) = .ok (.pinOpWarnLimit (.write 0 [0x34, 0x12])) :=
  ⟨rfl, rfl, rfl, rfl, rfl, rfl, rfl, rfl, rfl, rfl, rfl, rfl, rfl, rfl, rfl, rfl, rfl, rfl, rfl, rfl⟩

/-- R56, R234 to R240: a read dispatches on the latched code. -/
theorem test_decode_reading :
    decode (.latch 0 0x88) = .ok (.readVin (.read 0)) ∧
    decode (.latch 0 0x89) = .ok (.readIin (.read 0)) ∧
    decode (.latch 0 0x8B) = .ok (.readVout (.read 0)) ∧
    decode (.latch 0 0x8C) = .ok (.readIout (.read 0)) ∧
    decode (.latch 0 0x8D) = .ok (.readTemperature1 (.read 0)) ∧
    decode (.latch 0 0x96) = .ok (.readPout (.read 0)) ∧
    decode (.latch 0 0x97) = .ok (.readPin (.read 0)) :=
  ⟨rfl, rfl, rfl, rfl, rfl, rfl, rfl⟩

/-- R64, R241 to R247. -/
theorem test_decode_string :
    decode (.payload 0 [0x99, 0x34, 0x12]) = .ok (.mfrId (.write 0 [0x34, 0x12])) ∧
    decode (.payload 0 [0x9A, 0x34, 0x12]) = .ok (.mfrModel (.write 0 [0x34, 0x12])) ∧
    decode (.payload 0 [0x9B, 0x34, 0x12]) = .ok (.mfrRevision (.write 0 [0x34, 0x12])) ∧
    decode (.payload 0 [0x9C, 0x34, 0x12]) = .ok (.mfrLocation (.write 0 [0x34, 0x12])) ∧
    decode (.payload 0 [0x9D, 0x34, 0x12]) = .ok (.mfrDate (.write 0 [0x34, 0x12])) ∧
    decode (.payload 0 [0x9E, 0x34, 0x12]) = .ok (.mfrSerial (.write 0 [0x34, 0x12])) ∧
    decode (.payload 0 [0xAD, 0x34, 0x12]) = .ok (.icDeviceId (.write 0 [0x34, 0x12])) :=
  ⟨rfl, rfl, rfl, rfl, rfl, rfl, rfl⟩

/-- R66: the codes of the map that are not in the table name no command of it. -/
theorem test_decode_unlisted : decode (.payload 0 [0xD0, 0x11]) = .error (.unknownCommand 0xD0) ∧
    decode (.latch 0 0x45) = .error (.unknownCommand 0x45) ∧ decode (.payload 0 []) = .error .emptyPayload := ⟨rfl, rfl, rfl⟩

/-- Operands for the host decoding test. -/
def args : HostArgs :=
  { node := 2, addr := 0x10, page := 0xFF, flags := 0x03FF, field := .addr, value := .bytes [1], phys := 100 }

/-- R68: the operation number, each operation with the operands of its row. -/
theorem test_decode_host :
    decode (.host 0b0000 args) = .ok .hReset ∧
    decode (.host 0b0001 args) = .ok (.hSetAddr 2 0x10) ∧
    decode (.host 0b0010 args) = .ok (.hPageConfig 2 0xFF 0x03FF) ∧
    decode (.host 0b0011 args) = .ok (.hSetField 2 0xFF .addr (.bytes [1])) ∧
    decode (.host 0b0100 args) = .ok (.hGetField 2 0xFF .addr) ∧
    decode (.host 0b0101 args) = .ok (.hSetPhys 2 0xFF .addr 100) ∧
    decode (.host 0b0110 args) = .ok (.hGetPhys 2 0xFF .addr) ∧
    decode (.host 0b0111 args) = .error (.reservedHostOp 7) ∧
    decode (.host 0b1111 args) = .error (.reservedHostOp 15) := ⟨rfl, rfl, rfl, rfl, rfl, rfl, rfl, rfl, rfl⟩

/-- The response word of R62 and the numbers of R18 and R320. -/
theorem test_codes : respWord .busy 0x00 = 0x200 ∧ respWord .ack 0xA5 = 0x0A5 ∧ respWord .invalid 0xFF = 0x3FF ∧
    FrMode.confused.code = 5 ∧ Diag.hostBadArg.number = 17 ∧ Diag.rmBadPage.number = 8 := by decide

/-! ### States of the tests: the reference configuration of 95_test_vectors.md -/

/-- The reset state, with the state of D0 (id 0) changed. -/
def withD0 (f : RegDev → RegDev) : State :=
  match State.reset.regdev? 0 with
  | some (c, r) => State.reset.setRegDev 0 c (f r)
  | none => State.reset

/-- Every flag set, the pages allocated, every page changed by `f`. -/
def ready (f : Page → Page) (r : RegDev) : RegDev :=
  { r with pg := r.pg.map fun p => f { p with flags := 0x03FF }, rd := { r.rd with pagesValid := true } }

/-- The same with a page selected. -/
def select (v : Byte) (r : RegDev) : RegDev := { r with rd := { r.rd with page := v } }

/-- The bus open to a node, in a direction. -/
def opened (ids : List NodeId) (a : BusAddr) (dir : Direction) (s : State) : State :=
  { s with bus := { isOpen := true, cur := ids, curAddr := a, bcast := false, dir := dir } }

/-- D0 addressed, its framer in a mode with some bytes. -/
def framed (mode : FrMode) (bytes : List Byte) (f : RegDev → RegDev := id) : State :=
  opened [0] 0x40 .send (withD0 fun r => { f r with fr := Framer.holding 34 mode bytes })

/-- The state after an outcome. -/
def after (o : Host.Outcome State Fault Refusal) : State :=
  match o with
  | .next s => s
  | .fault _ => State.reset
  | .refused _ => State.reset

/-- What D0 is after an outcome. -/
def d0After (o : Host.Outcome State Fault Refusal) : Option RegDev := ((after o).regdev? 0).map Prod.snd

/-- A page of D0 after an outcome. -/
def pageAfter (o : Host.Outcome State Fault Refusal) (p : Nat) : Option Page := (d0After o).bind fun r => r.pg[p]?

/-- The response and the diagnostics of an outcome. -/
def answerOf (o : Host.Outcome State Fault Refusal) : Response × List Diag := ((after o).resp, (after o).diags)

/-- Page 0 of D0 after an instruction at the state with every flag set. -/
def page0 (i : Instr) : Option Page := pageAfter (exec i (withD0 (ready id))) 0

/-- What D0 has staged after a read at the state with every flag set and its pages changed by `f`. -/
def stagedBy (i : Instr) (f : Page → Page) : Option (List Byte) :=
  (d0After (exec i (withD0 (ready f)))).map fun r => r.rd.outBuf.take r.rd.outLen

/-! ### One step: the wire port -/

/-- V2.1: requests on an idle bus. -/
theorem test_closed : answerOf (exec (.stop 0) State.reset) = (.wire .ack 0, []) ∧
    answerOf (exec (.nack 0) State.reset) = (.wire .ack 0, [.notOpen]) ∧
    answerOf (exec (.tx 0x55) State.reset) = (.wire .invalid 0, [.notOpen]) ∧
    answerOf (exec (.rx 0) State.reset) = (.wire .invalid 0xFF, [.notOpen]) ∧
    answerOf (exec (.reserved5 0) State.reset) = (.wire .invalid 0, [.reservedReq]) ∧
    answerOf (exec (.reserved6 1) State.reset) = (.wire .invalid 0, [.reservedReq]) ∧
    answerOf (exec (.reserved7 0xFF) State.reset) = (.wire .invalid 0, [.reservedReq]) := by decide

/-- V2.1: no slave claims 0x33; the slaves behind the MUX are not reachable after reset. -/
theorem test_start_nack : answerOf (exec (.startSend 0x33) State.reset) = (.wire .nack 0, []) ∧
    answerOf (exec (.startSend 0x41) State.reset) = (.wire .nack 0, []) := by decide

/-- V2.2: a claimed START; a START to another address is BUSY. -/
theorem test_start_claimed :
    (after (exec (.startSend 0x40) State.reset)).bus = ⟨true, [0], 0x40, false, .send⟩ ∧
    answerOf (exec (.startRecv 0x41) (framed .write [])) = (.wire .busy 0, [.busBusy]) := by decide

/-- V2.2: a repeated START in the same direction confuses the framer. -/
theorem test_start_repeated : answerOf (exec (.startSend 0x40) (framed .write [])) = (.wire .ack 0, [.frUnexpected]) ∧
    (d0After (exec (.startSend 0x40) (framed .write []))).map (fun r => r.fr.mode) = some .confused := by decide

/-- S8, V2.5: a broadcast START before and after channels 0 and 2, or 0 to 3, are enabled. -/
theorem test_broadcast : State.reset.addressed 0 = [1] ∧ (State.reset.setDevice 1 (.mux 0x05)).addressed 0 = [1, 2, 4] ∧
    (State.reset.setDevice 1 (.mux 0x0F)).addressed 0 = [1, 2, 3, 4] := by decide

/-- V2.4: two slaves with one address behind two channels; V2.6: the first of two on one bus. -/
theorem test_scan : (State.reset.setDevice 1 (.mux 0x05)).addressed 0x41 = [2, 4] ∧
    (State.reset.setDevice 1 (.mux 0x05)).addressed 0x42 = [] ∧ (State.reset.setAddr 0 0x50).addressed 0x50 = [0] := by
  decide

/-- V2.3: a STUB without RECEIVE takes no byte; V2.4: a MUX takes its control byte and gives 0xFF. -/
theorem test_stub_mux : (after (exec (.tx 0xAA) (opened [5] 0x50 .send State.reset))).node? 5 = State.reset.node? 5 ∧
    answerOf (exec (.rx 0) (opened [5] 0x50 .recv State.reset)) = (.wire .ack 0x00, []) ∧
    (after (exec (.tx 0x05) (opened [1] 0x70 .send State.reset))).muxControl 1 = 0x05 ∧
    answerOf (exec (.rx 0) (opened [1] 0x70 .recv State.reset)) = (.wire .ack 0xFF, []) := by decide

/-- R88: the bytes of several slaves are combined by AND. -/
theorem test_rx_and : answerOf (exec (.rx 0) (opened [3, 5] 0 .recv
    ((State.reset.setDevice 3 (.stub ⟨⟨true, true, true⟩, true⟩ 0x3C)).setDevice 5 (.stub ⟨⟨false, true, false⟩, false⟩ 0x0F)))) =
    (.wire .ack 0x0C, []) := by decide

/-- D1 and D2, both at 0x41 behind the MUX, addressed together, each with one byte staged. -/
def twoDevices (a b : Byte) : State :=
  let dev := fun (c : RegDevCfg) (x : Byte) (r : RegDev) => Device.regdev c
    { r with fr := Framer.holding 34 .recvOne [], rd := { r.rd with outLen := 1, outBuf := x :: r.rd.outBuf.tail } }
  let g : RegDevCfg := { RegDevCfg.dflt with bcastEn := true }
  opened [2, 4] 0x41 .recv (((State.reset.setDevice 1 (.mux 0x05)).setDevice 2 (dev g a (RegDev.reset 34 g))).setDevice 4
    (dev g b (RegDev.reset 34 g)))

/-- R88, R371, V2.4: two REGDEVs answer one byte request, each framer moves on. -/
theorem test_rx_two_devices : answerOf (exec (.rx 0) (twoDevices 0x3C 0x0F)) = (.wire .ack 0x0C, []) ∧
    (([2, 4] : List NodeId).map fun d => ((after (exec (.rx 0) (twoDevices 0x3C 0x0F))).regdev? d).map fun x => x.2.fr.mode) =
      [some .done, some .done] := by decide

/-- R124: a byte is appended while there is room, and dropped when there is none. -/
theorem test_tx : (d0After (exec (.tx 0x80) (framed .write [0x01]))).map (fun r => r.fr.payload) = some [0x01, 0x80] ∧
    answerOf (exec (.tx 0x80) (framed .write (List.replicate 34 1))) = (.wire .ack 0, [.frOverflow]) := by decide

/-- R129: NACK in READ ends the read, in WRITE it is unexpected. -/
theorem test_nack : (d0After (exec (.nack 0) (framed .read [0x79]))).map (fun r => r.fr.mode) = some .done ∧
    answerOf (exec (.nack 0) (framed .write [])) = (.wire .ack 0, [.frUnexpected]) := by decide

/-- The example of R90: STOP delivers [0x01, 0x80], so OPERATION becomes 0x80; the framer is idle and the bus closed. -/
theorem test_stop : (pageAfter (exec (.stop 0) (framed .write [0x01, 0x80])) 0).map (fun p => p.control.operation) = some 0x80 ∧
    (d0After (exec (.stop 0) (framed .write [0x01, 0x80]))).map (fun r => r.fr) = some (Framer.idle 34) ∧
    (after (exec (.stop 0) (framed .write [0x01, 0x80]))).bus = BusState.idle := by decide

/-- R123: the flush at a repeated START keeps the buffer. -/
theorem test_flush : (d0After (exec (.startRecv 0x40) (framed .write [0x79]))).map (fun r => (r.fr.mode, r.fr.len, r.rd.cmd)) =
    some (.read, 1, 0x79) := by decide

/-! ### One step: the command codes -/

/-- R152: any value is stored, unchecked; R200: a read answers the selector. -/
theorem test_page : (d0After (exec (.page (.write 0 [0xFE])) (withD0 (ready id)))).map (fun r => r.rd.page) = some 0xFE ∧
    answerOf (exec (.page (.read 0)) (withD0 fun r => select 1 (ready id r))) = (.readCall 1, []) := by decide

/-- V4.9: a longer payload warns and stores its first data byte. -/
theorem test_operation : (page0 (.operation (.write 0 [0x80, 0x55]))).map (fun p => p.control.operation) = some 0x80 ∧
    answerOf (exec (.operation (.write 0 [0x80, 0x55])) (withD0 (ready id))) = (.writeCall true, [.rmLenMismatch]) := by decide

/-- S5: the all-pages pseudo-index reaches every page and stays selected. -/
theorem test_operation_all_pages : (d0After (exec (.operation (.write 0 [0x80])) (withD0 fun r => select 0xFF (ready id r)))).map
      (fun r => (r.pg.map fun p => p.control.operation, r.rd.page)) = some ([0x80, 0x80], 0xFF) := by decide

/-- R202. -/
theorem test_onOffConfig : (pageAfter (exec (.onOffConfig (.write 0 [0x1F])) (withD0 fun r => select 1 (ready id r))) 1).map
      (fun p => p.control.onOffConfig) = some 0x1F := by decide

/-- R151, R370: the code alone clears every status field; V4.8: a read is refused with no fault. -/
theorem test_clearFaults : (pageAfter (exec (.clearFaults (.write 0 [])) (withD0 (ready fun p => p.raiseCml))) 1).map (fun p => p.status) = some Status.zero ∧
    answerOf (exec (.clearFaults (.read 0)) (withD0 (ready id))) = (.readCall 0xFF, [.rmReadWo]) := by decide

/-- V4.6: cleared at step 2, raised again at step 5. -/
theorem test_clearFaults_badPage : (pageAfter (exec (.clearFaults (.write 0 [0])) (withD0 fun r => select 2 (ready id r))) 0).map
      (fun p => (p.status.word, p.status.cml)) = some (0x0002, 0x40) := by decide

/-- V4.13: a write of a read-only command raises the fault. -/
theorem test_capability : (page0 (.capability (.write 0 [1]))).map (fun p => (p.status.word, p.status.cml)) = some (0x0002, 0x40) ∧
    answerOf (exec (.capability (.read 0)) (withD0 (ready id))) = (.readCall 0, []) := by decide

/-- R205; V4.15: without its flag the write is lost. -/
theorem test_voutMode : (page0 (.voutMode (.write 0 [0x17]))).map (fun p => p.control.voutMode) = some 0x17 ∧
    (pageAfter (exec (.voutMode (.write 0 [0x17])) State.reset) 0).map (fun p => p.control.voutMode) = some 0x00 := by decide

/-- V4.13: five raw bytes, no length prefix. -/
theorem test_coefficients : answerOf (exec (.coefficients (.read 0)) (withD0 (ready fun p => { p with coefficients := [1, 2, 3, 4, 5] }))) = (.readCall 1, []) ∧
    (d0After (exec (.coefficients (.read 0)) (withD0 (ready fun p => { p with coefficients := [1, 2, 3, 4, 5] })))).map
      (fun r => r.rd.outBuf.take r.rd.outLen) = some [5, 4, 3, 2] := by decide

/-- One default REGDEV, node 0, with the smallest buffers: `BUF_CAP` 3 or 4; its pages allocated, every flag set. -/
def tiny (cap : Nat) (f : Page → Page) : State :=
  State.setRegDev
    (State.powerOn { Config.dflt (.slave 0 .empty) with bufCap := cap } [regNode cap 0 0x40 RegDevCfg.dflt]) 0 RegDevCfg.dflt
    (ready f (RegDev.reset cap RegDevCfg.dflt))

/-- R170: what does not fit the staging buffer is dropped (log entry 15). -/
theorem test_coefficients_overflow :
    (after (exec (.coefficients (.read 0)) (tiny 3 fun p => { p with coefficients := [1, 2, 3, 4, 5] }))).diags = [.rmStageOverflow] ∧
    (d0After (exec (.coefficients (.read 0)) (tiny 3 fun p => { p with coefficients := [1, 2, 3, 4, 5] }))).map
      (fun r => (r.rd.outBuf, r.rd.outLen)) = some ([3, 2, 1], 2) := by decide

/-- V4.10: a byte write clears the high byte of the word. -/
theorem test_statusByte : (pageAfter (exec (.statusByte (.write 0 [0x81])) (withD0 (ready fun p => p.setWord .statusWord 0xFFFF))) 0).map
      (fun p => p.status.word) = some 0x0081 := by decide

/-- V4.10. -/
theorem test_statusWord : (page0 (.statusWord (.write 0 [0x5A, 0xA5]))).map (fun p => p.status.word) = some 0xA55A ∧
    answerOf (exec (.statusWord (.read 0)) (withD0 (ready fun p => p.setWord .statusWord 0xA55A))) = (.readCall 0x5A, []) := by decide

/-- R157, R165: a byte command. -/
theorem test_statusVout :
    (page0 (.statusVout (.write 0 [0x11]))).map (fun p => p.status) = some { Status.zero with vout := 0x11 } := by decide

/-- R157, R165: a byte command. -/
theorem test_statusIout :
    (page0 (.statusIout (.write 0 [0x22]))).map (fun p => p.status) = some { Status.zero with iout := 0x22 } := by decide

/-- R157, R165: a byte command. -/
theorem test_statusInput :
    (page0 (.statusInput (.write 0 [0x33]))).map (fun p => p.status) =
      some { Status.zero with input := 0x33 } := by decide

/-- R157, R165: a byte command. -/
theorem test_statusTemperature :
    (page0 (.statusTemperature (.write 0 [0x44]))).map (fun p => p.status) =
      some { Status.zero with temperature := 0x44 } := by decide

/-- R157, R165: a byte command. -/
theorem test_statusCml :
    (page0 (.statusCml (.write 0 [0x55]))).map (fun p => p.status) = some { Status.zero with cml := 0x55 } := by decide

/-- V4.9: one data byte is the low byte. -/
theorem test_voutOvFaultLimit :
    (page0 (.voutOvFaultLimit (.write 0 [0x34]))).map (fun p => p.limits) =
      some { Page.zero.limits with voutOvFault := 0x0034 } := by decide

/-- R46, R157: the low byte comes first. -/
theorem test_voutOvWarnLimit :
    (page0 (.voutOvWarnLimit (.write 0 [0x34, 0x12]))).map (fun p => p.limits) =
      some { Page.zero.limits with voutOvWarn := 0x1234 } := by decide

/-- R46, R157: the low byte comes first. -/
theorem test_voutUvWarnLimit :
    (page0 (.voutUvWarnLimit (.write 0 [0x34, 0x12]))).map (fun p => p.limits) =
      some { Page.zero.limits with voutUvWarn := 0x1234 } := by decide

/-- R46, R157: the low byte comes first. -/
theorem test_voutUvFaultLimit :
    (page0 (.voutUvFaultLimit (.write 0 [0x34, 0x12]))).map (fun p => p.limits) =
      some { Page.zero.limits with voutUvFault := 0x1234 } := by decide

/-- R46, R157: the low byte comes first. -/
theorem test_ioutOcFaultLimit :
    (page0 (.ioutOcFaultLimit (.write 0 [0x34, 0x12]))).map (fun p => p.limits) =
      some { Page.zero.limits with ioutOcFault := 0x1234 } := by decide

/-- R46, R157: the low byte comes first. -/
theorem test_ioutOcWarnLimit :
    (page0 (.ioutOcWarnLimit (.write 0 [0x34, 0x12]))).map (fun p => p.limits) =
      some { Page.zero.limits with ioutOcWarn := 0x1234 } := by decide

/-- R46, R157: the low byte comes first. -/
theorem test_ioutUcFaultLimit :
    (page0 (.ioutUcFaultLimit (.write 0 [0x34, 0x12]))).map (fun p => p.limits) =
      some { Page.zero.limits with ioutUcFault := 0x1234 } := by decide

/-- R46, R157: the low byte comes first. -/
theorem test_otFaultLimit :
    (page0 (.otFaultLimit (.write 0 [0x34, 0x12]))).map (fun p => p.limits) =
      some { Page.zero.limits with otFault := 0x1234 } := by decide

/-- R46, R157: the low byte comes first. -/
theorem test_otWarnLimit :
    (page0 (.otWarnLimit (.write 0 [0x34, 0x12]))).map (fun p => p.limits) =
      some { Page.zero.limits with otWarn := 0x1234 } := by decide

/-- R46, R157: the low byte comes first. -/
theorem test_utWarnLimit :
    (page0 (.utWarnLimit (.write 0 [0x34, 0x12]))).map (fun p => p.limits) =
      some { Page.zero.limits with utWarn := 0x1234 } := by decide

/-- R46, R157: the low byte comes first. -/
theorem test_utFaultLimit :
    (page0 (.utFaultLimit (.write 0 [0x34, 0x12]))).map (fun p => p.limits) =
      some { Page.zero.limits with utFault := 0x1234 } := by decide

/-- R46, R157: the low byte comes first. -/
theorem test_vinOvFaultLimit :
    (page0 (.vinOvFaultLimit (.write 0 [0x34, 0x12]))).map (fun p => p.limits) =
      some { Page.zero.limits with vinOvFault := 0x1234 } := by decide

/-- R46, R157: the low byte comes first. -/
theorem test_vinOvWarnLimit :
    (page0 (.vinOvWarnLimit (.write 0 [0x34, 0x12]))).map (fun p => p.limits) =
      some { Page.zero.limits with vinOvWarn := 0x1234 } := by decide

/-- R46, R157: the low byte comes first. -/
theorem test_vinUvWarnLimit :
    (page0 (.vinUvWarnLimit (.write 0 [0x34, 0x12]))).map (fun p => p.limits) =
      some { Page.zero.limits with vinUvWarn := 0x1234 } := by decide

/-- R46, R157: the low byte comes first. -/
theorem test_vinUvFaultLimit :
    (page0 (.vinUvFaultLimit (.write 0 [0x34, 0x12]))).map (fun p => p.limits) =
      some { Page.zero.limits with vinUvFault := 0x1234 } := by decide

/-- R46, R157: the low byte comes first. -/
theorem test_iinOcFaultLimit :
    (page0 (.iinOcFaultLimit (.write 0 [0x34, 0x12]))).map (fun p => p.limits) =
      some { Page.zero.limits with iinOcFault := 0x1234 } := by decide

/-- R46, R157: the low byte comes first. -/
theorem test_iinOcWarnLimit :
    (page0 (.iinOcWarnLimit (.write 0 [0x34, 0x12]))).map (fun p => p.limits) =
      some { Page.zero.limits with iinOcWarn := 0x1234 } := by decide

/-- R46, R157: the low byte comes first. -/
theorem test_poutOpFaultLimit :
    (page0 (.poutOpFaultLimit (.write 0 [0x34, 0x12]))).map (fun p => p.limits) =
      some { Page.zero.limits with poutOpFault := 0x1234 } := by decide

/-- R46, R157: the low byte comes first. -/
theorem test_poutOpWarnLimit :
    (page0 (.poutOpWarnLimit (.write 0 [0x34, 0x12]))).map (fun p => p.limits) =
      some { Page.zero.limits with poutOpWarn := 0x1234 } := by decide

/-- R46, R157: the low byte comes first. -/
theorem test_pinOpWarnLimit :
    (page0 (.pinOpWarnLimit (.write 0 [0x34, 0x12]))).map (fun p => p.limits) =
      some { Page.zero.limits with pinOpWarn := 0x1234 } := by decide

/-- R46, R171: the low byte is answered, the high byte stays staged. -/
theorem test_readVin : stagedBy (.readVin (.read 0)) (fun p => { p with readings := { p.readings with vin := 0x1234 } }) = some [0x12] := by decide

/-- R46, R171: the low byte is answered, the high byte stays staged. -/
theorem test_readIin : stagedBy (.readIin (.read 0)) (fun p => { p with readings := { p.readings with iin := 0x1234 } }) = some [0x12] := by decide

/-- R46, R171: the low byte is answered, the high byte stays staged. -/
theorem test_readVout : stagedBy (.readVout (.read 0)) (fun p => { p with readings := { p.readings with vout := 0x1234 } }) = some [0x12] := by decide

/-- R46, R171: the low byte is answered, the high byte stays staged. -/
theorem test_readIout : stagedBy (.readIout (.read 0)) (fun p => { p with readings := { p.readings with iout := 0x1234 } }) = some [0x12] := by decide

/-- R46, R171: the low byte is answered, the high byte stays staged. -/
theorem test_readTemperature1 : stagedBy (.readTemperature1 (.read 0)) (fun p => { p with readings := { p.readings with temperature1 := 0x1234 } }) = some [0x12] := by decide

/-- R46, R171: the low byte is answered, the high byte stays staged. -/
theorem test_readPout : stagedBy (.readPout (.read 0)) (fun p => { p with readings := { p.readings with pout := 0x1234 } }) = some [0x12] := by decide

/-- R46, R171: the low byte is answered, the high byte stays staged. -/
theorem test_readPin : stagedBy (.readPin (.read 0)) (fun p => { p with readings := { p.readings with pin := 0x1234 } }) = some [0x12] := by decide

/-- V4.7: the reading stays, the fault is raised. -/
theorem test_readVout_write : (page0 (.readVout (.write 0 [0x11, 0x11]))).map (fun p => (p.readings.vout, p.status.word, p.status.cml)) =
    some (0x0000, 0x0002, 0x40) := by decide

/-- R161: page 0 is answered, with the fault. -/
theorem test_readVout_allPages : answerOf (exec (.readVout (.read 0)) (withD0 fun r => select 0xFF (ready (fun p => { p with readings := { p.readings with vout := 0x1234 } }) r))) =
    (.readCall 0x34, [.rmAllPagesRead]) := by decide

/-- V4.11: a declared length that is not the actual one rejects the write. -/
theorem test_mfrId_malformed : answerOf (exec (.mfrId (.write 0 [5, 0x58, 0x59])) (withD0 (ready id))) = (.writeCall false, [.rmBlockMalformed]) := by decide

/-- V4.11. -/
theorem test_mfrId : (page0 (.mfrId (.write 0 [3, 0x41, 0x42, 0x43]))).map (fun p => p.mfr) =
    some { Page.zero.mfr with id := [0x41, 0x42, 0x43] } := by decide

/-- V4.11. -/
theorem test_mfrModel : (page0 (.mfrModel (.write 0 [3, 0x41, 0x42, 0x43]))).map (fun p => p.mfr) =
    some { Page.zero.mfr with model := [0x41, 0x42, 0x43] } := by decide

/-- V4.11. -/
theorem test_mfrRevision : (page0 (.mfrRevision (.write 0 [3, 0x41, 0x42, 0x43]))).map (fun p => p.mfr) =
    some { Page.zero.mfr with revision := [0x41, 0x42, 0x43] } := by decide

/-- V4.11. -/
theorem test_mfrLocation : (page0 (.mfrLocation (.write 0 [3, 0x41, 0x42, 0x43]))).map (fun p => p.mfr) =
    some { Page.zero.mfr with location := [0x41, 0x42, 0x43] } := by decide

/-- V4.11. -/
theorem test_mfrDate : (page0 (.mfrDate (.write 0 [3, 0x41, 0x42, 0x43]))).map (fun p => p.mfr) =
    some { Page.zero.mfr with date := [0x41, 0x42, 0x43] } := by decide

/-- V4.11. -/
theorem test_mfrSerial : (page0 (.mfrSerial (.write 0 [3, 0x41, 0x42, 0x43]))).map (fun p => p.mfr) =
    some { Page.zero.mfr with serial := [0x41, 0x42, 0x43] } := by decide

/-- S9: 0x03 0x12 0x34 0x56. -/
theorem test_icDeviceId : answerOf (exec (.icDeviceId (.read 0)) (withD0 (ready id))) = (.readCall 0x03, []) ∧
    (d0After (exec (.icDeviceId (.read 0)) (withD0 (ready id)))).map (fun r => r.rd.outBuf.take r.rd.outLen) = some [0x56, 0x34, 0x12] := by decide

/-- Log entry 7: node 1 is a MUX, there is no node 9. -/
theorem test_noRegDev : exec (.operation (.write 1 [0x80])) State.reset = .fault .noRegDev ∧ exec (.readVin (.read 9)) State.reset = .fault .noRegDev := ⟨rfl, rfl⟩

/-- R160: before any write call a read answers 0xFF. -/
theorem test_unallocated : answerOf (exec (.operation (.read 0)) State.reset) = (.readCall 0xFF, [.rmUnallocated]) := by decide

/-- V4.16: the stale high byte is served first, whatever code is latched. -/
theorem test_readTwoBytes : answerOf (exec (.operation (.read 0)) (withD0 fun r =>
      { ready id r with rd := { (ready id r).rd with outLen := 1, outBuf := 0x12 :: r.rd.outBuf.tail } })) = (.readCall 0x12, []) := by decide

/-! ### The evaluator and the codec -/

/-- A page that is on or off, with limits and readings, evaluated from status 0. -/
def evaluated (operation : Byte) (l : Limits) (r : Readings) : Status :=
  ({ Page.zero with control := ⟨operation, 0, 0⟩, limits := l, readings := r } : Page).evaluateIfOn.status

/-- V5.2, V5.5, V5.7, V5.11: warn and fault, page off, equal is not above, every high row. -/
theorem test_evaluate :
    evaluated 0x80 { Page.zero.limits with voutOvFault := 0x1000, voutOvWarn := 0xF00 } { Page.zero.readings with vout := 0x1001 } =
      ⟨0x8000, 0xC0, 0, 0, 0, 0⟩ ∧
    evaluated 0x7F Page.zero.limits ⟨1, 1, 1, 1, 1, 1, 1⟩ = Status.zero ∧
    evaluated 0x80 { Page.zero.limits with voutOvFault := 0x1000, voutOvWarn := 0x1000 }
      { Page.zero.readings with vout := 0x1000 } = Status.zero ∧
    evaluated 0x80 Page.zero.limits ⟨1, 1, 1, 1, 1, 1, 1⟩ = ⟨0xE004, 0xC0, 0xA3, 0xC7, 0xC0, 0⟩ := by decide

/-- V5.12: every low row; V5.10: unsigned comparison. -/
theorem test_evaluate_low :
    evaluated 0x80 ⟨0, 0, 5, 5, 0, 0, 5, 5, 0, 0, 5, 0, 0, 0, 0, 0, 0, 0, 5, 5⟩ Page.zero.readings =
      ⟨0xE004, 0x30, 0x10, 0x30, 0x30, 0⟩ ∧
    evaluated 0x80 { Page.zero.limits with otFault := 0x50, otWarn := 0x50 }
      { Page.zero.readings with temperature1 := 0xFFF0 } = ⟨0x0004, 0, 0, 0, 0xC0, 0⟩ := by decide

/-- The vectors of section 3.1 for the direct encoder. -/
theorem test_directEncode : directEncode 100 ⟨2, 5, -1⟩ = 0x0015 ∧ directEncode 1234567 ⟨1, 0, -3⟩ = 0x04D3 ∧
    directEncode 70000 ⟨1, 0, 0⟩ = 0x1170 ∧ directEncode 3 ⟨1, -10, 0⟩ = 0xFFF9 ∧ directEncode 5 ⟨1, -30, -1⟩ = 0xFFFD ∧
    directEncode 4 ⟨1, 0, -1⟩ = 0x0000 ∧ directEncode 7000 ⟨1, 0, 1⟩ = 0x1170 := by decide

/-- The vectors of section 3.1 for the direct decoder. -/
theorem test_directDecode : directDecode 0x0015 ⟨2, 5, -1⟩ = 102 ∧ directDecode 0xFFF9 ⟨1, -10, 0⟩ = 65539 ∧
    directDecode 0x1170 ⟨1, 0, 1⟩ = 446 ∧ directDecode 0xFFF6 ⟨-2, 0, 0⟩ = 4294934533 ∧
    directDecode 0x0032 ⟨1, 100, 0⟩ = 4294967246 ∧ directDecode 0xFFFF ⟨1, 0, -5⟩ = 2258532704 := by decide

/-- The vectors of section 3.1 for the linear format. -/
theorem test_linear : linearEncode 0x007F (-9) = 0xFE00 ∧ linearEncode 0x0080 (-9) = 0x0000 ∧ linearEncode 0x8000 2 = 0xE000 ∧
    linearEncode 0xFFFF (-16) = 0x0000 ∧ linearEncode 0x8000 15 = 0xFFFF ∧ linearDecode 0xFE00 (-9) = 0xFFFF ∧
    linearDecode 0x8000 (-16) = 0xFFFF ∧ linearDecode 0x0003 15 = 0x8000 ∧ linearDecode 0x4000 2 = 0x0000 := by decide

/-! ### One step: the host port -/

/-- R301: an open transaction is forgotten. -/
theorem test_hReset : after (exec .hReset (framed .write [0x01, 0x80] (ready id))) = { State.reset with resp := .host .ok (.num 0) } := by
  decide

/-- R302; V6.3: no such node. -/
theorem test_hSetAddr : ((after (exec (.hSetAddr 0 0x50) State.reset)).node? 0).map Node.addr = some 0x50 ∧
    answerOf (exec (.hSetAddr 9 0x10) State.reset) = (.host .bad (.num 0), [.hostBadArg]) := by decide

/-- R303: every page for 0xFF; V6.3: page 2 of a two-page device. -/
theorem test_hPageConfig : (d0After (exec (.hPageConfig 0 0xFF 0x0002) (withD0 (ready id)))).map (fun r => r.pg.map Page.flags) =
      some [0x0002, 0x0002] ∧
    answerOf (exec (.hPageConfig 0 2 1) State.reset) = (.host .bad (.num 0), [.hostBadArg]) := by decide

/-- V5.6: turning the page on evaluates. -/
theorem test_hSetField : (pageAfter (exec (.hSetField 0 0 (.page (.byte .operation)) (.num 0x80)) (withD0 fun r =>
      { r with pg := r.pg.map fun p => { p with readings := { p.readings with vout := 0x1001 } } })) 0).map
      (fun p => (p.control.operation, p.status.word, p.status.vout)) = some (0x80, 0x8000, 0xC0) := by decide

/-- V6.3: `flags`, a 33-byte string, a raw block that is not 5 bytes. -/
theorem test_hSetField_bad :
    (after (exec (.hSetField 0 0 (.page .flags) (.num 1)) State.reset)).resp = .host .bad (.num 0) ∧
    (after (exec (.hSetField 0 0 (.page (.string .id)) (.bytes (List.replicate 33 0))) State.reset)).resp = .host .bad (.num 0) ∧
    (after (exec (.hSetField 0 0 (.page .coefficients) (.bytes [1, 2, 3])) State.reset)).resp = .host .bad (.num 0) := by
  decide

/-- R305; V6.3: a MUX has no latch. -/
theorem test_hGetField : (after (exec (.hGetField 1 0 .addr) State.reset)).resp = .host .ok (.num 0x70) ∧
    (after (exec (.hGetField 1 0 .latch) State.reset)).resp = .host .bad (.num 0) := by decide

/-- V6.1: `e` = -9, 3 is stored as 0x0600; V6.3: not a word field. -/
theorem test_hSetPhys : (pageAfter (exec (.hSetPhys 0 0 (.page (.word (.reading .vout))) 3)
      (withD0 (ready fun p => p.setByte .voutMode 0x17))) 0).map (fun p => p.readings.vout) = some 0x0600 ∧
    (after (exec (.hSetPhys 0 0 (.page (.byte .operation)) 1) State.reset)).resp = .host .bad (.num 0) := by decide

/-- V6.1: 0x0A00 is read as 5. -/
theorem test_hGetPhys : (after (exec (.hGetPhys 0 0 (.page (.word (.limit .voutOvFault))))
      (withD0 (ready fun p => (p.setByte .voutMode 0x17).setWord (.limit .voutOvFault) 0x0A00)))).resp = .host .ok (.num 5) := by
  decide

/-! ### Witnesses: a state and operands that meet the hypotheses of an obligation, clause by clause

A theorem is named after its obligation. Obligations without hypotheses have none. -/

/-- The parameters and the reset state of D0. -/
def cfg0 : RegDevCfg := { RegDevCfg.withPages 2 with icDeviceId := [0x12, 0x34, 0x56] }
def r0 : RegDev := RegDev.reset 34 cfg0

/-- A page with every flag set. -/
def openPage : Page := { Page.zero with flags := 0x03FF }

/-- D0 with its framer in a mode. -/
def framedDev (mode : FrMode) (bytes : List Byte) (f : RegDev → RegDev := id) : RegDev :=
  { f r0 with fr := Framer.holding 34 mode bytes }

/-- What the statements ask of an open bus with one addressed REGDEV. -/
abbrev Addressed (s : State) (r : RegDev) : Prop := s.bus.isOpen = true ∧ s.bus.cur = [0] ∧ s.regdev? 0 = some (cfg0, r)

theorem framed_addressed (mode : FrMode) (bytes : List Byte) (f : RegDev → RegDev) :
    Addressed (framed mode bytes f) (framedDev mode bytes f) := ⟨rfl, rfl, rfl⟩

theorem withD0_regdev (f : RegDev → RegDev) : (withD0 f).regdev? 0 = some (cfg0, f r0) := rfl

/-- Page 0, and the last real page, of D0 selected. -/
theorem selected_first (s : State) (h : s.regdev? 0 = some (cfg0, ready id r0)) :
    Selected s 0 cfg0 (ready id r0) 0 openPage := ⟨h, by decide, rfl, by decide, rfl⟩
theorem selected_last : Selected (withD0 fun r => select 1 (ready id r)) 0 cfg0 (select 1 (ready id r0)) 1 openPage :=
  ⟨rfl, by decide, rfl, by decide, rfl⟩

theorem readDue_ready : ReadDue (ready id r0) ∧ ReadDue (select 1 (ready id r0)) ∧ ReadDue (select 0xFF (ready id r0)) :=
  ⟨⟨rfl, rfl⟩, ⟨rfl, rfl⟩, ⟨rfl, rfl⟩⟩

/-- An entry whose flag the page has. -/
abbrev exposedB (c : RegDevCfg) (e : CmdEntry) (pg : Page) : Bool :=
  decide (tableEntry c.cmdTable e.code = some e) && e.flag.all pg.hasFlag

theorem exposed_of {c : RegDevCfg} {e : CmdEntry} {pg : Page} (h : exposedB c e pg = true) : Exposed c e pg := by
  simp only [exposedB, Bool.and_eq_true, decide_eq_true_eq] at h
  exact ⟨h.1, fun f hf => by simpa [hf] using h.2⟩

theorem witness_StepRunsTheDecodedRequest :
    State.reset.configOk = true ∧ decode (Request.wire 0b100_00000000).frame = .ok (.stop 0) ∧
    decode (Request.host 1 args).frame = .ok (.hSetAddr 2 0x10) := ⟨by decide, rfl, rfl⟩

theorem witness_IllFormedConfigurationIsRefused : { State.reset with nodes := [] }.configOk = false := by decide

theorem witness_ReservedOrMisshapenHostOperationsAreRefused :
    State.reset.configOk = true ∧ 7 ≤ (7 : BitVec 4).toNat ∧ 7 ≤ (15 : BitVec 4).toNat := by decide

theorem witness_StopRunsTheBufferedCommand :
    Addressed (framed .write [0x01, 0x80]) (framedDev .write [0x01, 0x80]) ∧
    decode (.payload 0 (framedDev .write [0x01, 0x80]).fr.payload) = .ok (.operation (.write 0 [0x80])) ∧
    0 < (framedDev .write [0x03]).fr.len ∧ decode (.payload 0 (framedDev .write [0x03]).fr.payload) = .ok (.clearFaults (.write 0 [])) ∧
    Addressed (framed .read [0x79]) (framedDev .read [0x79]) ∧ (framedDev .read [0x79]).fr.mode = .read ∧
    decode (.payload 0 (framedDev .read [0x79]).fr.payload) = .ok (.statusWord (.write 0 [])) :=
  ⟨framed_addressed _ _ _, rfl, by decide, rfl, framed_addressed _ _ _, rfl, rfl⟩

theorem witness_RepeatedStartRunsTheBufferedCommand :
    Addressed (framed .write [0x79]) (framedDev .write [0x79]) ∧ (framedDev .write [0x79]).fr.mode = .write ∧
    0 < (framedDev .write [0x79]).fr.len ∧
    decode (.payload 0 (framedDev .write [0x79]).fr.payload) = .ok (.statusWord (.write 0 [])) :=
  ⟨framed_addressed _ _ _, rfl, by decide, rfl⟩

theorem witness_RxRunsTheLatchedCommand :
    Addressed (framed .recvOne []) (framedDev .recvOne []) ∧ Addressed (framed .read [0x00]) (framedDev .read [0x00]) ∧
    decode (.latch 0 (framedDev .read [0x00]).rd.cmd) = .ok (.page (.read 0)) :=
  ⟨framed_addressed _ _ _, framed_addressed _ _ _, rfl⟩

theorem witness_StepKeepsTheInvariant : State.reset.inv = true ∧
    (∃ t, step { State.reset with pending := [.wire 0b000_1000000_0] } = .next t) ∧
    { State.reset with pending := [.wire 0b000_1000000_0] }.inv = true := ⟨by decide, ⟨_, rfl⟩, by decide⟩

theorem witness_StepIsTotal : { State.reset with pending := [.host 0 HostArgs.zero] }.inv = true := by decide

theorem witness_StepKeepsTheConfiguration : ∃ t, step { State.reset with pending := [.host 1 args] } = .next t := ⟨_, rfl⟩

theorem witness_OnlyOpeningStartStopAndResetChangeTheAddressedSet :
    (∃ t, exec (.tx 1) (framed .write []) = .next t) ∧
    (∃ t, exec (.startRecv 0x40) (framed .write [1]) = .next t) ∧ (framed .write [1]).bus.isOpen = true :=
  ⟨⟨_, rfl⟩, ⟨_, rfl⟩, rfl⟩

theorem witness_WireRequestsReachAddressedNodesOnly :
    (∃ t, exec (decodeWire 0b001_00000001) (framed .write []) = .next t ∧ 5 ∉ t.bus.cur) ∧ 5 ∉ (framed .write []).bus.cur :=
  ⟨⟨_, rfl, by decide⟩, by decide⟩

theorem witness_WirePortCannotWriteHostFields : State.reset.configOk = true ∧ (∀ n ∈ State.reset.nodes, n.dev.standard = true) ∧
    ∃ t, exec (decodeWire 0b000_1000000_0) State.reset = .next t := ⟨by decide, by decide, ⟨_, rfl⟩⟩

theorem witness_HostPortCannotTouchTheTransaction :
    State.reset.configOk = true ∧ decode (.host 1 args) = .ok (.hSetAddr 2 0x10) ∧ Instr.hSetAddr 2 0x10 ≠ .hReset ∧
    ∃ t, exec (.hSetAddr 2 0x10) State.reset = .next t := ⟨by decide, rfl, by decide, ⟨_, rfl⟩⟩

theorem witness_StartThatIsTurnedAwayChangesNothing :
    (State.reset.bus.isOpen = false ∧ State.reset.addressed 0x33 = []) ∧
    ((framed .write []).bus.isOpen = true ∧ (0x41 : BusAddr) ≠ (framed .write []).bus.curAddr) := by decide

theorem witness_ClaimedStartOpensTheTransaction :
    State.reset.inv = true ∧ State.reset.bus.isOpen = false ∧ State.reset.addressed 0x40 ≠ [] ∧ State.reset.addressed 0 ≠ [] := by
  decide

/-- Every clause of the table: each mode, with the buffer empty, in use and full. -/
theorem witness_FramerFollowsTheTransitionTable (m : FrMode) :
    (framedDev m []).fr.mode = m ∧ (framedDev m []).fr.len = 0 ∧ (framedDev m [1]).fr.mode = m ∧ (framedDev m [1]).fr.len = 1 ∧
    (framedDev m (List.replicate 33 1)).fr.len < 34 ∧ 34 ≤ (framedDev m (List.replicate 34 1)).fr.len := by
  cases m <;> decide

theorem witness_UnexpectedRepeatedStartConfusesTheFramer :
    Addressed (framed .write []) (framedDev .write []) ∧ (framedDev .write []).fr.len = 0 ∧
    Addressed (framed .done []) (framedDev .done []) ∧ (framedDev .done []).fr.mode ≠ .write :=
  ⟨framed_addressed _ _ _, rfl, framed_addressed _ _ _, by decide⟩

theorem witness_RequestsOnAClosedBusChangeNothing : State.reset.bus.isOpen = false := rfl

theorem witness_TxToARegisterDevice :
    Addressed (framed .write (List.replicate 33 1)) (framedDev .write (List.replicate 33 1)) ∧
    (framedDev .write (List.replicate 33 1)).fr.len < (framed .write (List.replicate 33 1)).cfg.bufCap ∧
    Addressed (framed .write (List.replicate 34 1)) (framedDev .write (List.replicate 34 1)) ∧
    (framed .write (List.replicate 34 1)).cfg.bufCap ≤ (framedDev .write (List.replicate 34 1)).fr.len ∧
    Addressed (framed .idle []) (framedDev .idle []) ∧ (framedDev .idle []).fr.mode ≠ .write :=
  ⟨framed_addressed _ _ _, by decide, framed_addressed _ _ _, by decide, framed_addressed _ _ _, by decide⟩

theorem witness_NackOfARegisterDevice :
    Addressed (framed .read [1]) (framedDev .read [1]) ∧ Addressed (framed .done []) (framedDev .done []) ∧
    Addressed (framed .write []) (framedDev .write []) ∧ (framedDev .write []).fr.mode ≠ .read ∧
    (framedDev .write []).fr.mode ≠ .done :=
  ⟨framed_addressed _ _ _, framed_addressed _ _ _, framed_addressed _ _ _, by decide, by decide⟩

theorem witness_UnexpectedRxConfusesTheFramer :
    Addressed (framed .write []) (framedDev .write []) ∧ (framedDev .write []).fr.mode ≠ .recvOne ∧
    (framedDev .write []).fr.mode ≠ .read := ⟨framed_addressed _ _ _, by decide, by decide⟩

theorem witness_StopWithoutAWriteCallOnlyCloses :
    Addressed (framed .recvOne []) (framedDev .recvOne []) ∧ (framedDev .recvOne []).fr.len = 0 ∧ cfg0.hookQuick = none ∧
    Addressed (framed .confused [1]) (framedDev .confused [1]) ∧ (framedDev .confused [1]).fr.mode = .confused :=
  ⟨framed_addressed _ _ _, rfl, rfl, framed_addressed _ _ _, rfl⟩

theorem witness_ConfusedDeviceIsFrozenUntilStop :
    (∀ x, decodeWire 0b001_00000001 ≠ .stop x) ∧ Addressed (framed .confused [1]) (framedDev .confused [1]) ∧
    (framedDev .confused [1]).fr.mode = .confused ∧
    ∃ t, exec (decodeWire 0b001_00000001) (framed .confused [1]) = .next t :=
  ⟨fun x h => (nomatch (show Instr.tx 1 = .stop x from h)), framed_addressed _ _ _, rfl, ⟨_, rfl⟩⟩

theorem witness_ScanAddressesClaimingReachableNodes :
    State.reset.cfg.bcastAddr = 0x00 ∧ (0x41 : BusAddr) ≠ State.reset.cfg.bcastAddr ∧
    firstFoundOn (fun id => (State.reset.setDevice 1 (.mux 0x05)).claims id 0x41 false)
      (State.reset.setDevice 1 (.mux 0x05)).muxControl referenceTopology = [2, 4] ∧
    { referenceConfig with root := .slave 0 .empty }.root.members.all (fun m => !m.2) = true := by decide

/-- Channel 1 enabled and T1 addressed with the MUX, as a broadcast START leaves them. -/
def muxAndStub : State := opened [1, 3] 0 .send (State.reset.setDevice 1 (.mux 0x02))

theorem witness_AddressedSlavesAreServedInOrder :
    ((twoDevices 1 2).inv = true ∧ (twoDevices 1 2).bus.isOpen = true) ∧
    ((opened [1, 2, 4] 0 .send (State.reset.setDevice 1 (.mux 0x05))).inv = true) ∧
    muxAndStub.inv = true ∧ muxAndStub.bus.isOpen = true ∧
    ∀ n ∈ muxAndStub.nodes, n.id ∈ muxAndStub.bus.cur → n.dev.isRegDev = false := by decide

theorem witness_ByteCommandWriteStoresTheByte (x : FieldCommand ByteField) (hx : x ∈ byteCommands) :
    Selected (withD0 (ready id)) 0 cfg0 (ready id r0) 0 openPage ∧ Exposed cfg0 x.entry openPage ∧
    Ordinary (withD0 (ready id)) x.entry.code := by
  have h : ∀ y ∈ byteCommands, exposedB cfg0 y.entry openPage = true ∧ y.entry.code ≠ 0x00 ∧ y.entry.code ≠ 0x03 := by decide
  exact ⟨selected_first _ rfl, exposed_of (h x hx).1, (h x hx).2.1, (h x hx).2.2⟩

theorem witness_WordCommandWriteStoresTheWord (x : FieldCommand WordField) (hx : x ∈ wordCommands) :
    Selected (withD0 fun r => select 1 (ready id r)) 0 cfg0 (select 1 (ready id r0)) 1 openPage ∧
    Exposed cfg0 x.entry openPage ∧ Ordinary (withD0 fun r => select 1 (ready id r)) x.entry.code ∧ [(0x34 : Byte)] ≠ [] := by
  have h : ∀ y ∈ wordCommands, exposedB cfg0 y.entry openPage = true ∧ y.entry.code ≠ 0x00 ∧ y.entry.code ≠ 0x03 := by decide
  exact ⟨selected_last, exposed_of (h x hx).1, ⟨(h x hx).2.1, (h x hx).2.2⟩, by decide⟩

theorem witness_StatusByteWriteAssignsTheWholeWord :
    Selected (withD0 (ready id)) 0 cfg0 (ready id r0) 0 openPage ∧ Exposed cfg0 entryStatusByte openPage ∧
    Ordinary (withD0 (ready id)) entryStatusByte.code :=
  ⟨selected_first _ rfl, exposed_of (by decide), by decide, by decide⟩

theorem witness_StringCommandWrite (x : FieldCommand StringField) (hx : x ∈ stringCommands) :
    Selected (withD0 (ready id)) 0 cfg0 (ready id r0) 0 openPage ∧ Exposed cfg0 x.entry openPage ∧
    Ordinary (withD0 (ready id)) x.entry.code ∧ (0 : Byte).toNat = ([] : List Byte).length ∧
    (1 : Byte).toNat ≠ ([] : List Byte).length := by
  have h : ∀ y ∈ stringCommands, exposedB cfg0 y.entry openPage = true ∧ y.entry.code ≠ 0x00 ∧ y.entry.code ≠ 0x03 := by decide
  exact ⟨selected_first _ rfl, exposed_of (h x hx).1, ⟨(h x hx).2.1, (h x hx).2.2⟩, by decide, by decide⟩

theorem witness_ClearFaultsWithDataAndItsRead :
    Selected (withD0 (ready id)) 0 cfg0 (ready id r0) 0 openPage ∧ Exposed cfg0 entryClearFaults openPage ∧
    (withD0 (ready id)).cfg.cmdClearFaults = 0x03 ∧ (withD0 (ready id)).cfg.cmdPage ≠ 0x03 ∧ ReadDue (ready id r0) :=
  ⟨selected_first _ rfl, exposed_of (by decide), rfl, by decide, readDue_ready.1⟩

theorem witness_PageSelectStoresAnyValue : (State.reset.regdev? 0 = some (cfg0, r0) ∧ State.reset.cfg.cmdPage = 0x00 ∧
    State.reset.cfg.cmdClearFaults ≠ 0x00) ∧
    (let s := { withD0 (ready id) with cfg := { referenceConfig with cmdPage := 0x05 } }
     s.configOk = true ∧ Selected s 0 cfg0 (ready id r0) 0 openPage ∧ Exposed cfg0 entryPage openPage ∧ Ordinary s 0x00) :=
  ⟨⟨rfl, rfl, by decide⟩, by decide, selected_first _ rfl, exposed_of (by decide), by decide, by decide⟩

theorem witness_ReadOnlyCommandWriteRaisesTheFault (x : FieldCommand Unit) (hx : x ∈ readOnlyCommands) :
    Selected (withD0 (ready id)) 0 cfg0 (ready id r0) 0 openPage ∧ Exposed cfg0 x.entry openPage ∧
    Ordinary (withD0 (ready id)) x.entry.code := by
  have h : ∀ y ∈ readOnlyCommands, exposedB cfg0 y.entry openPage = true ∧ y.entry.code ≠ 0x00 ∧ y.entry.code ≠ 0x03 := by
    decide
  exact ⟨selected_first _ rfl, exposed_of (h x hx).1, (h x hx).2.1, (h x hx).2.2⟩

theorem witness_CommandOnlyWriteLatchesTheCode : State.reset.regdev? 0 = some (cfg0, r0) ∧ commandRows ≠ [] :=
  ⟨rfl, by decide⟩

theorem witness_GatedCommandWithoutItsFlagDoesNothing (x : FieldCommand Unit) (hx : x ∈ gatedCommands) :
    Selected (withD0 fun r => { r with rd := { r.rd with pagesValid := true } }) 0 cfg0
      { r0 with rd := { r0.rd with pagesValid := true } } 0 Page.zero ∧
    GatedOff cfg0 x.entry Page.zero ∧ cfg0.hookWrite = none ∧ cfg0.hookRead = none ∧ Ordinary State.reset x.entry.code ∧
    ReadDue { r0 with rd := { r0.rd with pagesValid := true } } := by
  have h : ∀ y ∈ gatedCommands, tableEntry cfg0.cmdTable y.entry.code = some y.entry ∧
      y.entry.flag.any (fun f => !Page.zero.hasFlag f) = true ∧ y.entry.code ≠ 0x00 ∧ y.entry.code ≠ 0x03 := by decide
  obtain ⟨h1, h2, h3, h4⟩ := h x hx
  refine ⟨⟨rfl, by decide, rfl, by decide, rfl⟩, ⟨h1, ?_⟩, rfl, rfl, ⟨h3, h4⟩, rfl, rfl⟩
  cases hf : x.entry.flag with
  | none => rw [hf] at h2; cases h2
  | some f => exact ⟨f, rfl, by rw [hf] at h2; simpa using h2⟩

theorem witness_UnlistedCommandCodeIsNoViolation :
    Selected (framed .write [0xD0, 0x11] (ready id)) 0 cfg0 (framedDev .write [0xD0, 0x11] (ready id)) 0 openPage ∧
    (framed .write [0xD0, 0x11] (ready id)).configOk = true ∧
    (framedDev .write [0xD0, 0x11] (ready id)).fr.payload = [0xD0, 0x11] ∧ tableEntry cfg0.cmdTable 0xD0 = none ∧
    Ordinary (framed .write [0xD0, 0x11] (ready id)) 0xD0 ∧
    (let latched := fun r : RegDev => { ready id r with rd := { (ready id r).rd with cmd := 0xD0 } }
     Selected (framed .read [0xD0] latched) 0 cfg0 (framedDev .read [0xD0] latched) 0 openPage ∧
     ReadDue (framedDev .read [0xD0] latched) ∧ (framedDev .read [0xD0] latched).rd.cmd = 0xD0) :=
  ⟨⟨rfl, by decide, rfl, by decide, rfl⟩, by decide, rfl, by decide, ⟨by decide, by decide⟩,
   ⟨rfl, by decide, rfl, by decide, rfl⟩, ⟨rfl, rfl⟩, rfl⟩

/-- Both pages, flags set or clear, behind the pseudo-index. -/
theorem allSelected (f : RegDev → RegDev) (h : (f r0).pg.length = 2) :
    AllSelected (withD0 fun r => select 0xFF (f r)) 0 cfg0 (select 0xFF (f r0)) := ⟨rfl, rfl, h, by decide⟩

theorem witness_AllPagesWriteReachesEveryPage :
    (1 < 2 ∧ [openPage, openPage][1]? = some openPage) ∧
    AllSelected (withD0 fun r => select 0xFF (ready id r)) 0 cfg0 (select 0xFF (ready id r0)) ∧
    (∀ pg ∈ (select 0xFF (ready id r0)).pg,
      (∀ x ∈ wordCommands, Exposed cfg0 x.entry pg) ∧ (∀ x ∈ byteCommands, Exposed cfg0 x.entry pg) ∧
      (∀ x ∈ stringCommands, Exposed cfg0 x.entry pg) ∧ (∀ x ∈ readOnlyCommands, Exposed cfg0 x.entry pg) ∧
      Exposed cfg0 entryStatusByte pg ∧ Exposed cfg0 entryClearFaults pg) ∧
    (∀ row ∈ commandRows, row.code ≠ 0x00 → row.code ≠ 0x03 →
      Ordinary (withD0 fun r => select 0xFF (ready id r)) row.code) ∧
    AllSelected (withD0 fun r => select 0xFF r) 0 cfg0 (select 0xFF r0) ∧
    (∀ x ∈ gatedCommands, ∀ pg ∈ (select 0xFF r0).pg, GatedOff cfg0 x.entry pg) ∧ cfg0.hookWrite = none ∧ 1 ≤ cfg0.numPages := by
  refine ⟨by decide, allSelected (ready id) rfl, ?_, fun _ _ h h' => ⟨h, h'⟩, allSelected id rfl, ?_, rfl, by decide⟩
  · intro pg hpg
    rw [(by decide : ∀ q ∈ (select 0xFF (ready id r0)).pg, q = openPage) pg hpg]
    have h1 : ∀ y ∈ wordCommands, exposedB cfg0 y.entry openPage = true := by decide
    have h2 : ∀ y ∈ byteCommands, exposedB cfg0 y.entry openPage = true := by decide
    have h3 : ∀ y ∈ stringCommands, exposedB cfg0 y.entry openPage = true := by decide
    have h4 : ∀ y ∈ readOnlyCommands, exposedB cfg0 y.entry openPage = true := by decide
    exact ⟨fun x hx => exposed_of (h1 x hx), fun x hx => exposed_of (h2 x hx), fun x hx => exposed_of (h3 x hx),
      fun x hx => exposed_of (h4 x hx), exposed_of (by decide), exposed_of (by decide)⟩
  · intro x hx pg hpg
    rw [(by decide : ∀ q ∈ (select 0xFF r0).pg, q = Page.zero) pg hpg]
    exact (witness_GatedCommandWithoutItsFlagDoesNothing x hx).2.1

theorem witness_BadPageResetsTheSelector :
    (withD0 fun r => select 2 (ready id r)).regdev? 0 = some (cfg0, select 2 (ready id r0)) ∧
    cfg0.numPages ≤ (select 2 (ready id r0)).rd.page.toNat ∧ (select 0xFE (ready id r0)).rd.page ≠ allPages ∧
    cfg0.numPages ≤ (select 0xFE (ready id r0)).rd.page.toNat ∧ ReadDue (select 2 (ready id r0)) ∧
    (∀ row ∈ commandRows.tail, row.code ≠ State.reset.cfg.cmdPage) :=
  ⟨rfl, by decide, by decide, by decide, ⟨rfl, rfl⟩, by decide⟩

theorem witness_AccessToNoRegisterDeviceFaults :
    State.reset.regdev? (deviceOf (.write 1 [0])) = none ∧ State.reset.regdev? (deviceOf (.read 9)) = none := ⟨rfl, rfl⟩

theorem witness_ByteReadsAnswerTheByte :
    Selected (withD0 (ready id)) 0 cfg0 (ready id r0) 0 openPage ∧ ReadDue (ready id r0) ∧
    3 ≤ (withD0 (ready id)).cfg.bufCap ∧ (∀ x ∈ byteCommands, Exposed cfg0 x.entry openPage) ∧
    Exposed cfg0 entryStatusByte openPage ∧ Exposed cfg0 entryCapability openPage ∧ Exposed cfg0 entryPage openPage := by
  have h : ∀ y ∈ byteCommands, exposedB cfg0 y.entry openPage = true := by decide
  exact ⟨selected_first _ rfl, readDue_ready.1, by decide, fun x hx => exposed_of (h x hx), exposed_of (by decide),
    exposed_of (by decide), exposed_of (by decide)⟩

theorem witness_WordReadsAnswerTheLowByteFirst :
    Selected (withD0 fun r => select 1 (ready id r)) 0 cfg0 (select 1 (ready id r0)) 1 openPage ∧
    ReadDue (select 1 (ready id r0)) ∧ (∀ x ∈ wordCommands, Exposed cfg0 x.entry openPage) ∧
    (∀ x ∈ readingCommands, Exposed cfg0 x.entry openPage) := by
  have h : ∀ y ∈ wordCommands, exposedB cfg0 y.entry openPage = true := by decide
  have h' : ∀ y ∈ readingCommands, exposedB cfg0 y.entry openPage = true := by decide
  exact ⟨selected_last, readDue_ready.2.1, fun x hx => exposed_of (h x hx), fun x hx => exposed_of (h' x hx)⟩

theorem witness_BlockReadsAnswerTheFirstByte :
    Selected (withD0 (ready id)) 0 cfg0 (ready id r0) 0 openPage ∧ ReadDue (ready id r0) ∧
    (∀ x ∈ stringCommands, Exposed cfg0 x.entry openPage ∧ (openPage.getString x.field).length + 1 ≤ 34) ∧
    Exposed cfg0 entryIcDeviceId openPage ∧ cfg0.icDeviceId.length + 1 ≤ 34 ∧
    openPage.coefficients = 0 :: [0, 0, 0, 0] ∧ Exposed cfg0 entryCoefficients openPage ∧
    -- the overflow branch: `BUF_CAP` 3 and 4
    (∀ cap, cap = 3 ∨ cap = 4 → (tiny cap id).configOk = true ∧ 3 ≤ (tiny cap id).cfg.bufCap ∧
      (tiny cap id).cfg.bufCap < openPage.coefficients.length ∧
      Selected (tiny cap id) 0 RegDevCfg.dflt (ready id (RegDev.reset cap RegDevCfg.dflt)) 0 openPage ∧
      ReadDue (ready id (RegDev.reset cap RegDevCfg.dflt)) ∧ Exposed RegDevCfg.dflt entryCoefficients openPage) := by
  have h : ∀ y ∈ stringCommands, exposedB cfg0 y.entry openPage = true ∧ (openPage.getString y.field).length + 1 ≤ 34 := by
    decide
  refine ⟨selected_first _ rfl, readDue_ready.1, fun x hx => ⟨exposed_of (h x hx).1, (h x hx).2⟩, exposed_of (by decide),
    by decide, rfl, exposed_of (by decide), ?_⟩
  rintro cap (rfl | rfl)
  · exact ⟨by decide, by decide, by decide, ⟨rfl, by decide, rfl, by decide, rfl⟩, ⟨rfl, rfl⟩, exposed_of (by decide)⟩
  · exact ⟨by decide, by decide, by decide, ⟨rfl, by decide, rfl, by decide, rfl⟩, ⟨rfl, rfl⟩, exposed_of (by decide)⟩

theorem witness_AllPagesReadAnswersPageZero :
    (withD0 fun r => select 0xFF (ready id r)).regdev? 0 = some (cfg0, select 0xFF (ready id r0)) ∧
    (select 0xFF (ready id r0)).rd.page = allPages ∧ (select 0xFF (ready id r0)).pg[0]? = some openPage ∧
    ReadDue (select 0xFF (ready id r0)) ∧ 3 ≤ (withD0 fun r => select 0xFF (ready id r)).cfg.bufCap ∧
    (∀ x ∈ byteCommands, Exposed cfg0 x.entry openPage) ∧ (∀ x ∈ wordCommands, Exposed cfg0 x.entry openPage) ∧
    (∀ x ∈ readingCommands, Exposed cfg0 x.entry openPage) ∧
    (∀ x ∈ stringCommands, Exposed cfg0 x.entry openPage ∧ (openPage.getString x.field).length + 1 ≤ 34) ∧
    Exposed cfg0 entryStatusByte openPage ∧ Exposed cfg0 entryCapability openPage ∧ Exposed cfg0 entryPage openPage ∧
    Exposed cfg0 entryIcDeviceId openPage ∧ cfg0.icDeviceId.length + 1 ≤ 34 ∧
    openPage.coefficients = 0 :: [0, 0, 0, 0] ∧ Exposed cfg0 entryCoefficients openPage ∧
    Exposed cfg0 entryClearFaults openPage ∧
    -- the gated case: the pages allocated, no flag set
    (let f := fun r : RegDev => select 0xFF { r with rd := { r.rd with pagesValid := true } }
     (withD0 f).regdev? 0 = some (cfg0, f r0) ∧ (f r0).pg[0]? = some Page.zero ∧ ReadDue (f r0) ∧
     ∀ x ∈ gatedCommands, GatedOff cfg0 x.entry Page.zero) := by
  have hb : ∀ y ∈ byteCommands, exposedB cfg0 y.entry openPage = true := by decide
  have hw : ∀ y ∈ wordCommands, exposedB cfg0 y.entry openPage = true := by decide
  have hr : ∀ y ∈ readingCommands, exposedB cfg0 y.entry openPage = true := by decide
  have hs : ∀ y ∈ stringCommands, exposedB cfg0 y.entry openPage = true ∧ (openPage.getString y.field).length + 1 ≤ 34 := by
    decide
  exact ⟨rfl, rfl, rfl, readDue_ready.2.2, by decide, fun x hx => exposed_of (hb x hx), fun x hx => exposed_of (hw x hx),
    fun x hx => exposed_of (hr x hx), fun x hx => ⟨exposed_of (hs x hx).1, (hs x hx).2⟩, exposed_of (by decide),
    exposed_of (by decide), exposed_of (by decide), exposed_of (by decide), by decide, rfl, exposed_of (by decide),
    exposed_of (by decide), rfl, rfl, ⟨rfl, rfl⟩, fun x hx => (witness_GatedCommandWithoutItsFlagDoesNothing x hx).2.1⟩

theorem witness_StagedBytesAreServedFirst :
    (let one := { r0 with rd := { r0.rd with outLen := 1 } }
     (withD0 fun r => { r with rd := { r.rd with outLen := 1 } }).regdev? 0 = some (cfg0, one) ∧
     one.rd.outLen = 0 + 1 ∧ one.rd.outBuf[0]? = some 0x00) ∧
    State.reset.regdev? 0 = some (cfg0, r0) ∧ r0.rd.outLen = 0 ∧ r0.rd.pagesValid = false := ⟨⟨rfl, rfl, rfl⟩, rfl, rfl, rfl⟩

theorem witness_ByteRequestNeverClearsStatus : (framed .read [0x79] (ready id)).configOk = true ∧
    (∀ n ∈ (framed .read [0x79] (ready id)).nodes, n.dev.defaultHooks = true) ∧
    ∃ t, exec (.rx 0) (framed .read [0x79] (ready id)) = .next t := ⟨by decide, by decide, ⟨_, rfl⟩⟩

theorem witness_EvaluatorSetsTheTabledBits : Page.zero.control.operation.getLsbD 7 = false ∧
    (Page.zero.setByte .operation 0x80).control.operation.getLsbD 7 = true := by decide

theorem witness_DirectCodecFollowsTheFormula : (⟨2, 5, -1⟩ : Coeff).gain ≠ 0 ∧ (⟨-2, 0, 0⟩ : Coeff).gain ≠ 0 := by decide

theorem witness_LinearCodecShifts : (0 : Int) ≤ 0 ∧ (-1 : Int) < 0 ∧ 16 ≤ 16 ∧ 15 ≤ 15 := by decide

theorem witness_LinearRoundTrip : (0x7FFF : Word).toNat < 2 ^ 15 ∧ (0x3FFF : Word).toNat * 2 ^ (-(-1 : Int)).toNat < 2 ^ 15 := by
  decide

/-- The first and the last real page of D0, the first page number that is none, and a node that is no REGDEV. -/
theorem realPages : RealPage State.reset 0 0 cfg0 r0 Page.zero ∧ RealPage State.reset 0 1 cfg0 r0 Page.zero ∧
    NoRealPage State.reset 0 2 ∧ NoRealPage State.reset 1 0 := by
  refine ⟨⟨rfl, by decide, rfl⟩, ⟨rfl, by decide, rfl⟩, ?_, ?_⟩
  · intro c r h
    rw [show State.reset.regdev? 0 = some (cfg0, r0) from rfl] at h
    cases h
    decide
  · intro c r h
    rw [show State.reset.regdev? 1 = none from rfl] at h
    cases h

theorem witness_HostSetsAddressesAndFlags :
    (∃ x, State.reset.node? 5 = some x) ∧ State.reset.node? 6 = none ∧ State.reset.regdev? 0 = some (cfg0, r0) ∧
    State.reset.regdev? 1 = none ∧ RealPage State.reset 0 1 cfg0 r0 Page.zero ∧ NoRealPage State.reset 0 2 :=
  ⟨⟨_, rfl⟩, rfl, rfl, rfl, realPages.2.1, realPages.2.2.1⟩

theorem witness_HostSetsFields : RealPage State.reset 0 0 cfg0 r0 Page.zero ∧ NoRealPage State.reset 0 2 ∧
    (List.replicate 32 (0 : Byte)).length ≤ State.reset.cfg.bufCap - 2 ∧ [(1 : Byte), 2, 3, 4, 5].length = 5 :=
  ⟨realPages.1, realPages.2.2.1, by decide, by decide⟩

theorem witness_HostGetsFields : RealPage State.reset 0 1 cfg0 r0 Page.zero ∧ NoRealPage State.reset 1 0 ∧
    (∃ x, State.reset.node? 1 = some x) ∧ State.reset.node? 6 = none := ⟨realPages.2.1, realPages.2.2.2, ⟨_, rfl⟩, rfl⟩

theorem witness_PhysicalAccessorsUseTheCodec : RealPage State.reset 0 0 cfg0 r0 Page.zero ∧
    (WordField.limit .utFault, Quantity.temperature) ∈ quantityTable ∧
    (WordField.reading .vout, Quantity.vout) ∈ quantityTable ∧
    NoRealPage State.reset 0 2 ∧ (∀ wf, HostField.page (.byte .operation) = .page (.word wf) → wf = .statusWord) :=
  ⟨realPages.1, by decide, by decide, realPages.2.2.1, fun _ h => by cases h⟩

end Sys2Proof.Tests
end

section
/-! Request kinds and ignored data bytes (R63). -/

namespace Sys2Proof.Machine

/-- A reserved kind writes the answer and the diagnostics and no other field of the state. -/
theorem reservedRequest_eq (s : State) :
    reservedRequest s = { s with resp := .wire .invalid 0x00, diags := s.diags ++ [.reservedReq] } := rfl

theorem exec_reserved5 (x : Byte) (s : State) : exec (.reserved5 x) s = .next (reservedRequest s) := rfl
theorem exec_reserved6 (x : Byte) (s : State) : exec (.reserved6 x) s = .next (reservedRequest s) := rfl
theorem exec_reserved7 (x : Byte) (s : State) : exec (.reserved7 x) s = .next (reservedRequest s) := rfl

theorem exec_rx_ignores_data (x y : Byte) (s : State) : exec (.rx x) s = exec (.rx y) s := rfl
theorem exec_nack_ignores_data (x y : Byte) (s : State) : exec (.nack x) s = exec (.nack y) s := rfl
theorem exec_stop_ignores_data (x y : Byte) (s : State) : exec (.stop x) s = exec (.stop y) s := rfl

/-- Settles O24: the three reserved kinds share one meaning, `reservedRequest`, and the meanings of RX, NACK and STOP do
not mention the data byte. -/
theorem reservedRequestsAreInvalid : Obligations.ReservedRequestsAreInvalid := by
  intro s x y
  rw [exec_reserved5, exec_reserved6, exec_reserved7, reservedRequest_eq]
  exact ⟨rfl, rfl, rfl, exec_rx_ignores_data x y s, exec_nack_ignores_data x y s, exec_stop_ignores_data x y s⟩

end Sys2Proof.Machine
end

section
/-! The framer's transition table (R121 to R130): FINISH for any quick hook, and the eighteen clauses put together. -/

namespace Sys2Proof.Machine

variable {g : Config} {c : RegDevCfg} {w : Work}

/-! ### FINISH: the call an open mode makes, then the idle framer (R130) -/

theorem frClose_empty (read : Bool) (hl : w.dev.fr.len = 0) : frClose g c read w = rmQuick g c read w :=
  if_pos hl

theorem frClose_payload (read : Bool) (hl : w.dev.fr.len ≠ 0) :
    frClose g c read w = (rmWrite g c w.dev.fr.payload w).1 :=
  if_neg hl

theorem frFinish_sending (h : w.dev.fr.mode = .write) :
    frFinish g c w = (frClose g c false w).mapFr fun _ => Framer.idle g.bufCap := by
  simp [frFinish, h]

theorem frFinish_receiving (h : w.dev.fr.mode = .recvOne ∨ w.dev.fr.mode = .read) :
    frFinish g c w = (frClose g c true w).mapFr fun _ => Framer.idle g.bufCap := by
  rcases h with h | h
  · simp [frFinish, h]
  · simp [frFinish, h]

/-- In IDLE, DONE and CONFUSED the framer makes no call, whatever the quick hook and the buffer are. -/
theorem frFinish_resting (h : w.dev.fr.mode = .idle ∨ w.dev.fr.mode = .done ∨ w.dev.fr.mode = .confused) :
    frFinish g c w = w.mapFr fun _ => Framer.idle g.bufCap := by
  rcases h with h | h | h
  · simp [frFinish, h]
  · simp [frFinish, h]
  · simp [frFinish, h]

/-- Each open mode delivers a payload in use by the same write call: the direction matters to the quick command only. -/
theorem frFinish_payload (h : w.dev.fr.mode = .write ∨ w.dev.fr.mode = .recvOne ∨ w.dev.fr.mode = .read)
    (hl : w.dev.fr.len ≠ 0) :
    frFinish g c w = (rmWrite g c w.dev.fr.payload w).1.mapFr fun _ => Framer.idle g.bufCap := by
  rcases h with h | h
  · rw [frFinish_sending h, frClose_payload false hl]
  · rw [frFinish_receiving h, frClose_payload true hl]

theorem frFinish_quickWrite (h : w.dev.fr.mode = .write) (hl : w.dev.fr.len = 0) :
    frFinish g c w = (rmQuick g c false w).mapFr fun _ => Framer.idle g.bufCap := by
  rw [frFinish_sending h, frClose_empty false hl]

theorem frFinish_quickRead (h : w.dev.fr.mode = .recvOne ∨ w.dev.fr.mode = .read) (hl : w.dev.fr.len = 0) :
    frFinish g c w = (rmQuick g c true w).mapFr fun _ => Framer.idle g.bufCap := by
  rw [frFinish_receiving h, frClose_empty true hl]

/-! ### The table -/

/-- Settles O21: one law per handler and group of modes. `setMode`, `confuse` and `mapFr` are the record updates the
statement writes out, and `payload` is the prefix of the buffer, so each law is its clause by definition. -/
theorem framerFollowsTheTransitionTable : Obligations.FramerFollowsTheTransitionTable := by
  intro g c w v mode len enter confused closed
  refine ⟨?startIdle, ?sendAgain, ?recvAgain, ?recvEmpty, ?recvFlush, ?txStore, ?txFull, ?txOther, ?rxOne, ?rxMore,
    ?rxOther, ?nackRead, ?nackDone, ?nackOther, ?stopQuickWrite, ?stopQuickRead, ?stopPayload, ?stopResting⟩
  case startIdle => exact fun hm => ⟨frStartSend_idle hm, frStartRecv_idle hm⟩
  case sendAgain => exact frStartSend_other
  case recvAgain => exact frStartRecv_other
  case recvEmpty => exact frStartRecv_empty
  case recvFlush => exact frStartRecv_flush
  case txStore => exact frSend_write
  case txFull => exact frSend_full
  case txOther => exact frSend_other
  case rxOne => exact frRecv_one
  case rxMore => exact frRecv_read
  case rxOther => exact frRecv_other
  case nackRead => exact frNack_read
  case nackDone => exact frNack_done
  case nackOther => exact frNack_other
  case stopQuickWrite => exact frFinish_quickWrite
  case stopQuickRead => exact frFinish_quickRead
  case stopPayload => exact frFinish_payload
  case stopResting => exact frFinish_resting

end Sys2Proof.Machine
end

section
/-! The linear codec (R265, R266): what the two shift functions compute, and which of them an exponent chooses. -/

namespace Sys2Proof.Machine

/-! ### The left shift multiplies and wraps -/

theorem shl16_toNat (v : Word) (k : Nat) : (shl16 v k).toNat = v.toNat * 2 ^ k % 2 ^ 16 := by
  rw [shl16, BitVec.toNat_shiftLeft, Nat.shiftLeft_eq]

theorem shl16_of_le (v : Word) {k : Nat} (hk : 16 ≤ k) : shl16 v k = 0 :=
  BitVec.shiftLeft_eq_zero hk

/-! ### The right shift divides the signed value -/

theorem asr16_toInt (v : Word) (k : Nat) : (asr16 v k).toInt = v.toInt / 2 ^ k := by
  rw [asr16, BitVec.toInt_sshiftRight, Int.shiftRight_eq_div_pow]
  norm_cast

/-- From 15 on every bit of the result is a copy of the sign bit. -/
theorem asr16_getLsbD_of_le (v : Word) {k i : Nat} (hk : 15 ≤ k) (hi : i < 16) :
    (asr16 v k).getLsbD i = v.getLsbD 15 := by
  have hsign : v.msb = v.getLsbD 15 := BitVec.msb_eq_getLsbD_last v
  rw [asr16, BitVec.getLsbD_sshiftRight]
  by_cases hin : k + i < 16
  · have hki : k + i = 15 := by omega
    simp [hi, hki]
  · simp [hi, hin, hsign]

theorem asr16_of_le (v : Word) {k : Nat} (hk : 15 ≤ k) :
    asr16 v k = if v.getLsbD 15 then 0xFFFF else 0x0000 := by
  apply BitVec.eq_of_getLsbD_eq
  intro i hi
  rw [asr16_getLsbD_of_le v hk hi]
  cases v.getLsbD 15 with
  | false => simp
  | true =>
    have hones : (0xFFFF : Word) = BitVec.allOnes 16 := by decide
    rw [if_pos rfl, hones, BitVec.getLsbD_allOnes, decide_eq_true hi]

/-! ### The sign of the exponent chooses the shift -/

theorem linearEncode_of_nonneg (v : Word) {e : Int} (he : 0 ≤ e) : linearEncode v e = asr16 v e.toNat :=
  if_neg (not_lt.mpr he)

theorem linearDecode_of_nonneg (v : Word) {e : Int} (he : 0 ≤ e) : linearDecode v e = shl16 v e.toNat :=
  if_neg (not_lt.mpr he)

theorem linearEncode_of_neg (v : Word) {e : Int} (he : e < 0) : linearEncode v e = shl16 v (-e).toNat :=
  if_pos he

theorem linearDecode_of_neg (v : Word) {e : Int} (he : e < 0) : linearDecode v e = asr16 v (-e).toNat :=
  if_pos he

/-- Settles O55: the laws of the two shifts, then the choice between them by the sign of the exponent. -/
theorem linearCodecShifts : Obligations.LinearCodecShifts := by
  refine ⟨fun v k => ⟨?left, ?leftAll, ?right, ?rightAll⟩, fun v e he => ?nonneg, fun v e he => ?neg⟩
  case left => exact shl16_toNat v k
  case leftAll => exact shl16_of_le v
  case right => exact asr16_toInt v k
  case rightAll => exact asr16_of_le v
  case nonneg => exact ⟨linearEncode_of_nonneg v he, linearDecode_of_nonneg v he⟩
  case neg => exact ⟨linearEncode_of_neg v he, linearDecode_of_neg v he⟩

end Sys2Proof.Machine
end

section
/-! The direct codec (R261 to R263): the integer divisions of the model round the exact quotients as R261 says, and the two
functions divide the numerator and denominator of the rational formula. -/

namespace Sys2Proof.Machine

/-! ### Round half away from zero -/

theorem isRoundHaz_intCast (n : Int) : IsRoundHaz n (n : ℚ) := by
  simp [IsRoundHaz]

theorem IsRoundHaz.neg {n : Int} {q : ℚ} (h : IsRoundHaz n q) : IsRoundHaz (-n) (-q) := by
  obtain ⟨hnear, htie⟩ := h
  have hdist : |((-n : Int) : ℚ) - -q| = |(n : ℚ) - q| := by
    rw [← abs_neg, Int.cast_neg]
    congr 1
    ring
  refine ⟨hdist.trans_le hnear, fun hhalf => ?_⟩
  rw [Int.cast_neg, abs_neg, abs_neg]
  exact htie (hdist.symm.trans hhalf)

/-- R261's formula for `q ≥ 0`: of the two nearest integers of a tie, the floor of `q + 1/2` is the greater. -/
theorem isRoundHaz_floor {q : ℚ} (hq : 0 ≤ q) : IsRoundHaz ⌊q + 1 / 2⌋ q := by
  have hle : (⌊q + 1 / 2⌋ : ℚ) ≤ q + 1 / 2 := Int.floor_le _
  have hlt : q + 1 / 2 < ⌊q + 1 / 2⌋ + 1 := Int.lt_floor_add_one _
  refine ⟨abs_le.mpr ⟨by linarith, by linarith⟩, fun hhalf => ?_⟩
  have hup : (⌊q + 1 / 2⌋ : ℚ) = q + 1 / 2 := by
    rcases eq_or_eq_neg_of_abs_eq hhalf with h | h
    · linarith
    · linarith
  rw [hup, abs_of_nonneg hq, abs_of_nonneg (by linarith)]
  linarith

theorem roundHaz_natCast (a den : Nat) : roundHaz a den = ((2 * a + den) / (2 * den) : Nat) := by
  simp [roundHaz]

theorem roundHaz_neg (num : Int) (den : Nat) (hden : 0 < den) : roundHaz (-num) den = -roundHaz num den := by
  have hzero : den / (2 * den) = 0 := Nat.div_eq_of_lt (by omega)
  rcases lt_trichotomy num 0 with h | h | h
  · simp [roundHaz, h.le, not_le.mpr h]
  · simp [roundHaz, h, hzero]
  · simp [roundHaz, h.le, not_le.mpr h]

theorem floor_add_half_natCast_div (a : Nat) {den : Nat} (hden : 0 < den) :
    ⌊(a : ℚ) / den + 1 / 2⌋ = ((2 * a + den) / (2 * den) : Nat) := by
  have hd : (den : ℚ) ≠ 0 := by positivity
  have hsum : (a : ℚ) / den + 1 / 2 = ((2 * a + den : Nat) : ℚ) / (2 * den : Nat) := by
    push_cast
    field_simp
  rw [hsum, Rat.floor_natCast_div_natCast]
  rfl

/-- `roundHaz` is `round_haz` of R261 on the quotient. -/
theorem isRoundHaz_roundHaz (num : Int) {den : Nat} (hden : 0 < den) :
    IsRoundHaz (roundHaz num den) ((num : ℚ) / den) := by
  have hnat (a : Nat) : IsRoundHaz (roundHaz a den) ((a : ℚ) / den) := by
    rw [roundHaz_natCast, ← floor_add_half_natCast_div a hden]
    exact isRoundHaz_floor (by positivity)
  obtain ⟨a, rfl | rfl⟩ := num.eq_nat_or_neg
  · exact hnat a
  · rw [roundHaz_neg _ _ hden, Int.cast_neg, neg_div]
    exact (hnat a).neg

/-! ### The integer part toward zero -/

theorem isTrunc_floor {q : ℚ} (hq : 0 ≤ q) : IsTrunc ⌊q⌋ q := by
  refine ⟨fun _ => rfl, fun hq' => ?_⟩
  simp [le_antisymm hq' hq]

theorem IsTrunc.neg {n : Int} {q : ℚ} (h : IsTrunc n q) : IsTrunc (-n) (-q) := by
  obtain ⟨hfloor, hceil⟩ := h
  refine ⟨fun hq => ?_, fun hq => ?_⟩
  · rw [Int.floor_neg, hceil (neg_nonneg.mp hq)]
  · rw [Int.ceil_neg, hfloor (neg_nonpos.mp hq)]

/-- `truncDiv` is `trunc` of R261 on the quotient. -/
theorem isTrunc_truncDiv (num den : Int) : IsTrunc (truncDiv num den) ((num : ℚ) / den) := by
  have hnat (a b : Nat) : IsTrunc (truncDiv a b) ((a : ℚ) / b) := by
    have hfloor : truncDiv a b = ⌊(a : ℚ) / b⌋ := (Rat.floor_natCast_div_natCast a b).symm
    rw [hfloor]
    exact isTrunc_floor (by positivity)
  obtain ⟨a, rfl | rfl⟩ := num.eq_nat_or_neg <;> obtain ⟨b, rfl | rfl⟩ := den.eq_nat_or_neg
  · exact hnat a b
  · simpa [truncDiv, div_neg] using (hnat a b).neg
  · simpa [truncDiv, neg_div] using (hnat a b).neg
  · simpa [truncDiv] using hnat a b

/-! ### Powers of ten and wraparound -/

theorem pow10_pos (k : Nat) : 0 < pow10 k := Nat.pow_pos (by decide)

theorem zpow_ten_of_nonneg {e : Int} (he : 0 ≤ e) : (10 : ℚ) ^ e = pow10 e.toNat := by
  rw [pow10, Nat.cast_pow, ← zpow_natCast, Int.toNat_of_nonneg he]
  rfl

theorem zpow_ten_of_nonpos {e : Int} (he : e ≤ 0) : (10 : ℚ) ^ e = (pow10 (-e).toNat : ℚ)⁻¹ := by
  rw [← zpow_ten_of_nonneg (neg_nonneg.mpr he), zpow_neg, inv_inv]

/-- R267: an integer is narrowed by wraparound. -/
theorem toNat_ofInt_eq_emod (w : Nat) (n : Int) : ((BitVec.ofInt w n).toNat : Int) = n % 2 ^ w := by
  rw [BitVec.toNat_ofInt, Int.toNat_of_nonneg (Int.emod_nonneg _ (by positivity))]
  norm_cast

/-! ### The codec's numerators and denominators -/

theorem directEncode_of_nonneg (x : DWord) {c : Coeff} (h : 0 ≤ c.exponent) :
    directEncode x c = BitVec.ofInt 16 ((c.gain * x.toNat + c.offset) * pow10 c.exponent.toNat) :=
  if_pos h

theorem directEncode_of_neg (x : DWord) {c : Coeff} (h : c.exponent < 0) :
    directEncode x c = BitVec.ofInt 16 (roundHaz (c.gain * x.toNat + c.offset) (pow10 (-c.exponent).toNat)) :=
  if_neg (not_le.mpr h)

theorem directDecode_of_nonpos (y : Word) {c : Coeff} (h : c.exponent ≤ 0) :
    directDecode y c = BitVec.ofInt 32 (truncDiv (y.toNat * pow10 (-c.exponent).toNat - c.offset) c.gain) :=
  if_pos h

theorem directDecode_of_pos (y : Word) {c : Coeff} (h : 0 < c.exponent) :
    directDecode y c = BitVec.ofInt 32
      (truncDiv (y.toNat - c.offset * pow10 c.exponent.toNat) (c.gain * pow10 c.exponent.toNat)) :=
  if_neg (not_le.mpr h)

/-- R262: a non-negative exponent makes the formula an integer; a negative one makes it a quotient, which is rounded. -/
theorem directEncode_rounds (c : Coeff) (x : DWord) : ∃ n : Int,
    IsRoundHaz n (((c.gain : ℚ) * x.toNat + c.offset) * (10 : ℚ) ^ c.exponent) ∧
      ((directEncode x c).toNat : Int) = n % 2 ^ 16 := by
  rcases le_or_gt 0 c.exponent with he | he
  · refine ⟨_, ?_, directEncode_of_nonneg x he ▸ toNat_ofInt_eq_emod 16 _⟩
    rw [zpow_ten_of_nonneg he]
    exact_mod_cast isRoundHaz_intCast ((c.gain * x.toNat + c.offset) * pow10 c.exponent.toNat)
  · refine ⟨_, ?_, directEncode_of_neg x he ▸ toNat_ofInt_eq_emod 16 _⟩
    rw [zpow_ten_of_nonpos he.le, ← div_eq_mul_inv]
    exact_mod_cast isRoundHaz_roundHaz (c.gain * x.toNat + c.offset) (pow10_pos (-c.exponent).toNat)

/-- R263: for a positive exponent the model clears the fraction, with `10^exponent` in the numerator and the denominator. -/
theorem directDecode_truncates (c : Coeff) (hgain : c.gain ≠ 0) (y : Word) : ∃ n : Int,
    IsTrunc n (((y.toNat : ℚ) * (10 : ℚ) ^ (-c.exponent) - c.offset) / c.gain) ∧
      ((directDecode y c).toNat : Int) = n % 2 ^ 32 := by
  rcases le_or_gt c.exponent 0 with he | he
  · refine ⟨_, ?_, directDecode_of_nonpos y he ▸ toNat_ofInt_eq_emod 32 _⟩
    rw [zpow_ten_of_nonneg (neg_nonneg.mpr he)]
    exact_mod_cast isTrunc_truncDiv (y.toNat * pow10 (-c.exponent).toNat - c.offset) c.gain
  · refine ⟨_, ?_, directDecode_of_pos y he ▸ toNat_ofInt_eq_emod 32 _⟩
    have hg : (c.gain : ℚ) ≠ 0 := Int.cast_ne_zero.mpr hgain
    have ht : (pow10 c.exponent.toNat : ℚ) ≠ 0 := Nat.cast_ne_zero.mpr (pow10_pos _).ne'
    have hquot : ((y.toNat : ℚ) * (10 : ℚ) ^ (-c.exponent) - c.offset) / c.gain =
        ((y.toNat - c.offset * pow10 c.exponent.toNat : Int) : ℚ) / (c.gain * pow10 c.exponent.toNat : Int) := by
      rw [zpow_neg, zpow_ten_of_nonneg he.le]
      push_cast
      field_simp
    rw [hquot]
    exact isTrunc_truncDiv _ _

/-- Settles O54: each direction rounds the exact quotient of R262 or R263 and wraps. -/
theorem directCodecFollowsTheFormula : Obligations.DirectCodecFollowsTheFormula :=
  fun c hgain => ⟨directEncode_rounds c, directDecode_truncates c hgain⟩

end Sys2Proof.Machine
end

section
/-! The comparison table of the evaluator (R282): the rows of one sub-status byte raise that byte and one summary bit, so
the table is four such raises in a row. -/

namespace Sys2Proof.Machine

/-! ### Raising the bits of one family -/

/-- The summary bit that goes with a sub-status byte in the table of R282. -/
def summaryOf : SubStatus → SummaryBit
  | .vout => .vout
  | .iout => .ioutPout
  | .input => .input
  | .temperature => .temperature
  | .cml => .cml

/-- The summary bits that some bits of a sub-status byte bring with them: the byte's one bit, or none. -/
def summaryMask (f : SubStatus) (b : Byte) : Word := if b = 0 then 0 else 1 <<< (summaryOf f).bit

@[simp] theorem summaryMask_zero (f : SubStatus) : summaryMask f 0#8 = 0#16 := rfl

theorem summaryMask_of_ne (f : SubStatus) {b : Byte} (hb : b ≠ 0) :
    summaryMask f b = (1 : Word) <<< (summaryOf f).bit :=
  if_neg hb

theorem summaryMask_or (f : SubStatus) (a b : Byte) :
    summaryMask f (a ||| b) = summaryMask f a ||| summaryMask f b := by
  by_cases ha : a = 0
  · simp [ha]
  · by_cases hb : b = 0
    · simp [hb]
    · have hab : a ||| b ≠ 0 := fun h => ha (BitVec.or_eq_zero_iff.mp h).1
      rw [summaryMask_of_ne f ha, summaryMask_of_ne f hb, summaryMask_of_ne f hab, BitVec.or_self]

/-- The status family with some bits of a sub-status byte ORed in, and the summary bit that goes with them. -/
def Status.raise (st : Status) (f : SubStatus) (b : Byte) : Status :=
  { st with word := st.word ||| summaryMask f b }.set f (st.get f ||| b)

theorem Status.raise_zero (st : Status) (f : SubStatus) : st.raise f 0 = st := by
  cases f <;> simp [Status.raise, Status.get, Status.set]

/-- Two raises of one family are one raise of both sets of bits. -/
theorem Status.raise_raise (st : Status) (f : SubStatus) (a b : Byte) :
    (st.raise f a).raise f b = st.raise f (a ||| b) := by
  cases f <;> simp [Status.raise, Status.get, Status.set, summaryMask_or, BitVec.or_assoc]

/-! ### The rows of one sub-status byte -/

/-- The bit at a position of a sub-status byte if a condition holds. -/
def bitIf (cond : Bool) (k : Nat) : Byte := if cond then (1 : Byte) <<< k else 0

theorem bitIf_false_or (k : Nat) (b : Byte) : bitIf false k ||| b = b := BitVec.zero_or

/-- The sub-status bits that some rows set on a page. -/
def firedBits (p : Page) : List EvalRow → Byte
  | [] => 0
  | row :: rows => bitIf (row.fires p) row.bit ||| firedBits p rows

/-- The rows of the table that write one sub-status byte. -/
def evalRowsOf (f : SubStatus) : List EvalRow := evalRows.filter (·.sub = f)

theorem evalRows_eq_families :
    evalRows = evalRowsOf .vout ++ evalRowsOf .iout ++ evalRowsOf .input ++ evalRowsOf .temperature := by
  decide

theorem evalRows_summary : ∀ row ∈ evalRows, row.summary = summaryOf row.sub ∧ (1 : Byte) <<< row.bit ≠ 0 := by
  decide

/-- What a row of the table does: it raises its bit if its condition holds, and leaves the status if not. -/
theorem evalRow_eq_raise {row : EvalRow} (hrow : row ∈ evalRows) (p : Page) (st : Status) :
    (if row.fires p then row.mark st else st) = st.raise row.sub (bitIf (row.fires p) row.bit) := by
  obtain ⟨hsum, hbit⟩ := evalRows_summary row hrow
  cases row.fires p with
  | false => exact (st.raise_zero row.sub).symm
  | true =>
    simp only [bitIf, if_true, EvalRow.mark, Status.raise, summaryMask_of_ne _ hbit, hsum]
    cases row.sub <;> rfl

/-- Rows of the table that share a sub-status byte raise together the bits of those that fire. -/
theorem evalStatus_eq_raise (p : Page) (f : SubStatus) (rows : List EvalRow)
    (hrows : ∀ row ∈ rows, row ∈ evalRows ∧ row.sub = f) (st : Status) :
    evalStatus p rows st = st.raise f (firedBits p rows) := by
  induction rows generalizing st with
  | nil => exact (st.raise_zero f).symm
  | cons row rows ih =>
    obtain ⟨⟨hrow, hsub⟩, hrest⟩ := List.forall_mem_cons.mp hrows
    rw [evalStatus, evalRow_eq_raise hrow, ih hrest, hsub, Status.raise_raise, firedBits]

theorem evalStatus_evalRowsOf (p : Page) (f : SubStatus) (st : Status) :
    evalStatus p (evalRowsOf f) st = st.raise f (firedBits p (evalRowsOf f)) :=
  evalStatus_eq_raise p f _ (fun row hrow => by simpa [evalRowsOf] using hrow) st

theorem evalStatus_append (p : Page) (rows rows' : List EvalRow) (st : Status) :
    evalStatus p (rows ++ rows') st = evalStatus p rows' (evalStatus p rows st) := by
  induction rows generalizing st with
  | nil => rfl
  | cons row rows ih => exact ih _

/-- The whole table is one raise for each of the four sub-status bytes. -/
theorem evalStatus_evalRows (p : Page) (st : Status) :
    evalStatus p evalRows st =
      (((st.raise .vout (firedBits p (evalRowsOf .vout))).raise .iout (firedBits p (evalRowsOf .iout))).raise
        .input (firedBits p (evalRowsOf .input))).raise .temperature (firedBits p (evalRowsOf .temperature)) := by
  rw [evalRows_eq_families]
  simp only [evalStatus_append, evalStatus_evalRowsOf]

/-! ### The bits of the four bytes -/

/-- A sub-status byte written bit by bit, from bit 7; no row sets bit 3. -/
def tabledByte (b7 b6 b5 b4 b2 b1 b0 : Bool) : Byte :=
  BitVec.ofBool b7 ++ BitVec.ofBool b6 ++ BitVec.ofBool b5 ++ BitVec.ofBool b4 ++ BitVec.ofBool false ++
    BitVec.ofBool b2 ++ BitVec.ofBool b1 ++ BitVec.ofBool b0

/-- The same byte as `firedBits` forms it: the bits in the order of the table. -/
theorem tabledByte_eq_or : ∀ b7 b6 b5 b4 b2 b1 b0 : Bool, tabledByte b7 b6 b5 b4 b2 b1 b0 =
    bitIf b7 7 ||| (bitIf b6 6 ||| (bitIf b5 5 ||| (bitIf b4 4 |||
      (bitIf b2 2 ||| (bitIf b1 1 ||| (bitIf b0 0 ||| 0)))))) := by
  decide

/-- A high limit is exceeded (R282). -/
def isAbove (x l : Word) : Bool := decide (l.toNat < x.toNat)

/-- A low limit is undercut (R282). -/
def isBelow (x l : Word) : Bool := decide (x.toNat < l.toNat)

theorem firedBits_vout (p : Page) : firedBits p (evalRowsOf .vout) =
    tabledByte (isAbove p.readings.vout p.limits.voutOvFault) (isAbove p.readings.vout p.limits.voutOvWarn)
      (isBelow p.readings.vout p.limits.voutUvWarn) (isBelow p.readings.vout p.limits.voutUvFault) false false false := by
  rw [tabledByte_eq_or]
  simp only [bitIf_false_or]
  rfl

theorem firedBits_iout (p : Page) : firedBits p (evalRowsOf .iout) =
    tabledByte (isAbove p.readings.iout p.limits.ioutOcFault) false (isAbove p.readings.iout p.limits.ioutOcWarn)
      (isBelow p.readings.iout p.limits.ioutUcFault) false (isAbove p.readings.pout p.limits.poutOpFault)
      (isAbove p.readings.pout p.limits.poutOpWarn) := by
  rw [tabledByte_eq_or]
  simp only [bitIf_false_or]
  rfl

theorem firedBits_input (p : Page) : firedBits p (evalRowsOf .input) =
    tabledByte (isAbove p.readings.vin p.limits.vinOvFault) (isAbove p.readings.vin p.limits.vinOvWarn)
      (isBelow p.readings.vin p.limits.vinUvWarn) (isBelow p.readings.vin p.limits.vinUvFault)
      (isAbove p.readings.iin p.limits.iinOcFault) (isAbove p.readings.iin p.limits.iinOcWarn)
      (isAbove p.readings.pin p.limits.pinOpWarn) := by
  rw [tabledByte_eq_or]
  rfl

theorem firedBits_temperature (p : Page) : firedBits p (evalRowsOf .temperature) =
    tabledByte (isAbove p.readings.temperature1 p.limits.otFault) (isAbove p.readings.temperature1 p.limits.otWarn)
      (isBelow p.readings.temperature1 p.limits.utWarn) (isBelow p.readings.temperature1 p.limits.utFault)
      false false false := by
  rw [tabledByte_eq_or]
  simp only [bitIf_false_or]
  rfl

/-! ### The obligation -/

theorem Page.evaluateIfOn_of_off {p : Page} (h : p.control.operation.getLsbD 7 = false) : p.evaluateIfOn = p :=
  if_neg (Bool.eq_false_iff.mp h)

theorem Page.evaluateIfOn_of_on {p : Page} (h : p.control.operation.getLsbD 7 = true) :
    p.evaluateIfOn = { p with status := evalStatus p evalRows p.status } :=
  if_pos h

/-- Settles O52: the table falls into the rows of four sub-status bytes, each of which ORs in its tabled byte and the summary
bit of it; a page that is off is skipped. -/
theorem evaluatorSetsTheTabledBits : Obligations.EvaluatorSetsTheTabledBits := by
  intro p
  refine ⟨Page.evaluateIfOn_of_off, fun hon => ?_⟩
  rw [Page.evaluateIfOn_of_on hon, evalStatus_evalRows, firedBits_vout, firedBits_iout, firedBits_input,
    firedBits_temperature]
  rfl

end Sys2Proof.Machine
end

section
/-! The host port (46_host_port.md): how an operation finds its node and its page (R300), one lemma for each way it can
go, and the four obligations put together. -/

namespace Sys2Proof.Machine

variable {s : State} {n d : NodeId} {p : Byte} {c : RegDevCfg} {r : RegDev} {pg : Page} {f : HostField}

/-! ### The answers, and the page an operation names (R300) -/

theorem State.hostOk_eq_servedHost (s : State) (v : RawValue) : s.hostOk v = s.servedHost v := rfl

theorem State.hostBad_eq_refusedHost (s : State) : s.hostBad = s.refusedHost := rfl

theorem RealPage.realPage? (h : RealPage s d p c r pg) : s.realPage? d p = some (c, r, pg) := by
  obtain ⟨hr, hlt, hpg⟩ := h
  simp only [State.realPage?, hr, if_pos hlt, hpg]

theorem NoRealPage.realPage? (h : NoRealPage s d p) : s.realPage? d p = none := by
  cases hr : s.regdev? d with
  | none => simp only [State.realPage?, hr]
  | some x => simp only [State.realPage?, hr, if_neg (Nat.not_lt.2 (h _ _ hr))]

theorem regdev?_eq_none_of_node? (h : s.node? n = none) : s.regdev? n = none := by
  simp [State.regdev?, h]

theorem noRealPage_of_regdev? (h : s.regdev? d = none) : NoRealPage s d p := by
  simp [NoRealPage, h]

/-- Updating the page that is there is assigning the updated record. -/
theorem modify_eq_set_of_getElem? {α : Type} {l : List α} {i : Nat} {a : α} (h : l[i]? = some a) (g : α → α) :
    l.modify i g = l.set i (g a) := by
  rw [List.modify_eq_set_getElem?, h]
  rfl

theorem RealPage.updateAndEvaluate (h : RealPage s d p c r pg) (g : Page → Page) :
    updateAndEvaluate r p.toNat g = { r with pg := evaluatePages (r.pg.set p.toNat (g pg)) } := by
  obtain ⟨-, -, hpg⟩ := h
  rw [Machine.updateAndEvaluate, modify_eq_set_of_getElem? hpg]

/-! ### H_SET_ADDR (R302) -/

theorem exec_hSetAddr_of_node {x : Node} (h : s.node? n = some x) (a : BusAddr) :
    exec (.hSetAddr n a) s = .next ((s.setAddr n a).servedHost (.num 0)) := by
  simp only [exec, execHSetAddr, h, State.hostOk_eq_servedHost]

theorem exec_hSetAddr_of_none (h : s.node? n = none) (a : BusAddr) :
    exec (.hSetAddr n a) s = .next s.refusedHost := by
  simp only [exec, execHSetAddr, h, State.hostBad_eq_refusedHost]

/-! ### H_PAGE_CONFIG (R303) -/

theorem exec_hPageConfig_all (h : s.regdev? d = some (c, r)) (flags : Word) :
    exec (.hPageConfig d allPages flags) s =
      .next ((s.setRegDev d c { r with pg := r.pg.map fun q => { q with flags := flags } }).servedHost (.num 0)) := by
  simp only [exec, execHPageConfig, h, if_true, State.hostOk_eq_servedHost]

theorem exec_hPageConfig_of_realPage (h : RealPage s d p c r pg) (hp : p ≠ allPages) (flags : Word) :
    exec (.hPageConfig d p flags) s =
      .next ((s.setRegDev d c { r with pg := r.pg.set p.toNat { pg with flags := flags } }).servedHost (.num 0)) := by
  obtain ⟨hr, hlt, hpg⟩ := h
  simp only [exec, execHPageConfig, hr, if_neg hp, if_pos hlt, modify_eq_set_of_getElem? hpg,
    State.hostOk_eq_servedHost]

theorem exec_hPageConfig_of_no_regdev (h : s.regdev? d = none) (flags : Word) :
    exec (.hPageConfig d p flags) s = .next s.refusedHost := by
  simp only [exec, execHPageConfig, h, State.hostBad_eq_refusedHost]

theorem exec_hPageConfig_of_noRealPage (h : NoRealPage s d p) (hp : p ≠ allPages) (flags : Word) :
    exec (.hPageConfig d p flags) s = .next s.refusedHost := by
  cases hr : s.regdev? d with
  | none => exact exec_hPageConfig_of_no_regdev hr flags
  | some x =>
    have hge : ¬ p.toNat < x.1.numPages := Nat.not_lt.2 (h _ _ hr)
    simp only [exec, execHPageConfig, hr, if_neg hp, if_neg hge, State.hostBad_eq_refusedHost]

/-- Settles O57, each clause by the lemma about the way the operation goes there. -/
theorem hostSetsAddressesAndFlags : Obligations.HostSetsAddressesAndFlags := by
  refine ⟨fun s n a => ⟨fun ⟨_, hx⟩ => exec_hSetAddr_of_node hx a, fun h => exec_hSetAddr_of_none h a⟩,
    fun s d p flags => ⟨?all, ?one, ?noRegDev, ?noPage⟩⟩
  case all =>
    rintro c r hr rfl
    exact exec_hPageConfig_all hr flags
  case one => exact fun _ _ _ h hp => exec_hPageConfig_of_realPage h hp flags
  case noRegDev => exact fun h => exec_hPageConfig_of_no_regdev h flags
  case noPage => exact fun h hp => exec_hPageConfig_of_noRealPage h hp flags

/-! ### H_SET_FIELD (R304) -/

theorem exec_hSetField_of_update {v : RawValue} {upd : Page → Page} (h : RealPage s d p c r pg)
    (hu : fieldUpdate s.cfg.strMax f v = some upd) :
    exec (.hSetField d p f v) s =
      .next ((s.setRegDev d c { r with pg := evaluatePages (r.pg.set p.toNat (upd pg)) }).servedHost (.num 0)) := by
  simp only [exec, execHSetField, h.realPage?, hu, h.updateAndEvaluate, State.hostOk_eq_servedHost]

theorem exec_hSetField_of_noRealPage (h : NoRealPage s d p) (f : HostField) (v : RawValue) :
    exec (.hSetField d p f v) s = .next s.refusedHost := by
  simp only [exec, execHSetField, h.realPage?, State.hostBad_eq_refusedHost]

/-- A name or a value that R304 does not admit is refused, whether or not the page exists. -/
theorem exec_hSetField_of_no_update {v : RawValue} (hu : fieldUpdate s.cfg.strMax f v = none) :
    exec (.hSetField d p f v) s = .next s.refusedHost := by
  simp only [exec, execHSetField]
  cases s.realPage? d p with
  | none => rfl
  | some x => simp only [hu, State.hostBad_eq_refusedHost]

theorem exec_hSetField_string (h : RealPage s d p c r pg) (g : StringField) (v : List Byte) :
    exec (.hSetField d p (.page (.string g)) (.bytes v)) s =
      if v.length ≤ s.cfg.bufCap - 2 then
        .next ((s.setRegDev d c { r with
          pg := evaluatePages (r.pg.set p.toNat (pg.setString g v)) }).servedHost (.num 0))
      else .next s.refusedHost := by
  split
  next hl => exact exec_hSetField_of_update (upd := fun q => q.setString g v) h (if_pos hl)
  next hl => exact exec_hSetField_of_no_update (if_neg hl)

theorem exec_hSetField_coefficients (h : RealPage s d p c r pg) (v : List Byte) :
    exec (.hSetField d p (.page .coefficients) (.bytes v)) s =
      if v.length = 5 then
        .next ((s.setRegDev d c { r with
          pg := evaluatePages (r.pg.set p.toNat { pg with coefficients := v }) }).servedHost (.num 0))
      else .next s.refusedHost := by
  split
  next hl => exact exec_hSetField_of_update (upd := fun q => { q with coefficients := v }) h (if_pos hl)
  next hl => exact exec_hSetField_of_no_update (if_neg hl)

/-- Settles O58: what is done depends on the field's kind, through `fieldUpdate` alone; the names outside a page have no
update. -/
theorem hostSetsFields : Obligations.HostSetsFields := by
  refine fun s d p => ⟨fun c r pg h => ⟨?byte, ?word, ?string, ?coefficients, ?flags⟩, ?noPage, ?outside⟩
  case byte => exact fun g v => exec_hSetField_of_update (upd := fun q => q.setByte g (v.setWidth 8)) h rfl
  case word => exact fun g v => exec_hSetField_of_update (upd := fun q => q.setWord g (v.setWidth 16)) h rfl
  case string => exact exec_hSetField_string h
  case coefficients => exact exec_hSetField_coefficients h
  case flags => exact fun _ => exec_hSetField_of_no_update rfl
  case noPage => exact fun f v h => exec_hSetField_of_noRealPage h f v
  case outside =>
    exact fun _ => ⟨exec_hSetField_of_no_update rfl, exec_hSetField_of_no_update rfl, exec_hSetField_of_no_update rfl⟩

/-! ### H_GET_FIELD (R305) -/

theorem exec_hGetField_of_value {v : RawValue} (h : hostFieldValue n p f s = some v) :
    exec (.hGetField n p f) s = .next (s.servedHost v) := by
  simp only [exec, execHGetField, h, State.hostOk_eq_servedHost]

theorem exec_hGetField_of_no_value (h : hostFieldValue n p f s = none) :
    exec (.hGetField n p f) s = .next s.refusedHost := by
  simp only [exec, execHGetField, h, State.hostBad_eq_refusedHost]

theorem exec_hGetField_page (h : RealPage s n p c r pg) (g : PageField) :
    exec (.hGetField n p (.page g)) s = .next (s.servedHost (pg.fieldValue g)) :=
  exec_hGetField_of_value (by simp only [hostFieldValue, h.realPage?, Option.map_some])

theorem exec_hGetField_of_noRealPage (h : NoRealPage s n p) (g : PageField) :
    exec (.hGetField n p (.page g)) s = .next s.refusedHost :=
  exec_hGetField_of_no_value (by simp only [hostFieldValue, h.realPage?, Option.map_none])

theorem exec_hGetField_addr {x : Node} (h : s.node? n = some x) :
    exec (.hGetField n p .addr) s = .next (s.servedHost (.num (x.addr.setWidth 32))) :=
  exec_hGetField_of_value (by simp only [hostFieldValue, h, Option.map_some])

/-- A control byte is a MUX's alone. -/
theorem exec_hGetField_control {x : Node} (h : s.node? n = some x) :
    exec (.hGetField n p .control) s = match x.dev with
      | .mux control => .next (s.servedHost (.num (control.setWidth 32)))
      | .stub _ _ => .next s.refusedHost
      | .regdev _ _ => .next s.refusedHost := by
  cases hd : x.dev with
  | mux control => exact exec_hGetField_of_value (by simp only [hostFieldValue, h, hd, Option.map_some])
  | stub cfg latch => exact exec_hGetField_of_no_value (by simp only [hostFieldValue, h, hd, Option.map_some])
  | regdev c r => exact exec_hGetField_of_no_value (by simp only [hostFieldValue, h, hd, Option.map_some])

/-- A latch is a STUB's alone. -/
theorem exec_hGetField_latch {x : Node} (h : s.node? n = some x) :
    exec (.hGetField n p .latch) s = match x.dev with
      | .stub _ latch => .next (s.servedHost (.num (latch.setWidth 32)))
      | .mux _ => .next s.refusedHost
      | .regdev _ _ => .next s.refusedHost := by
  cases hd : x.dev with
  | stub cfg latch => exact exec_hGetField_of_value (by simp only [hostFieldValue, h, hd, Option.map_some])
  | mux control => exact exec_hGetField_of_no_value (by simp only [hostFieldValue, h, hd, Option.map_some])
  | regdev c r => exact exec_hGetField_of_no_value (by simp only [hostFieldValue, h, hd, Option.map_some])

theorem exec_hGetField_of_no_node (h : s.node? n = none) (f : HostField) :
    exec (.hGetField n p f) s = .next s.refusedHost := by
  cases f with
  | page g => exact exec_hGetField_of_noRealPage (noRealPage_of_regdev? (regdev?_eq_none_of_node? h)) g
  | addr | control | latch => exact exec_hGetField_of_no_value (by simp only [hostFieldValue, h, Option.map_none])

/-- Settles O59: a page field is read through `Page.fieldValue`, the three other names through the node's record. -/
theorem hostGetsFields : Obligations.HostGetsFields := by
  refine fun s n p => ⟨fun c r pg h => ?page, ?noPage, fun x hx => ?node, ?noNode⟩
  case page =>
    have hget := exec_hGetField_page h
    exact ⟨fun g => hget (.byte g), fun g => hget (.word g), fun g => hget (.string g), hget .coefficients, hget .flags⟩
  case noPage => exact fun g h => exec_hGetField_of_noRealPage h g
  case node => exact ⟨exec_hGetField_addr hx, exec_hGetField_control hx, exec_hGetField_latch hx⟩
  case noNode => exact exec_hGetField_of_no_node

/-! ### H_SET_PHYS and H_GET_PHYS (R306, R307) -/

/-- The fields the physical accessors admit, with their quantities, are the table of R270. -/
theorem physField_of_mem_quantityTable {wf : WordField} {q : Quantity} (h : (wf, q) ∈ quantityTable) :
    physField (.page (.word wf)) = some (wf, q) := by
  have hall : ∀ x ∈ quantityTable, physField (.page (.word x.1)) = some x := by decide
  exact hall _ h

theorem physField_eq_none (h : ∀ wf, f = .page (.word wf) → wf = .statusWord) : physField f = none := by
  cases f with
  | addr | control | latch => rfl
  | page g =>
    cases g with
    | word wf => rw [h wf rfl]; rfl
    | byte | string | coefficients | flags => rfl

theorem encodePhys_eq_ite (c : RegDevCfg) (q : Quantity) (pg : Page) (x : DWord) :
    encodePhys c q pg x =
      if c.fmt.get q = .direct then directEncode x (c.coeff.get q) else linearEncode (x.setWidth 16) pg.exponent := by
  unfold encodePhys
  cases c.fmt.get q <;> rfl

theorem decodePhys_eq_ite (c : RegDevCfg) (q : Quantity) (pg : Page) (raw : Word) :
    decodePhys c q pg raw =
      if c.fmt.get q = .direct then directDecode raw (c.coeff.get q)
      else (linearDecode raw pg.exponent).setWidth 32 := by
  unfold decodePhys
  cases c.fmt.get q <;> rfl

theorem exec_hSetPhys_of_quantity {wf : WordField} {q : Quantity} (h : RealPage s d p c r pg)
    (hf : physField f = some (wf, q)) (x : DWord) :
    exec (.hSetPhys d p f x) s =
      .next ((s.setRegDev d c { r with
        pg := evaluatePages (r.pg.set p.toNat (pg.setWord wf (encodePhys c q pg x))) }).servedHost (.num 0)) := by
  simp only [exec, execHSetPhys, h.realPage?, hf, h.updateAndEvaluate, State.hostOk_eq_servedHost]

theorem exec_hGetPhys_of_quantity {wf : WordField} {q : Quantity} (h : RealPage s d p c r pg)
    (hf : physField f = some (wf, q)) :
    exec (.hGetPhys d p f) s = .next (s.servedHost (.num (decodePhys c q pg (pg.getWord wf)))) := by
  simp only [exec, execHGetPhys, h.realPage?, hf, State.hostOk_eq_servedHost]

theorem exec_hPhys_of_noRealPage (h : NoRealPage s d p) (f : HostField) (x : DWord) :
    exec (.hSetPhys d p f x) s = .next s.refusedHost ∧ exec (.hGetPhys d p f) s = .next s.refusedHost := by
  simp only [exec, execHSetPhys, execHGetPhys, h.realPage?, State.hostBad_eq_refusedHost, and_self]

/-- A field without a quantity is refused, whether or not the page exists. -/
theorem exec_hPhys_of_no_quantity (hf : physField f = none) (x : DWord) :
    exec (.hSetPhys d p f x) s = .next s.refusedHost ∧ exec (.hGetPhys d p f) s = .next s.refusedHost := by
  simp only [exec, execHSetPhys, execHGetPhys]
  cases s.realPage? d p with
  | none => exact ⟨rfl, rfl⟩
  | some y => simp only [hf, State.hostBad_eq_refusedHost, and_self]

/-- Settles O60: a tabled field is encoded and decoded by its quantity's format, every other field has no quantity. -/
theorem physicalAccessorsUseTheCodec : Obligations.PhysicalAccessorsUseTheCodec := by
  refine fun s d p => ⟨fun c r pg h wf q hq => ?_, fun f x hbad => ?_⟩
  · have hf := physField_of_mem_quantityTable hq
    refine ⟨fun x => ?_, ?_⟩
    · rw [exec_hSetPhys_of_quantity h hf, encodePhys_eq_ite]
      rfl
    · rw [exec_hGetPhys_of_quantity h hf, decodePhys_eq_ite]
      rfl
  · rcases hbad with hpage | hfield
    · exact exec_hPhys_of_noRealPage hpage f x
    · exact exec_hPhys_of_no_quantity (physField_eq_none hfield) x

end Sys2Proof.Machine
end

section
/-! Encoding and decoding (30_encoding.md): the fields of a request word, the decoder on each kind of frame, and the
round trips. -/

namespace Sys2Proof.Machine

/-! ### The fields of a request word (R60, R61) -/

@[simp] theorem reqKind_reqWord (kind : BitVec 3) (b : Byte) : reqKind (reqWord kind b) = kind := by
  apply BitVec.eq_of_getLsbD_eq
  intro i hi
  rw [reqKind, reqWord, BitVec.getLsbD_extractLsb', BitVec.getLsbD_append]
  simp [hi]

@[simp] theorem reqData_reqWord (kind : BitVec 3) (b : Byte) : reqData (reqWord kind b) = b := by
  apply BitVec.eq_of_getLsbD_eq
  intro i hi
  rw [reqData, reqWord, BitVec.getLsbD_extractLsb', BitVec.getLsbD_append]
  simp [hi]

theorem reqWord_reqKind_reqData (req : BitVec 11) : reqWord (reqKind req) (reqData req) = req := by
  apply BitVec.eq_of_getLsbD_eq
  intro i hi
  simp only [reqKind, reqData, reqWord, BitVec.getLsbD_append, BitVec.getLsbD_extractLsb']
  by_cases h : i < 8
  · simp [h]
  · have : i - 8 < 3 := by omega
    have : 8 + (i - 8) = i := by omega
    simp [*]

/-- A START byte is its address above its direction bit (R61). -/
theorem addrByte_addrOf : ∀ b : Byte, addrByte (addrOf b) (BitVec.ofBool (b.getLsbD 0)) = b := by decide

theorem addrOf_addrByte (rw : BitVec 1) : ∀ a : BusAddr, addrOf (addrByte a rw) = a := by
  revert rw; decide

theorem getLsbD_addrByte (rw : BitVec 1) : ∀ a : BusAddr, (addrByte a rw).getLsbD 0 = rw.getLsbD 0 := by
  revert rw; decide

/-! ### The decoder on each request kind (R60, R63) -/

theorem decodeWire_start (b : Byte) :
    decodeWire (reqWord 0 b) = if b.getLsbD 0 then .startRecv (addrOf b) else .startSend (addrOf b) := by
  simp [decodeWire]
theorem decodeWire_tx (b : Byte) : decodeWire (reqWord 1 b) = .tx b := by simp [decodeWire]
theorem decodeWire_rx (b : Byte) : decodeWire (reqWord 2 b) = .rx b := by simp [decodeWire]
theorem decodeWire_nack (b : Byte) : decodeWire (reqWord 3 b) = .nack b := by simp [decodeWire]
theorem decodeWire_stop (b : Byte) : decodeWire (reqWord 4 b) = .stop b := by simp [decodeWire]
theorem decodeWire_reserved5 (b : Byte) : decodeWire (reqWord 5 b) = .reserved5 b := by simp [decodeWire]
theorem decodeWire_reserved6 (b : Byte) : decodeWire (reqWord 6 b) = .reserved6 b := by simp [decodeWire]
theorem decodeWire_reserved7 (b : Byte) : decodeWire (reqWord 7 b) = .reserved7 b := by simp [decodeWire]

theorem reqKind_cases : ∀ k : BitVec 3, k = 0 ∨ k = 1 ∨ k = 2 ∨ k = 3 ∨ k = 4 ∨ k = 5 ∨ k = 6 ∨ k = 7 := by decide

/-- Every request word is a kind and a data byte, and each kind encodes what it decodes to. -/
theorem encode_decodeWire_reqWord (kind : BitVec 3) (b : Byte) :
    encode (decodeWire (reqWord kind b)) = .wire (reqWord kind b) := by
  rcases reqKind_cases kind with rfl | rfl | rfl | rfl | rfl | rfl | rfl | rfl
  · rw [decodeWire_start]
    have hb := addrByte_addrOf b
    cases hd : b.getLsbD 0 with
    | false => rw [hd] at hb; exact congrArg (fun x => Frame.wire (reqWord 0 x)) hb
    | true => rw [hd] at hb; exact congrArg (fun x => Frame.wire (reqWord 0 x)) hb
  · rw [decodeWire_tx]; rfl
  · rw [decodeWire_rx]; rfl
  · rw [decodeWire_nack]; rfl
  · rw [decodeWire_stop]; rfl
  · rw [decodeWire_reserved5]; rfl
  · rw [decodeWire_reserved6]; rfl
  · rw [decodeWire_reserved7]; rfl

/-- Settles O2: a request word is the word of its kind and its data byte. -/
theorem decodedRequestEncodesBack : Obligations.DecodedRequestEncodesBack := by
  intro req
  rw [← reqWord_reqKind_reqData req]
  exact encode_decodeWire_reqWord _ _

/-! ### The decoder on a command frame (R64, R66) -/

/-- Both accesses of a command are decoded by their code. -/
theorem decode_commandFrame (code : Byte) (a : CmdAccess) : decode (commandFrame code a) = decodeCommand code a := by
  cases a <;> rfl

/-- Settles O1: a request word by the law of its kind, a command by the row its code finds, a host operation by its
number. -/
theorem encodedInstructionDecodesToItself : Obligations.EncodedInstructionDecodesToItself := by
  intro i
  cases i with
  | startSend a =>
    refine congrArg Except.ok ?_
    rw [decodeWire_start, getLsbD_addrByte, addrOf_addrByte]; rfl
  | startRecv a =>
    refine congrArg Except.ok ?_
    rw [decodeWire_start, getLsbD_addrByte, addrOf_addrByte]; rfl
  | tx v => exact congrArg Except.ok (decodeWire_tx v)
  | rx v => exact congrArg Except.ok (decodeWire_rx v)
  | nack v => exact congrArg Except.ok (decodeWire_nack v)
  | stop v => exact congrArg Except.ok (decodeWire_stop v)
  | reserved5 v => exact congrArg Except.ok (decodeWire_reserved5 v)
  | reserved6 v => exact congrArg Except.ok (decodeWire_reserved6 v)
  | reserved7 v => exact congrArg Except.ok (decodeWire_reserved7 v)
  | hReset | hSetAddr | hPageConfig | hSetField | hGetField | hSetPhys | hGetPhys => rfl
  | _ c => exact (decode_commandFrame _ c).trans rfl

/-- Settles O3: the decoder computes on each of the nine words. -/
theorem wordsOfTheSpecDecode : Obligations.WordsOfTheSpecDecode :=
  ⟨rfl, rfl, rfl, rfl, rfl, rfl, rfl, rfl, rfl⟩

end Sys2Proof.Machine
end

section
/-! The step (00_scope.md R5, R6), and the requests and operations that change no state or reset all of it. -/

namespace Sys2Proof.Machine

/-! ### One step -/

theorem step_refuses {s : State} (h : s.configOk = false) : step s = .refused .illFormedConfiguration := by
  simp [step, h]

theorem step_idle {s : State} (h : s.configOk = true) (hp : s.pending = []) : step s = .next s := by
  simp [step, h, hp]

theorem step_serves {s : State} {rq : Request} {rest : List Request} (h : s.configOk = true)
    (hp : s.pending = rq :: rest) : step s = serve rq (s.begin rest) := by
  simp [step, h, hp]

theorem serve_decoded {rq : Request} {i : Instr} (h : decode rq.frame = .ok i) (s : State) : serve rq s = exec i s := by
  simp [serve, h]

/-- A request that decodes to no instruction is refused whatever the reason (R68, R300). -/
theorem serve_undecoded {rq : Request} {e : DecodeError} (h : decode rq.frame = .error e) (s : State) :
    serve rq s = .next s.hostBad := by
  simp only [serve, h]
  cases e <;> rfl

/-- The host operation numbers 7 to 15 are reserved (R68). -/
theorem decodeHost_reserved {op : BitVec 4} (h : 7 ≤ op.toNat) (args : HostArgs) :
    decodeHost op args = .error (.reservedHostOp op) := by
  unfold decodeHost
  split
  case h_8 => rfl
  all_goals omega

/-- Settles O4: the step and the serving of a decoded request, each by its law. -/
theorem stepRunsTheDecodedRequest : Obligations.StepRunsTheDecodedRequest := by
  intro s rq rest i hok hp hd
  rw [step_serves hok hp, serve_decoded hd]
  rfl

/-- Settles O5. -/
theorem illFormedConfigurationIsRefused : Obligations.IllFormedConfigurationIsRefused := fun _ h => step_refuses h

/-- Settles O6: a reserved number decodes to no instruction, a value of the wrong shape to no update of a field. -/
theorem reservedOrMisshapenHostOperationsAreRefused : Obligations.ReservedOrMisshapenHostOperationsAreRefused := by
  refine ⟨fun s op args rest hok hp hop => ?_, fun s d p => ⟨?byte, ?word, ?string, ?coefficients⟩⟩
  · rw [step_serves hok hp, serve_undecoded (rq := .host op args) (decodeHost_reserved hop args)]
    rfl
  case byte => exact fun _ _ => exec_hSetField_of_no_update rfl
  case word => exact fun _ _ => exec_hSetField_of_no_update rfl
  case string => exact fun _ _ => exec_hSetField_of_no_update rfl
  case coefficients => exact fun _ => exec_hSetField_of_no_update rfl

/-! ### Reset (R350) -/

/-- Settles O10: the reset values stand in the definitions of reset; a node is reset by its kind. -/
theorem hostResetGivesEveryElementItsResetValue : Obligations.HostResetGivesEveryElementItsResetValue := by
  intro s
  refine congrArg (fun ns => Host.Outcome.next { s with bus := BusState.idle, nodes := ns, resp := .host .ok (.num 0) }) ?_
  refine List.map_congr_left fun n _ => ?_
  cases hd : n.dev <;> simp only [Node.reset, hd] <;> rfl

/-- Settles O11: the reference configuration is one closed state. -/
theorem resetMeetsTheInvariant : Obligations.ResetMeetsTheInvariant := by
  unfold Obligations.ResetMeetsTheInvariant
  decide

/-! ### Requests turned away (R84 to R90, R325) -/

/-- Settles O19: on an idle bus the scan gives nothing, on an open bus the address differs. -/
theorem startThatIsTurnedAwayChangesNothing : Obligations.StartThatIsTurnedAwayChangesNothing := by
  refine fun s a => ⟨fun hclosed hnone => ?nack, fun hopen ha => ?busy⟩
  case nack =>
    have h : ∀ dir, startRequest a dir s = s.answer .nack 0 := by
      intro dir; simp [startRequest, startFresh, hclosed, hnone]
    exact ⟨congrArg Host.Outcome.next (h .send), congrArg Host.Outcome.next (h .recv)⟩
  case busy =>
    have h : ∀ dir, startRequest a dir s = (s.diag .busBusy).answer .busy 0 := by
      intro dir; simp [startRequest, startOpen, hopen, ha]
    exact ⟨congrArg Host.Outcome.next (h .send), congrArg Host.Outcome.next (h .recv)⟩

/-- Settles O23: each of the four tests `bus.isOpen` first. -/
theorem requestsOnAClosedBusChangeNothing : Obligations.RequestsOnAClosedBusChangeNothing := by
  intro s v x hclosed
  have hno : ¬ s.bus.isOpen = true := by simp [hclosed]
  exact ⟨if_neg hno, if_neg hno, if_neg hno, if_neg hno⟩

/-! ### A command access without a device -/

/-- Settles O44: every row is the access to its code, and an access looks the device up first. -/
theorem accessToNoRegisterDeviceFaults : Obligations.AccessToNoRegisterDeviceFaults := by
  intro row hrow s a h
  rw [exec_commandRow hrow, commandAccess_noRegDev h]

end Sys2Proof.Machine
end

section
/-! Transactions with one addressed REGDEV (R85 to R90): what each request does to it, and which command a flush and a byte
request run. -/

namespace Sys2Proof.Machine

variable {s : State} {d : NodeId} {c : RegDevCfg} {r : RegDev}

/-- The framer of a device that was just written back. -/
theorem State.setFramer_of_regdev? {t : State} (h : t.regdev? d = some (c, r)) (fr : Framer) :
    t.setFramer d fr = t.setRegDev d c { r with fr := fr } := by
  simp [State.setFramer, h]

/-! ### The command of a payload and of the latch (R64, R56) -/

/-- A payload that decodes has a code, and its instruction is the write access to it. -/
theorem exec_of_decodePayload {P : List Byte} {i : Instr} (h : decode (.payload d P) = .ok i)
    (hr : s.regdev? d = some (c, r)) :
    exec i s =
      let w := rmWrite s.cfg c P { dev := r, diags := s.diags }
      .next (((s.setRegDev d c w.1.dev).setDiags w.1.diags).respond (.writeCall w.2)) := by
  cases P with
  | nil => cases h
  | cons code data => rw [exec_of_decodeCommand h, commandWrite_some hr]

theorem exec_of_decodeLatch {i : Instr} (h : decode (.latch d r.rd.cmd) = .ok i) (hr : s.regdev? d = some (c, r)) :
    exec i s =
      let w := rmReadByte s.cfg c { dev := r, diags := s.diags }
      .next (((s.setRegDev d c w.1.dev).setDiags w.1.diags).respond (.readCall w.2)) := by
  rw [exec_of_decodeCommand h, commandRead_some hr]
  rfl

/-- After a call the framer may be replaced: the device written back is found again. -/
theorem State.setFramer_afterCall (hr : s.regdev? d = some (c, r)) (r' : RegDev) (ds : List Diag) (resp : Response)
    (fr : Framer) :
    State.setFramer (((s.setRegDev d c r').setDiags ds).respond resp) d fr =
      ((s.setRegDev d c { r' with fr := fr }).setDiags ds).respond resp := by
  have hfound : State.regdev? (((s.setRegDev d c r').setDiags ds).respond resp) d = some (c, r') := by
    simpa using State.regdev?_setRegDev_same s d c c r' r hr
  rw [State.setFramer_of_regdev? hfound]
  exact congrArg (fun t : State => (t.setDiags ds).respond resp) (State.setRegDev_setRegDev s d c c r' _)

/-- Settles O7: FINISH makes the one write call of the payload, which is the meaning of the instruction decoded. -/
theorem stopRunsTheBufferedCommand : Obligations.StopRunsTheBufferedCommand := by
  intro s d c r i x hopen hcur hr hmode hlen hdec
  refine ⟨_, exec_of_decodePayload hdec hr, ?_⟩
  have hflush := frFinish_flush (g := s.cfg) (c := c) (w := { dev := r, diags := s.diags }) hmode (Nat.ne_of_gt hlen)
  rw [execStop_single x hopen hcur hr, hflush, State.setFramer_afterCall hr]
  rfl

/-- Settles O8: the flush at a repeated START makes the same call; only the mode of the framer changes. -/
theorem repeatedStartRunsTheBufferedCommand : Obligations.RepeatedStartRunsTheBufferedCommand := by
  intro s d c r i hopen hcur hr hmode hlen hdec
  refine ⟨_, exec_of_decodePayload hdec hr, ?_⟩
  have hflush : frEvent s.cfg c (startEvent .recv) { dev := r, diags := s.diags } =
      (rmWrite s.cfg c r.fr.payload { dev := r, diags := s.diags }).1.mapFr fun _ => { r.fr with mode := .read } := by
    rw [startEvent, frEvent, frStartRecv_flush hmode (Nat.ne_of_gt hlen)]
    simp only [Work.setMode, Work.mapFr, rmWrite_fr]
  rw [(execStart_total _ s).2, startRequest_repeated .recv hopen hcur hr, hflush, State.setFramer_afterCall hr]
  rfl

/-- Settles O9: the byte request makes the read call of the latched command; RECV_ONE allows one byte only. -/
theorem rxRunsTheLatchedCommand : Obligations.RxRunsTheLatchedCommand := by
  intro s d c r i x hopen hcur hr hmode hdec
  refine ⟨_, _, exec_of_decodeLatch hdec hr, rfl, ?_⟩
  have hrecv : frRecv s.cfg c { dev := r, diags := s.diags } =
      ((rmReadByte s.cfg c { dev := r, diags := s.diags }).1.mapFr fun _ =>
        { r.fr with mode := if r.fr.mode = .recvOne then .done else .read },
       (rmReadByte s.cfg c { dev := r, diags := s.diags }).2) := by
    have hfr : (rmReadByte s.cfg c { dev := r, diags := s.diags }).1.dev.fr = r.fr := readByteOf_fr _ _
    rcases hmode with hm | hm
    · rw [frRecv_read hm]
      simp only [Work.mapFr, hm, reduceCtorEq, if_false]
      rw [← hm, ← hfr]
    · rw [frRecv_one hm]
      simp only [Work.setMode, Work.mapFr, hfr, hm, if_true]
  rw [execRx_single x hopen hcur hr, hrecv, State.setFramer_afterCall hr]
  rfl

/-! ### Requests the framer does not expect, and those it takes itself -/

/-- Settles O22: the two handlers of START in the modes they do not list, and the empty flush. -/
theorem unexpectedRepeatedStartConfusesTheFramer : Obligations.UnexpectedRepeatedStartConfusesTheFramer := by
  refine fun s d c r hopen hcur hr => ⟨fun hidle => ?_, fun hidle hwrite => ?_, fun hwrite hlen => ?_⟩
  · rw [(execStart_total _ s).1, startRequest_repeated .send hopen hcur hr, startEvent, frEvent, frStartSend_other hidle]
    rfl
  · rw [(execStart_total _ s).2, startRequest_repeated .recv hopen hcur hr, startEvent, frEvent,
      frStartRecv_other hidle hwrite]
    rfl
  · rw [(execStart_total _ s).2, startRequest_repeated .recv hopen hcur hr, startEvent, frEvent,
      frStartRecv_empty hwrite hlen]
    rfl

/-- Settles O25. -/
theorem txToARegisterDevice : Obligations.TxToARegisterDevice := by
  refine fun s d c r v hopen hcur hr => ⟨fun hwrite hroom => ?_, fun hwrite hfull => ?_, fun hother => ?_⟩
  · rw [execTx_single v hopen hcur hr, frSend_write hwrite hroom]; rfl
  · rw [execTx_single v hopen hcur hr, frSend_full hwrite hfull]; rfl
  · rw [execTx_single v hopen hcur hr, frSend_other hother]; rfl

/-- Settles O26. -/
theorem nackOfARegisterDevice : Obligations.NackOfARegisterDevice := by
  refine fun s d c r x hopen hcur hr => ⟨fun hread => ?_, fun hdone => ?_, fun hread hdone => ?_⟩
  · rw [execNack_single x hopen hcur hr, frNack_read hread]; rfl
  · rw [execNack_single x hopen hcur hr, frNack_done hdone]; rfl
  · rw [execNack_single x hopen hcur hr, frNack_other hread hdone]; rfl

/-- Settles O27. -/
theorem unexpectedRxConfusesTheFramer : Obligations.UnexpectedRxConfusesTheFramer := by
  intro s d c r x hopen hcur hr hone hread
  rw [execRx_single x hopen hcur hr, frRecv_other hone hread]
  rfl

/-- Settles O28. -/
theorem stopWithoutAWriteCallOnlyCloses : Obligations.StopWithoutAWriteCallOnlyCloses := by
  intro s d c r x hopen hcur hr hquick hclose
  rw [execStop_single x hopen hcur hr, frFinish_close hquick hclose]
  rfl

/-! ### A confused REGDEV in any transaction (R136) -/

/-- Serving another slave keeps a REGDEV, whatever the other becomes. -/
theorem State.regdev?_setDevice_other {id : NodeId} {dev : Device} {ds : List Diag} (h : d ≠ id) :
    ((s.setDevice id dev).setDiags ds).regdev? d = s.regdev? d := by
  simp [State.regdev?, State.node?_setDevice_other, h]

theorem State.regdev?_eventTo_confused {e : SlaveEvent} (he : e ≠ .finish) (hr : s.regdev? d = some (c, r))
    (hc : r.fr.mode = .confused) (id : NodeId) : (s.eventTo e id).regdev? d = some (c, r) := by
  by_cases hid : d = id
  · subst hid
    rw [State.eventTo_regdev e hr, frEvent_confused he hc]
    exact State.regdev?_setRegDev_same s d c c r r hr
  · rcases s.eventTo_cases e id with h | ⟨n, -, -, h⟩ <;> rw [h]
    · exact hr
    · rw [State.regdev?_setDevice_other hid, hr]

theorem State.regdev?_sendTo_confused {v : Byte} (hr : s.regdev? d = some (c, r)) (hc : r.fr.mode = .confused)
    (id : NodeId) : (s.sendTo v id).regdev? d = some (c, r) := by
  by_cases hid : d = id
  · subst hid
    rw [State.sendTo_regdev v hr, frSend_confused hc]
    exact State.regdev?_setRegDev_same s d c c r r hr
  · rcases s.sendTo_cases v id with h | ⟨n, -, -, h⟩ <;> rw [h]
    · exact hr
    · rw [State.regdev?_setDevice_other hid, hr]

theorem State.regdev?_recvFrom_confused (hr : s.regdev? d = some (c, r)) (hc : r.fr.mode = .confused) (id : NodeId) :
    (s.recvFrom id).1.regdev? d = some (c, r) := by
  by_cases hid : d = id
  · subst hid
    rw [State.recvFrom_regdev hr, frRecv_confused hc]
    exact State.regdev?_setRegDev_same s d c c r r hr
  · rcases s.recvFrom_cases id with h | ⟨n, -, -, h⟩ <;> rw [h]
    · exact hr
    · rw [State.regdev?_setDevice_other hid, hr]

/-- Settles O29: a wire request other than STOP is one round of calls, each of which a confused REGDEV ignores. -/
theorem confusedDeviceIsFrozenUntilStop : Obligations.ConfusedDeviceIsFrozenUntilStop := by
  intro req s t d c r hnostop hr hc h
  have hform := wireForm req s t h
  have event : ∀ (e : SlaveEvent) (ids : List NodeId) (u : State), e ≠ .finish → u.regdev? d = some (c, r) →
      (State.eventAll e ids u).regdev? d = some (c, r) := fun e ids u he hu =>
    State.eventAll_inv (I := fun u => u.regdev? d = some (c, r)) e ids
      (fun u id _ hu => State.regdev?_eventTo_confused he hu hc id) hu
  generalize decodeWire req = i at hform hnostop
  cases hform with
  | same _ _ hn _ _ => rw [State.regdev?_congr hn, hr]
  | start i dir ids t bus hcur hk ht =>
    subst ht
    exact event (startEvent dir) ids { s with bus := bus } (by cases dir <;> simp [startEvent]) hr
  | send i v t ho ht =>
    subst ht
    exact State.sendAll_inv (I := fun u => u.regdev? d = some (c, r)) v s.bus.cur
      (fun u id _ hu => State.regdev?_sendTo_confused hu hc id) hr
  | recv x t ho ht =>
    subst ht
    exact State.recvAll_inv (I := fun u => u.regdev? d = some (c, r)) s.bus.cur
      (fun u id _ hu => State.regdev?_recvFrom_confused hu hc id) errByte hr
  | nack i t ho ht => subst ht; exact event .nack s.bus.cur s (by simp) hr
  | stop x t ho ht => exact absurd rfl (hnostop x)

end Sys2Proof.Machine
end

section
/-! Command writes: what the dispatch of each class of command does to a page, and from it the write with one page selected
and the write with all pages selected (R151 to R158). -/

namespace Sys2Proof.Machine

variable {g : Config} {c : RegDevCfg} {s : State} {d : NodeId} {r : RegDev} {idx : Nat} {pg : Page} {e : CmdEntry}
  {code : Byte} {data : List Byte} {f : Page → Page} {ds : List Diag} {ok : Bool} {Q : Page → Prop}

/-! ### The dispatch as a change of one page -/

/-- On every page with the property `Q` the dispatch of a write of `code` with `data` changes that page by `f`, emits `ds` and
answers `ok`. -/
def DispatchesTo (g : Config) (c : RegDevCfg) (code : Byte) (data : List Byte) (Q : Page → Prop) (f : Page → Page)
    (ds : List Diag) (ok : Bool) : Prop :=
  ∀ (i : Nat) (w : Work) (pg : Page), w.dev.rd.cmd = code → w.dev.pg[i]? = some pg → Q pg →
    dispatchWrite g c i (code :: data) w =
      ({ dev := { w.dev with pg := w.dev.pg.modify i f }, diags := w.diags ++ ds }, ok)

/-- An exposed command does what its class does. -/
theorem dispatchesTo_of_writeClass
    (h : ∀ i w, writeClass e.cls i (e.code :: data) w =
      ({ dev := { w.dev with pg := w.dev.pg.modify i f }, diags := w.diags ++ ds }, ok)) :
    DispatchesTo g c e.code data (Exposed c e) f ds ok := by
  rintro i w pg hcmd hpg ⟨hentry, hflag⟩
  rw [dispatchWrite, hcmd, selectEntry_exposed hentry (by rw [Work.pageAt_of_getElem? hpg]; exact hflag)]
  exact h i w

/-- A gated command without its flag does what the hook does, by default nothing. -/
theorem dispatchesTo_gatedOff (hhook : c.hookWrite = none) : DispatchesTo g c e.code data (GatedOff c e) id [] true := by
  rintro i w pg hcmd hpg ⟨hentry, f, hf, hoff⟩
  rw [dispatchWrite, hcmd, selectEntry_gated hentry hf (by rw [Work.pageAt_of_getElem? hpg]; exact hoff)]
  simp [hookWrite_default hhook]

/-! ### What a page must have is a matter of its flags -/

theorem Exposed.of_flags {p p' : Page} (h : p'.flags = p.flags) (hp : Exposed c e p) : Exposed c e p' :=
  ⟨hp.1, fun f hf => (Page.hasFlag_congr p' p h f).trans (hp.2 f hf)⟩

theorem GatedOff.of_flags {p p' : Page} (h : p'.flags = p.flags) (hp : GatedOff c e p) : GatedOff c e p' := by
  obtain ⟨hentry, f, hf, hoff⟩ := hp
  exact ⟨hentry, f, hf, (Page.hasFlag_congr p' p h f).trans hoff⟩

/-! ### The classes (R157) -/

theorem writeClass_rwb (f : ByteField) (code v : Byte) (rest : List Byte) (i : Nat) (w : Work) :
    writeClass (.rwb f) i (code :: v :: rest) w =
      ({ dev := { w.dev with pg := w.dev.pg.modify i fun p => p.setByte f v }
         diags := w.diags ++ lengthWarning (v :: rest) 1 }, true) := by
  simp [writeClass, rxUint_fst, rxUint_byte_toNat, Work.modifyPage]

theorem writeClass_rww (f : WordField) (code : Byte) (hdata : data ≠ []) (i : Nat) (w : Work) :
    writeClass (.rww f) i (code :: data) w =
      ({ dev := { w.dev with pg := w.dev.pg.modify i fun p => p.setWord f (dataWord data) }
         diags := w.diags ++ lengthWarning data 2 }, true) := by
  simp [writeClass, rxUint_fst, rxUint_word _ _ hdata, Work.modifyPage]

theorem writeClass_sb (code v : Byte) (rest : List Byte) (i : Nat) (w : Work) :
    writeClass .sb i (code :: v :: rest) w =
      ({ dev := { w.dev with
          pg := w.dev.pg.modify i fun p => { p with status := { p.status with word := v.setWidth 16 } } }
         diags := w.diags ++ lengthWarning (v :: rest) 1 }, true) := by
  have hv : BitVec.ofNat 16 v.toNat = v.setWidth 16 := by
    apply BitVec.eq_of_toNat_eq
    rw [BitVec.toNat_ofNat, BitVec.toNat_setWidth]
  simp [writeClass, rxUint_fst, rxUint_byte_toNat, Work.modifyPage, hv, Page.setWord]

theorem writeClass_str (f : StringField) (code n : Byte) {chars : List Byte} (h : n.toNat = chars.length) (i : Nat)
    (w : Work) :
    writeClass (.str f) i (code :: n :: chars) w =
      ({ dev := { w.dev with pg := w.dev.pg.modify i fun p => p.setString f chars }, diags := w.diags ++ [] }, true) := by
  simp [writeClass, rxBlock, h, Work.modifyPage]

/-- A block whose declared length is not the actual one leaves the field (R167). -/
theorem writeClass_str_malformed (f : StringField) (code n : Byte) {chars : List Byte} (h : n.toNat ≠ chars.length)
    (i : Nat) (w : Work) :
    writeClass (.str f) i (code :: n :: chars) w =
      ({ dev := { w.dev with pg := w.dev.pg.modify i id }, diags := w.diags ++ [.rmBlockMalformed] }, false) := by
  simp [writeClass, rxBlock, h, Work.diag]

theorem writeClass_wo0 (P : List Byte) (i : Nat) (w : Work) :
    writeClass .wo0 i P w = ({ dev := { w.dev with pg := w.dev.pg.modify i id }, diags := w.diags ++ [] }, true) := by
  simp [writeClass]

theorem writeClass_readOnly {cls : CmdClass} (h : cls.readOnly = true) (P : List Byte) (i : Nat) (w : Work) :
    writeClass cls i P w =
      ({ dev := { w.dev with pg := w.dev.pg.modify i Page.raiseCml }, diags := w.diags ++ [.rmWriteRo] }, true) := by
  cases cls with
  | rob | row | ro5 | cap | devid => rfl
  | rwb | rww | str | sb | wo0 | page => cases h

/-! ### The commands -/

theorem byteCommand_cls {x : FieldCommand ByteField} (hx : x ∈ byteCommands) : x.entry.cls = .rwb x.field :=
  (exec_byteCommand hx (.read 0) State.reset).2
theorem wordCommand_cls {x : FieldCommand WordField} (hx : x ∈ wordCommands) : x.entry.cls = .rww x.field :=
  (exec_wordCommand hx (.read 0) State.reset).2
theorem readingCommand_cls {x : FieldCommand ReadingField} (hx : x ∈ readingCommands) :
    x.entry.cls = .row (.reading x.field) :=
  (exec_readingCommand hx (.read 0) State.reset).2
theorem stringCommand_cls {x : FieldCommand StringField} (hx : x ∈ stringCommands) : x.entry.cls = .str x.field :=
  (exec_stringCommand hx (.read 0) State.reset).2
theorem readOnlyCommand_cls {x : FieldCommand Unit} (hx : x ∈ readOnlyCommands) : x.entry.cls.readOnly = true :=
  (exec_readOnlyCommand hx (.read 0) State.reset).2

theorem dispatchesTo_byte {x : FieldCommand ByteField} (hx : x ∈ byteCommands) (v : Byte) (rest : List Byte) :
    DispatchesTo g c x.entry.code (v :: rest) (Exposed c x.entry) (fun p => p.setByte x.field v)
      (lengthWarning (v :: rest) 1) true :=
  dispatchesTo_of_writeClass fun i w => by rw [byteCommand_cls hx]; exact writeClass_rwb _ _ v rest i w

theorem dispatchesTo_word {x : FieldCommand WordField} (hx : x ∈ wordCommands) (hdata : data ≠ []) :
    DispatchesTo g c x.entry.code data (Exposed c x.entry) (fun p => p.setWord x.field (dataWord data))
      (lengthWarning data 2) true :=
  dispatchesTo_of_writeClass fun i w => by rw [wordCommand_cls hx]; exact writeClass_rww _ _ hdata i w

theorem dispatchesTo_statusByte (v : Byte) (rest : List Byte) :
    DispatchesTo g c 0x78 (v :: rest) (Exposed c entryStatusByte)
      (fun p => { p with status := { p.status with word := v.setWidth 16 } }) (lengthWarning (v :: rest) 1) true :=
  dispatchesTo_of_writeClass (e := entryStatusByte) fun i w => writeClass_sb _ v rest i w

theorem dispatchesTo_string {x : FieldCommand StringField} (hx : x ∈ stringCommands) {n : Byte} {chars : List Byte}
    (hn : n.toNat = chars.length) :
    DispatchesTo g c x.entry.code (n :: chars) (Exposed c x.entry) (fun p => p.setString x.field chars) [] true :=
  dispatchesTo_of_writeClass fun i w => by rw [stringCommand_cls hx]; exact writeClass_str _ _ n hn i w

theorem dispatchesTo_malformed {x : FieldCommand StringField} (hx : x ∈ stringCommands) {n : Byte} {chars : List Byte}
    (hn : n.toNat ≠ chars.length) :
    DispatchesTo g c x.entry.code (n :: chars) (Exposed c x.entry) id [.rmBlockMalformed] false :=
  dispatchesTo_of_writeClass fun i w => by rw [stringCommand_cls hx]; exact writeClass_str_malformed _ _ n hn i w

theorem dispatchesTo_clearFaults (data : List Byte) :
    DispatchesTo g c 0x03 data (Exposed c entryClearFaults) id [] true :=
  dispatchesTo_of_writeClass (e := entryClearFaults) fun i w => writeClass_wo0 _ i w

theorem dispatchesTo_readOnly {x : FieldCommand Unit} (hx : x ∈ readOnlyCommands) (data : List Byte) :
    DispatchesTo g c x.entry.code data (Exposed c x.entry) Page.raiseCml [.rmWriteRo] true :=
  dispatchesTo_of_writeClass fun i w => writeClass_readOnly (readOnlyCommand_cls hx) _ i w

/-! ### One page selected -/

/-- A write with data on a real page: steps 1 and 2, the dispatch's change of that page, step 7. -/
theorem commandWrite_selected (hd : DispatchesTo s.cfg c code data Q f ds ok)
    (hflags : ∀ p p' : Page, p'.flags = p.flags → Q p → Q p') (hsel : Selected s d c r idx pg) (hQ : Q pg)
    (hpage : code ≠ s.cfg.cmdPage) (hdata : data ≠ []) :
    commandAccess code (.write d data) s =
      .next (s.wroteCall d c (r.written code
        ((if code = s.cfg.cmdClearFaults then r.pg.map Page.clearStatus else r.pg).modify idx f)) ds ok) := by
  obtain ⟨hr, hall, rfl, hlt, hpg⟩ := hsel
  refine commandWrite_regdev hr ?_
  obtain ⟨p', hp', hQ'⟩ : ∃ p', (entered s.cfg code (data.length + 1) { dev := r, diags := s.diags }).dev.pg[r.rd.page.toNat]? =
      some p' ∧ Q p' := by
    rw [entered_pg]
    split
    · exact ⟨pg.clearStatus, by simp [hpg], hflags pg _ rfl hQ⟩
    · exact ⟨pg, hpg, hQ⟩
  have hdisp := hd r.rd.page.toNat (entered s.cfg code (data.length + 1) { dev := r, diags := s.diags }) p' (by simp) hp' hQ'
  have hsel := writeSelected_real (g := s.cfg) (c := c) (P := code :: data)
    (w := entered s.cfg code (data.length + 1) { dev := r, diags := s.diags }) (by simpa using hall) (by simpa using hlt)
  have hidx : (entered s.cfg code (data.length + 1) { dev := r, diags := s.diags }).dev.rd.page = r.rd.page := by simp
  rw [rmWrite_data _ _ _ hdata hpage, hsel, hidx, hdisp]
  simp [finishWrite, Work.setInLen, Work.mapRd, RegDev.written]

/-- The same for a code the write path does not test by value. -/
theorem commandWrite_ordinary (hd : DispatchesTo s.cfg c code data Q f ds ok)
    (hflags : ∀ p p' : Page, p'.flags = p.flags → Q p → Q p') (hsel : Selected s d c r idx pg) (hQ : Q pg)
    (hord : Ordinary s code) (hdata : data ≠ []) :
    commandAccess code (.write d data) s =
      .next (s.wroteCall d c (r.written code (r.pg.modify idx f)) ds ok) := by
  rw [commandWrite_selected hd hflags hsel hQ hord.1 hdata, if_neg hord.2]

/-- Settles O32. -/
theorem byteCommandWriteStoresTheByte : Obligations.ByteCommandWriteStoresTheByte := by
  intro x hx s d c r idx pg v rest hsel hexp hord
  rw [(exec_byteCommand hx _ s).1]
  exact commandWrite_ordinary (dispatchesTo_byte hx v rest) (fun _ _ => Exposed.of_flags) hsel hexp hord (by simp)

/-- Settles O33. -/
theorem wordCommandWriteStoresTheWord : Obligations.WordCommandWriteStoresTheWord := by
  intro x hx s d c r idx pg data hsel hexp hord hdata
  rw [(exec_wordCommand hx _ s).1]
  exact commandWrite_ordinary (dispatchesTo_word hx hdata) (fun _ _ => Exposed.of_flags) hsel hexp hord hdata

/-- Settles O34. -/
theorem statusByteWriteAssignsTheWholeWord : Obligations.StatusByteWriteAssignsTheWholeWord := by
  intro s d c r idx pg v rest hsel hexp hord
  exact commandWrite_ordinary (dispatchesTo_statusByte v rest) (fun _ _ => Exposed.of_flags) hsel hexp hord (by simp)

/-- Settles O35: the declared length is the actual one, or the block is malformed. -/
theorem stringCommandWrite : Obligations.StringCommandWrite := by
  intro x hx s d c r idx pg n chars hsel hexp hord
  refine ⟨fun hn => ?_, fun hn => ?_⟩
  · rw [(exec_stringCommand hx _ s).1]
    exact commandWrite_ordinary (dispatchesTo_string hx hn) (fun _ _ => Exposed.of_flags) hsel hexp hord (by simp)
  · rw [(exec_stringCommand hx _ s).1,
      commandWrite_ordinary (dispatchesTo_malformed hx hn) (fun _ _ => Exposed.of_flags) hsel hexp hord (by simp),
      List.modify_id]

/-- Settles O38. -/
theorem readOnlyCommandWriteRaisesTheFault : Obligations.ReadOnlyCommandWriteRaisesTheFault := by
  intro x hx s d c r idx pg data hsel hexp hord hdata
  rw [(exec_readOnlyCommand hx _ s).1]
  exact commandWrite_ordinary (dispatchesTo_readOnly hx data) (fun _ _ => Exposed.of_flags) hsel hexp hord hdata

/-! ### Writes that are not dispatched, or not to a real page -/

/-- Settles O39: the call ends at step 2. -/
theorem commandOnlyWriteLatchesTheCode : Obligations.CommandOnlyWriteLatchesTheCode := by
  intro row hrow s d c r hr
  rw [exec_commandRow hrow]
  refine commandWrite_regdev hr ?_
  rw [rmWrite_codeOnly, entered, List.append_nil]
  by_cases hclear : row.code = s.cfg.cmdClearFaults
  · rw [if_pos hclear, if_pos hclear]; rfl
  · rw [if_neg hclear, if_neg hclear]; rfl

/-- An entry of class PAGE at a code that is not `CMD_PAGE` leaves a free selector (log entry 9). -/
theorem dispatchWrite_page {w : Work} (hcmd : w.dev.rd.cmd = entryPage.code) (hpg : w.dev.pg[idx]? = some pg)
    (hexp : Exposed c entryPage pg) (P : List Byte) :
    dispatchWrite g c idx P w = (w.setPage (Config.pageClassWrite idx P w.dev.rd.page), true) := by
  rw [dispatchWrite, hcmd, selectEntry_exposed hexp.1 (by rw [Work.pageAt_of_getElem? hpg]; exact hexp.2)]
  rfl

/-- Settles O37: a page select ends at step 3; at any other `CMD_PAGE` the entry is dispatched. -/
theorem pageSelectStoresAnyValue : Obligations.PageSelectStoresAnyValue := by
  refine fun s d c r v rest => ⟨fun hr hpage hclear => ?select, fun idx pg hsel hexp hord => ?dispatched⟩
  case select =>
    refine commandWrite_regdev hr ?_
    have h := rmWrite_pageSelect (g := s.cfg) (c := c) v rest { dev := r, diags := s.diags }
    rw [hpage, entered, if_neg (Ne.symm hclear)] at h
    exact h
  case dispatched =>
    obtain ⟨hr, hall, rfl, hlt, hpg⟩ := hsel
    refine ⟨Config.pageClassWrite r.rd.page.toNat (entryPage.code :: v :: rest) r.rd.page, commandWrite_regdev hr ?_⟩
    rw [rmWrite_ordinary (code := entryPage.code) hall rfl hlt hord.1 hord.2 (by simp)]
    dsimp only
    rw [dispatchWrite_page rfl hpg hexp]
    simp only [finishWrite, Work.setPage, Work.setInLen, Work.mapRd, RegDev.written, latchCommand, List.append_nil]
    rfl

end Sys2Proof.Machine
end

section
/-! Command reads: the bytes each class of command gives, and from them the read with one page selected and the read with all
pages selected (R160 to R174). -/

namespace Sys2Proof.Machine

variable {g : Config} {c : RegDevCfg} {s : State} {d : NodeId} {r r' : RegDev} {idx : Nat} {pg : Page} {e : CmdEntry}
  {code page b : Byte} {bytes rest : List Byte} {ds : List Diag} {w : Work}

/-! ### A dispatched read -/

/-- A read dispatched on a page: the byte the dispatch answers directly, or the first staged one. -/
def readOn (g : Config) (c : RegDevCfg) (code : Byte) (idx : Nat) (w : Work) : Work × Byte :=
  match (dispatchRead g c code idx w).2 with
  | some b => ((dispatchRead g c code idx w).1, b)
  | none => pop (dispatchRead g c code idx w).1

theorem readOn_of_none (h : (dispatchRead g c code idx w).2 = none) :
    readOn g c code idx w = pop (dispatchRead g c code idx w).1 := by
  simp [readOn, h]

/-- A due read on a real page is the read dispatched there. -/
theorem commandRead_selected (hsel : Selected s d c r idx pg) (hdue : ReadDue r)
    (h : readOn s.cfg c code idx { dev := r, diags := s.diags } = ({ dev := r', diags := s.diags ++ ds }, b)) :
    commandAccess code (.read d) s = .next (s.readCalled d c r' ds b) := by
  obtain ⟨hr, hall, rfl, hlt, -⟩ := hsel
  exact commandRead_regdev hr ((readByteOf_real hdue.1 hdue.2 hall hlt).trans h)

/-- A due read with all pages selected is the read dispatched on page 0 after the fault. -/
theorem commandRead_allSelected (hr : s.regdev? d = some (c, r)) (hall : r.rd.page = allPages) (hdue : ReadDue r)
    (h : readOn s.cfg c code 0 { dev := r.faulted, diags := s.diags ++ [.rmAllPagesRead] } =
      ({ dev := r', diags := s.diags ++ ds }, b)) :
    commandAccess code (.read d) s = .next (s.readCalled d c r' ds b) :=
  commandRead_regdev hr ((readByteOf_allPages hdue.1 hdue.2 hall).trans h)

/-! ### The bytes of a class (R162) -/

/-- What a read of an entry of a class stages, in wire order, on a page while `page` is selected. -/
def readBytes (c : RegDevCfg) (page : Byte) (pg : Page) : CmdClass → List Byte
  | .rwb f | .rob f => [pg.getByte f]
  | .rww f | .row f => wordBytes (pg.getWord f)
  | .sb => [pg.status.word.extractLsb' 0 8]
  | .page => [page]
  | .cap => [c.capability]
  | .ro5 => pg.coefficients
  | .str f => BitVec.ofNat 8 (pg.getString f).length :: pg.getString f
  | .devid => BitVec.ofNat 8 c.icDeviceId.length :: c.icDeviceId
  | .wo0 => []

theorem Status.byteView_eq (st : Status) : st.byteView = st.word.extractLsb' 0 8 := by
  apply BitVec.eq_of_toNat_eq
  simp [Status.byteView]

theorem readClass_eq_stageBytes {cls : CmdClass} (h : cls ≠ .wo0) (idx : Nat) (w : Work) :
    readClass g c cls idx w =
      (stageBytes g.bufCap (readBytes c w.dev.rd.page (w.pageAt idx) cls) w, none) := by
  cases cls with
  | rwb | rob | page | cap => simp only [readClass, stageUint, leBytes_byte, readBytes]
  | sb => simp only [readClass, stageUint, leBytes_byte, readBytes, Status.byteView_eq]
  | rww | row => simp only [readClass, stageUint, leBytes_word, readBytes]
  | ro5 | str | devid => rfl
  | wo0 => exact absurd rfl h

theorem dispatchRead_exposed (hexp : Exposed c e pg) (hpg : w.dev.pg[idx]? = some pg) :
    dispatchRead g c e.code idx w = readClass g c e.cls idx w := by
  rw [dispatchRead, selectEntry_exposed hexp.1 (by rw [Work.pageAt_of_getElem? hpg]; exact hexp.2)]

/-! ### What a read serves -/

/-- With `page` selected, a read of a code dispatched on a page with the record `pg` stages `bytes`, emits `ds` and answers
`b`, the first of them. -/
def Serves (g : Config) (c : RegDevCfg) (code : Byte) (page : Byte) (pg : Page) (bytes : List Byte) (ds : List Diag)
    (b : Byte) : Prop :=
  ∀ (idx : Nat) (w : Work), w.dev.rd.page = page → w.dev.pg[idx]? = some pg →
    readOn g c code idx w = ({ dev := w.dev.served bytes, diags := w.diags ++ ds }, b)

/-- An exposed command serves the bytes of its class, as many as the staging buffer holds. -/
theorem serves_class (hexp : Exposed c e pg) (hcls : e.cls ≠ .wo0) (hbytes : readBytes c page pg e.cls = b :: rest)
    (hcap : 0 < g.bufCap) :
    Serves g c e.code page pg ((b :: rest).take g.bufCap)
      (if g.bufCap < (b :: rest).length then [.rmStageOverflow] else []) b := by
  rintro idx w rfl hpg
  have hread : dispatchRead g c e.code idx w = (stageBytes g.bufCap (b :: rest) w, none) := by
    rw [dispatchRead_exposed hexp hpg, readClass_eq_stageBytes hcls, Work.pageAt_of_getElem? hpg, hbytes]
  rw [readOn_of_none (by rw [hread]), hread, pop_stageBytes _ _ _ _ hcap]

/-- Bytes that fit the staging buffer are all staged, without a diagnostic. -/
theorem serves_class_fitting (hexp : Exposed c e pg) (hcls : e.cls ≠ .wo0) (hbytes : readBytes c page pg e.cls = b :: rest)
    (hfit : (b :: rest).length ≤ g.bufCap) : Serves g c e.code page pg (b :: rest) [] b := by
  have h := serves_class (g := g) hexp hcls hbytes (Nat.lt_of_lt_of_le (Nat.succ_pos _) hfit)
  rwa [List.take_of_length_le hfit, if_neg (Nat.not_lt.2 hfit)] at h

theorem commandRead_serves (h : Serves s.cfg c code r.rd.page pg bytes ds b) (hsel : Selected s d c r idx pg)
    (hdue : ReadDue r) : commandAccess code (.read d) s = .next (s.readCalled d c (r.served bytes) ds b) := by
  obtain ⟨-, -, -, -, hpg⟩ := id hsel
  exact commandRead_selected hsel hdue (h idx _ rfl hpg)

theorem RegDev.faulted_pg_zero (hpg : r.pg[0]? = some pg) : r.faulted.pg[0]? = some pg.raiseCml := by
  simp [RegDev.faulted, hpg]

theorem commandRead_serves_all (h : Serves s.cfg c code 0xFF pg.raiseCml bytes ds b) (hr : s.regdev? d = some (c, r))
    (hall : r.rd.page = allPages) (hpg : r.pg[0]? = some pg) (hdue : ReadDue r) :
    commandAccess code (.read d) s =
      .next (s.readCalled d c (r.faulted.served bytes) (.rmAllPagesRead :: ds) b) := by
  refine commandRead_allSelected hr hall hdue ?_
  rw [h 0 _ hall (RegDev.faulted_pg_zero hpg), List.append_assoc, List.singleton_append]

/-! ### Reads that stage nothing -/

/-- A write-only command answers 0xFF (R162). -/
theorem readOn_writeOnly (hexp : Exposed c e pg) (hcls : e.cls = .wo0) (hpg : w.dev.pg[idx]? = some pg) :
    readOn g c e.code idx w = (w.diag .rmReadWo, 0xFF) := by
  simp [readOn, dispatchRead_exposed hexp hpg, hcls, readClass, errByte]

theorem stageBytes_nil {cap : Nat} (h : w.dev.rd.outLen = 0) : stageBytes cap [] w = w := by
  obtain ⟨⟨fr, ⟨page, cmd, valid, buf, len, inLen⟩, pg⟩, ds⟩ := w
  cases h
  simp [stageBytes_eq]

/-- A read that goes to the default hook stages nothing, so that the pop finds nothing (R162, R174). -/
theorem readOn_hook (hhook : c.hookRead = none) (hnone : selectEntry c code idx w = none) (hout : w.dev.rd.outLen = 0) :
    readOn g c code idx w = (w.diag .rmEmptyPop, 0xFF) := by
  have hread : dispatchRead g c code idx w = (w, none) := by
    simp [dispatchRead, hnone, hookRead_default hhook, stageBytes_nil hout]
  rw [readOn_of_none (by rw [hread]), hread, pop_empty w hout]
  rfl

theorem readOn_gatedOff (hhook : c.hookRead = none) (hoff : GatedOff c e pg) (hpg : w.dev.pg[idx]? = some pg)
    (hout : w.dev.rd.outLen = 0) : readOn g c e.code idx w = (w.diag .rmEmptyPop, 0xFF) := by
  obtain ⟨hentry, f, hf, hflag⟩ := hoff
  exact readOn_hook hhook (selectEntry_gated hentry hf (by rw [Work.pageAt_of_getElem? hpg]; exact hflag)) hout

/-! ### The commands -/

theorem serves_byte {x : FieldCommand ByteField} (hx : x ∈ byteCommands) (hexp : Exposed c x.entry pg)
    (hcap : 3 ≤ g.bufCap) : Serves g c x.entry.code page pg [pg.getByte x.field] [] (pg.getByte x.field) :=
  serves_class_fitting hexp (by simp [byteCommand_cls hx]) (by rw [byteCommand_cls hx]; rfl) (by simp; omega)

theorem serves_word {x : FieldCommand WordField} (hx : x ∈ wordCommands) (hexp : Exposed c x.entry pg)
    (hcap : 3 ≤ g.bufCap) :
    Serves g c x.entry.code page pg (wordBytes (pg.getWord x.field)) [] ((pg.getWord x.field).extractLsb' 0 8) :=
  serves_class_fitting hexp (by simp [wordCommand_cls hx]) (by rw [wordCommand_cls hx]; rfl) (by simp; omega)

theorem serves_reading {x : FieldCommand ReadingField} (hx : x ∈ readingCommands) (hexp : Exposed c x.entry pg)
    (hcap : 3 ≤ g.bufCap) :
    Serves g c x.entry.code page pg (wordBytes (pg.readings.get x.field)) [] ((pg.readings.get x.field).extractLsb' 0 8) :=
  serves_class_fitting hexp (by simp [readingCommand_cls hx]) (by rw [readingCommand_cls hx]; rfl) (by simp; omega)

theorem serves_statusByte (hexp : Exposed c entryStatusByte pg) (hcap : 3 ≤ g.bufCap) :
    Serves g c entryStatusByte.code page pg [pg.status.word.extractLsb' 0 8] [] (pg.status.word.extractLsb' 0 8) :=
  serves_class_fitting hexp (by simp [entryStatusByte]) rfl (by simp; omega)

theorem serves_capability (hexp : Exposed c entryCapability pg) (hcap : 3 ≤ g.bufCap) :
    Serves g c entryCapability.code page pg [c.capability] [] c.capability :=
  serves_class_fitting hexp (by simp [entryCapability]) rfl (by simp; omega)

theorem serves_page (hexp : Exposed c entryPage pg) (hcap : 3 ≤ g.bufCap) :
    Serves g c entryPage.code page pg [page] [] page :=
  serves_class_fitting hexp (by simp [entryPage]) rfl (by simp; omega)

theorem serves_string {x : FieldCommand StringField} (hx : x ∈ stringCommands) (hexp : Exposed c x.entry pg)
    (hfit : (pg.getString x.field).length + 1 ≤ g.bufCap) :
    Serves g c x.entry.code page pg (BitVec.ofNat 8 (pg.getString x.field).length :: pg.getString x.field) []
      (BitVec.ofNat 8 (pg.getString x.field).length) :=
  serves_class_fitting hexp (by simp [stringCommand_cls hx]) (by rw [stringCommand_cls hx]; rfl) hfit

theorem serves_icDeviceId (hexp : Exposed c entryIcDeviceId pg) (hfit : c.icDeviceId.length + 1 ≤ g.bufCap) :
    Serves g c entryIcDeviceId.code page pg (BitVec.ofNat 8 c.icDeviceId.length :: c.icDeviceId) []
      (BitVec.ofNat 8 c.icDeviceId.length) :=
  serves_class_fitting hexp (by simp [entryIcDeviceId]) rfl hfit

theorem serves_coefficients (hblock : pg.coefficients = b :: rest) (hexp : Exposed c entryCoefficients pg)
    (hcap : 3 ≤ g.bufCap) :
    Serves g c entryCoefficients.code page pg ((b :: rest).take g.bufCap)
      (if g.bufCap < (b :: rest).length then [.rmStageOverflow] else []) b :=
  serves_class hexp (by simp [entryCoefficients]) hblock (by omega)

/-! ### The obligations -/

/-- Settles O45. -/
theorem byteReadsAnswerTheByte : Obligations.ByteReadsAnswerTheByte := by
  refine fun s d c r idx pg hsel hdue hcap => ⟨fun x hx hexp => ?byte, fun hexp => ?status, fun hexp => ?capability,
    fun hexp => ?page⟩
  case byte => rw [(exec_byteCommand hx _ s).1]; exact commandRead_serves (serves_byte hx hexp hcap) hsel hdue
  case status => exact commandRead_serves (serves_statusByte hexp hcap) hsel hdue
  case capability => exact commandRead_serves (serves_capability hexp hcap) hsel hdue
  case page => exact commandRead_serves (serves_page hexp hcap) hsel hdue

/-- Settles O46. -/
theorem wordReadsAnswerTheLowByteFirst : Obligations.WordReadsAnswerTheLowByteFirst := by
  refine fun s d c r idx pg hsel hdue hcap => ⟨fun x hx hexp => ?word, fun x hx hexp => ?reading⟩
  case word => rw [(exec_wordCommand hx _ s).1]; exact commandRead_serves (serves_word hx hexp hcap) hsel hdue
  case reading => rw [(exec_readingCommand hx _ s).1]; exact commandRead_serves (serves_reading hx hexp hcap) hsel hdue

/-- Settles O47. -/
theorem blockReadsAnswerTheFirstByte : Obligations.BlockReadsAnswerTheFirstByte := by
  refine fun s d c r idx pg hsel hdue hcap => ⟨fun x hx hexp hfit => ?string, fun hexp hfit => ?identity,
    fun b rest hblock hexp => ?block⟩
  case string => rw [(exec_stringCommand hx _ s).1]; exact commandRead_serves (serves_string hx hexp hfit) hsel hdue
  case identity => exact commandRead_serves (serves_icDeviceId hexp hfit) hsel hdue
  case block => exact commandRead_serves (serves_coefficients hblock hexp hcap) hsel hdue

/-- Settles O48: the same commands on page 0 after the fault, which leaves flags, readings, strings and the raw block. -/
theorem allPagesReadAnswersPageZero : Obligations.AllPagesReadAnswersPageZero := by
  intro s d c r pg hr hall hpg hdue hcap
  have faulted : ∀ {e}, Exposed c e pg → Exposed c e pg.raiseCml := Exposed.of_flags (Page.raiseCml_flags pg)
  have serve : ∀ {code bytes ds b}, Serves s.cfg c code 0xFF pg.raiseCml bytes ds b →
      commandAccess code (.read d) s =
        .next (s.readCalled d c (r.faulted.served bytes) (.rmAllPagesRead :: ds) b) :=
    fun h => commandRead_serves_all h hr hall hpg hdue
  have hpg' := RegDev.faulted_pg_zero hpg
  refine ⟨fun x hx hexp => ?byte, fun x hx hexp => ?word, fun x hx hexp => ?reading, fun hexp => ?status,
    fun hexp => ?capability, fun hexp => ?page, fun x hx hexp hfit => ?string, fun hexp hfit => ?identity,
    fun b rest hblock hexp => ?block, fun hexp => ?clearFaults, fun x hx hoff hhook => ?gated⟩
  case byte => rw [(exec_byteCommand hx _ s).1]; exact serve (serves_byte hx (faulted hexp) hcap)
  case word => rw [(exec_wordCommand hx _ s).1]; exact serve (serves_word hx (faulted hexp) hcap)
  case reading => rw [(exec_readingCommand hx _ s).1]; exact serve (serves_reading hx (faulted hexp) hcap)
  case status => exact serve (serves_statusByte (faulted hexp) hcap)
  case capability => exact serve (serves_capability (faulted hexp) hcap)
  case page => exact serve (serves_page (faulted hexp) hcap)
  case string => rw [(exec_stringCommand hx _ s).1]; exact serve (serves_string hx (faulted hexp) hfit)
  case identity => exact serve (serves_icDeviceId (faulted hexp) hfit)
  case block => exact serve (serves_coefficients hblock (faulted hexp) hcap)
  case clearFaults =>
    refine commandRead_allSelected (code := entryClearFaults.code) hr hall hdue ?_
    rw [readOn_writeOnly (faulted hexp) rfl hpg']
    simp [Work.diag]
  case gated =>
    rw [exec_gatedCommand hx]
    refine commandRead_allSelected hr hall hdue ?_
    rw [readOn_gatedOff hhook (hoff.of_flags (Page.raiseCml_flags pg)) hpg' hdue.1]
    simp [Work.diag]

/-- Settles O36: the write is a dispatched one that changes no page after step 2 cleared all; the read stages nothing. -/
theorem clearFaultsWithDataAndItsRead : Obligations.ClearFaultsWithDataAndItsRead := by
  refine fun s d c r idx pg hsel hexp => ⟨fun data hdata hclear hpage => ?write, fun hdue => ?read⟩
  case write =>
    have h := commandWrite_selected (dispatchesTo_clearFaults data) (fun _ _ => Exposed.of_flags) hsel hexp
      (Ne.symm hpage) hdata
    rwa [if_pos hclear.symm, List.modify_id] at h
  case read =>
    obtain ⟨-, -, -, -, hpg⟩ := id hsel
    exact commandRead_selected hsel hdue (readOn_writeOnly (e := entryClearFaults) hexp rfl hpg)

/-- Settles O40. -/
theorem gatedCommandWithoutItsFlagDoesNothing : Obligations.GatedCommandWithoutItsFlagDoesNothing := by
  refine fun x hx s d c r idx pg data hsel hoff => ⟨fun hhook hord hdata => ?write, fun hhook hdue => ?read⟩
  case write =>
    rw [exec_gatedCommand hx, commandWrite_ordinary (dispatchesTo_gatedOff hhook) (fun _ _ => GatedOff.of_flags) hsel hoff
      hord hdata, List.modify_id]
  case read =>
    obtain ⟨-, -, -, -, hpg⟩ := id hsel
    rw [exec_gatedCommand hx]
    exact commandRead_selected hsel hdue (readOn_gatedOff hhook hoff hpg hdue.1)

/-- Settles O43: the bad page is found after steps 1 and 2 of a write, and before the dispatch of a read. -/
theorem badPageResetsTheSelector : Obligations.BadPageResetsTheSelector := by
  refine fun row hrow s d c r data hr hall hbad => ⟨fun hpage hdata => ?write, fun hdue => ?read⟩
  case write =>
    rw [exec_commandRow hrow]
    refine commandWrite_regdev hr ?_
    rw [rmWrite_data _ _ _ hdata hpage, writeSelected_badPage (by simpa using hall) (by simpa using hbad)]
    simp [Work.diag, Work.setPage, Work.mapRd, Work.raiseCml, Work.modifyPage]
  case read =>
    rw [exec_commandRow hrow]
    exact commandRead_regdev hr (readByteOf_badPage hdue.1 hdue.2 hall hbad)

/-- Settles O49. -/
theorem stagedBytesAreServedFirst : Obligations.StagedBytesAreServedFirst := by
  refine fun row hrow s d c r hr => ⟨fun n b hlen hbyte => ?staged, fun hout hvalid => ?unallocated⟩
  case staged =>
    rw [exec_commandRow hrow]
    refine commandRead_regdev hr ?_
    rw [readByteOf_staged (by rw [hlen]; exact Nat.succ_pos n), pop_staged _ n b hlen hbyte, List.append_nil]
  case unallocated =>
    rw [exec_commandRow hrow]
    exact commandRead_regdev hr (readByteOf_unallocated hout hvalid)

/-! ### The staging buffer in wire order (R45) -/

theorem popAll_succ {n : Nat} (hb : w.dev.rd.outBuf[n]? = some b) (hlen : w.dev.rd.outLen = n + 1) :
    popAll (n + 1) w = b :: popAll n (w.mapRd fun rd => { rd with outLen := n }) := by
  rw [popAll, pop_staged w n b hlen hb]
  rfl

/-- Popping everything gives the occupied slots from the highest down. -/
theorem popAll_eq_reverse_take : ∀ (n : Nat) (w : Work), w.dev.rd.outLen = n → n ≤ w.dev.rd.outBuf.length →
    popAll n w = (w.dev.rd.outBuf.take n).reverse
  | 0, _, _, _ => rfl
  | n + 1, w, hlen, hle => by
    have hb : w.dev.rd.outBuf[n]? = some w.dev.rd.outBuf[n] := List.getElem?_eq_getElem hle
    have ih := popAll_eq_reverse_take n (w.mapRd fun rd => { rd with outLen := n }) rfl (Nat.le_of_succ_le hle)
    rw [popAll_succ hb hlen, ih, List.take_add_one, hb, List.reverse_append]
    rfl

/-- Settles O50: staging writes the bytes reversed at the low end. -/
theorem stagedBytesLeaveInWireOrder : Obligations.StagedBytesLeaveInWireOrder := by
  intro cap bytes w
  rw [stageBytes_eq]
  refine (popAll_eq_reverse_take (min bytes.length cap) _ rfl (by simp; omega)).trans ?_
  have hlen : (bytes.take cap).reverse.length = min bytes.length cap := by simp [Nat.min_comm]
  rw [List.take_left' hlen, List.reverse_reverse]

/-! ### Unlisted codes (R66, R250) -/

/-- Settles O41: a code without an entry goes to the hook, by default without effect. -/
theorem unlistedCommandCodeIsNoViolation : Obligations.UnlistedCommandCodeIsNoViolation := by
  refine fun s d c r idx pg x hsel hopen hcur hok =>
    ⟨fun code data hhook hmode hpayload hdata hord hnone => ?write, fun hhook hmode hdue hnone => ?read⟩
  case write =>
    obtain ⟨hr, hall, rfl, hlt, hpg⟩ := hsel
    have hlen : r.fr.len ≠ 0 := by
      intro h0
      rw [Framer.payload, h0, List.take_zero] at hpayload
      cases hpayload
    have hwrite : rmWrite s.cfg c r.fr.payload { dev := r, diags := s.diags } =
        ({ dev := r.written code r.pg, diags := s.diags }, true) := by
      rw [hpayload, rmWrite_ordinary hall rfl hlt hord.1 hord.2 hdata]
      have hdisp : ∀ w : Work, w.dev.rd.cmd = code →
          dispatchWrite s.cfg c r.rd.page.toNat (code :: data) w = (w, true) := by
        intro w hcmd
        simp [dispatchWrite, hcmd, selectEntry_unlisted hnone, hookWrite_default hhook]
      dsimp only
      rw [hdisp _ rfl]
      rfl
    rw [execStop_single x hopen hcur hr, frFinish_flush (.inl hmode) hlen, hwrite]
    rfl
  case read =>
    obtain ⟨hr, hall, rfl, hlt, hpg⟩ := hsel
    have hread : frRecv s.cfg c { dev := r, diags := s.diags } =
        ({ dev := r, diags := s.diags ++ [.rmEmptyPop] }, 0xFF) := by
      rw [frRecv_read hmode]
      exact (readByteOf_real hdue.1 hdue.2 hall hlt).trans
        (readOn_hook hhook (selectEntry_unlisted hnone) hdue.1)
    obtain ⟨n, hn, hdev⟩ := State.regdev?_eq_some.1 hr
    have hself : s.setRegDev d c r = s := by
      rw [State.setRegDev, ← hdev]
      exact State.setDevice_self (State.configOk_ids hok).2 hn
    rw [execRx_single x hopen hcur hr, hread, hself]

end Sys2Proof.Machine
end

section
/-! The evaluator is idempotent (R283): a family raised once is not changed by the same raise, whatever is raised between. -/

namespace Sys2Proof.Machine

/-! ### Raises commute and repeat without effect -/

theorem Status.ext_get {a b : Status} (hword : a.word = b.word) (hget : ∀ f, a.get f = b.get f) : a = b := by
  obtain ⟨aw, av, ai, an, at', ac⟩ := a
  obtain ⟨bw, bv, bi, bn, bt, bc⟩ := b
  have h1 := hget .vout
  have h2 := hget .iout
  have h3 := hget .input
  have h4 := hget .temperature
  have h5 := hget .cml
  simp only [Status.get] at hword h1 h2 h3 h4 h5
  subst hword h1 h2 h3 h4 h5
  rfl

theorem Status.raise_word (st : Status) (f : SubStatus) (b : Byte) :
    (st.raise f b).word = st.word ||| summaryMask f b := by
  rw [Status.raise, Status.set_word]

theorem Status.raise_get (st : Status) (f f' : SubStatus) (b : Byte) :
    (st.raise f b).get f' = if f' = f then st.get f' ||| b else st.get f' := by
  by_cases h : f' = f
  · rw [if_pos h, h, Status.raise, Status.get_set_same]
  · rw [if_neg h, Status.raise, Status.get_set_other _ _ _ _ h]
    cases f' <;> rfl

theorem Status.raise_comm (st : Status) (f f' : SubStatus) (a b : Byte) :
    (st.raise f a).raise f' b = (st.raise f' b).raise f a := by
  refine Status.ext_get ?_ fun x => ?_
  · simp only [Status.raise_word, BitVec.or_assoc, BitVec.or_comm (summaryMask f a)]
  · simp only [Status.raise_get]
    split_ifs
    case pos => rw [BitVec.or_assoc, BitVec.or_comm a b, BitVec.or_assoc]
    all_goals rfl

theorem Status.raise_self (st : Status) (f : SubStatus) (b : Byte) : (st.raise f b).raise f b = st.raise f b := by
  rw [Status.raise_raise, BitVec.or_self]

/-- What is raised stays raised. -/
theorem Status.raise_of_raised {st : Status} {f : SubStatus} {b : Byte} (h : st.raise f b = st) (f' : SubStatus) (b' : Byte) :
    (st.raise f' b').raise f b = st.raise f' b' := by
  rw [Status.raise_comm, h]

/-! ### Rows of the table that have been evaluated -/

variable {p : Page} {rows : List EvalRow} {pages : List Page} {f : Page → Page} {pg : Page} {i n : Nat}

/-- The raise a row of the table makes on a page. -/
def EvalRow.applied (row : EvalRow) (p : Page) (st : Status) : Status :=
  st.raise row.sub (bitIf (row.fires p) row.bit)

theorem evalStatus_cons {row : EvalRow} (hrow : row ∈ evalRows) (p : Page) (rows : List EvalRow) (st : Status) :
    evalStatus p (row :: rows) st = evalStatus p rows (row.applied p st) := by
  rw [evalStatus, evalRow_eq_raise hrow, EvalRow.applied]

/-- What is raised before some rows is raised after them. -/
theorem raised_evalStatus (hrows : ∀ row ∈ rows, row ∈ evalRows) {st : Status} {f : SubStatus} {b : Byte}
    (h : st.raise f b = st) : (evalStatus p rows st).raise f b = evalStatus p rows st := by
  induction rows generalizing st with
  | nil => exact h
  | cons row rows ih =>
    obtain ⟨hrow, hrest⟩ := List.forall_mem_cons.1 hrows
    rw [evalStatus_cons hrow]
    exact ih hrest (Status.raise_of_raised h _ _)

/-- After some rows have been evaluated each of them has made its raise. -/
theorem applied_evalStatus (hrows : ∀ row ∈ rows, row ∈ evalRows) (st : Status) :
    ∀ row ∈ rows, row.applied p (evalStatus p rows st) = evalStatus p rows st := by
  induction rows generalizing st with
  | nil => exact fun _ h => absurd h List.not_mem_nil
  | cons row rows ih =>
    obtain ⟨hrow, hrest⟩ := List.forall_mem_cons.1 hrows
    rw [evalStatus_cons hrow]
    exact List.forall_mem_cons.2 ⟨raised_evalStatus hrest (Status.raise_self _ _ _), ih hrest _⟩

/-- Rows that have made their raise change nothing. -/
theorem evalStatus_of_applied (hrows : ∀ row ∈ rows, row ∈ evalRows) {st : Status}
    (h : ∀ row ∈ rows, row.applied p st = st) : evalStatus p rows st = st := by
  induction rows with
  | nil => rfl
  | cons row rows ih =>
    obtain ⟨hrow, hrest⟩ := List.forall_mem_cons.1 hrows
    obtain ⟨h1, h2⟩ := List.forall_mem_cons.1 h
    rw [evalStatus_cons hrow, h1, ih hrest h2]

theorem evalStatus_idem (p : Page) (st : Status) :
    evalStatus p evalRows (evalStatus p evalRows st) = evalStatus p evalRows st :=
  evalStatus_of_applied (fun _ h => h) (applied_evalStatus (fun _ h => h) st)

theorem Page.evaluateIfOn_idem (p : Page) : p.evaluateIfOn.evaluateIfOn = p.evaluateIfOn := by
  cases hon : p.control.operation.getLsbD 7 with
  | false => rw [Page.evaluateIfOn_of_off hon, Page.evaluateIfOn_of_off hon]
  | true =>
    have hon' : p.evaluateIfOn.control.operation.getLsbD 7 = true := by rw [Page.evaluateIfOn_control]; exact hon
    rw [Page.evaluateIfOn_of_on hon',
      evalStatus_congr p.evaluateIfOn p p.evaluateIfOn_limits p.evaluateIfOn_readings, Page.evaluateIfOn_of_on hon]
    simp only [evalStatus_idem]

/-! ### A page whose status only grows -/

/-- The page `p'` is `p` but for status bits that may have been added. -/
def Page.Grows (p p' : Page) : Prop := { p' with status := p.status } = p ∧ p.status.le p'.status

theorem Page.Grows.refl (p : Page) : p.Grows p := ⟨rfl, Status.le_refl _⟩

theorem Page.Grows.trans {p q r : Page} (h : p.Grows q) (h' : q.Grows r) : p.Grows r := by
  refine ⟨?_, Status.le_trans h.2 h'.2⟩
  calc { r with status := p.status } = { { r with status := q.status } with status := p.status } := rfl
    _ = { q with status := p.status } := by rw [h'.1]
    _ = p := h.1

theorem Page.grows_raiseCml (p : Page) : p.Grows p.raiseCml := ⟨rfl, le_raiseCml p⟩

theorem Page.grows_evaluateIfOn (p : Page) : p.Grows p.evaluateIfOn := ⟨p.evaluateIfOn_frame, p.le_evaluateIfOn⟩

/-- Settles O53: page by page. -/
theorem evaluatorIsStickyAndIdempotent : Obligations.EvaluatorIsStickyAndIdempotent := by
  refine fun pages => ⟨?_, ?_⟩
  · rw [evaluatePages, evaluatePages, List.map_map]
    exact List.map_congr_left fun p _ => p.evaluateIfOn_idem
  · rw [evaluatePages, List.forall₂_map_right_iff, List.forall₂_same]
    exact fun p _ => p.grows_evaluateIfOn

/-! ### Pages changed one after the other, all evaluated after each (R54, R158) -/

/-- A page that has not been reached yet was evaluated with the others. -/
theorem fannedOut_getElem?_of_le (h : pages[i]? = some pg) (f : Page → Page) (hni : n ≤ i) :
    (fannedOut n f pages)[i]? = some (if n = 0 then pg else pg.evaluateIfOn) := by
  induction n with
  | zero => simpa using h
  | succ n ih =>
    have hne : n ≠ i := by omega
    rw [fannedOut_succ, evaluatePages_getElem?, List.getElem?_modify, ih (by omega)]
    rcases Nat.eq_zero_or_pos n with rfl | hn
    · simp [hne]
    · simp [hne, Nat.ne_of_gt hn, Page.evaluateIfOn_idem]

/-- A page that has been reached was changed and evaluated; what comes after does not change it. -/
theorem fannedOut_getElem?_of_lt (h : pages[i]? = some pg) (f : Page → Page) (hin : i < n) :
    (fannedOut n f pages)[i]? = some (f (if i = 0 then pg else pg.evaluateIfOn)).evaluateIfOn := by
  induction n, hin using Nat.le_induction with
  | base =>
    rw [fannedOut_succ, evaluatePages_getElem?, List.getElem?_modify, fannedOut_getElem?_of_le h f (Nat.le_refl i)]
    simp
  | succ n hn ih =>
    have hne : n ≠ i := by omega
    rw [fannedOut_succ, evaluatePages_getElem?, List.getElem?_modify, ih]
    simp [hne, Page.evaluateIfOn_idem]

/-- Assigning a limit of an evaluated page is assigning that of the page, but for the status. -/
theorem evaluateIfOn_setLimit (pg : Page) (l : LimitField) (v : Word) :
    (∃ st, (pg.setWord (.limit l) v).evaluateIfOn = { pg.setWord (.limit l) v with status := st }) ∧
    (∃ st, (pg.evaluateIfOn.setWord (.limit l) v).evaluateIfOn = { pg.setWord (.limit l) v with status := st }) := by
  refine ⟨Page.evaluateIfOn_eq _, ?_⟩
  obtain ⟨st, hst⟩ := pg.evaluateIfOn_eq
  obtain ⟨st', hst'⟩ := (pg.evaluateIfOn.setWord (.limit l) v).evaluateIfOn_eq
  exact ⟨st', by rw [hst', hst]; rfl⟩

end Sys2Proof.Machine
end

section
/-! The linear round trip (R268 (a)). -/

namespace Sys2Proof.Machine

theorem shl16_toNat_of_lt {v : Word} {k : Nat} (h : v.toNat * 2 ^ k < 2 ^ 16) : (shl16 v k).toNat = v.toNat * 2 ^ k := by
  rw [shl16_toNat, Nat.mod_eq_of_lt h]

/-- The right shift of a word of 15 bits divides. -/
theorem asr16_toNat_of_lt {v : Word} (k : Nat) (h : v.toNat < 2 ^ 15) : (asr16 v k).toNat = v.toNat / 2 ^ k := by
  have hmsb : v.msb = false := by
    rw [BitVec.msb_eq_false_iff_two_mul_lt]
    omega
  rw [asr16, BitVec.sshiftRight_eq_of_msb_false hmsb, BitVec.toNat_ushiftRight, Nat.shiftRight_eq_div_pow]

/-- Settles O56: division and multiplication by a power of two undo each other up to the remainder. -/
theorem linearRoundTrip : Obligations.LinearRoundTrip := by
  refine ⟨fun v e he hv => ?_, fun v e he hv => ?_⟩
  · have hdiv := asr16_toNat_of_lt e.toNat hv
    have hle : v.toNat / 2 ^ e.toNat * 2 ^ e.toNat ≤ v.toNat := Nat.div_mul_le_self _ _
    rw [linearEncode_of_nonneg v he, linearDecode_of_nonneg _ he, shl16_toNat_of_lt (by rw [hdiv]; omega), hdiv]
    have := Nat.div_add_mod' v.toNat (2 ^ e.toNat)
    omega
  · rw [linearEncode_of_neg v he, linearDecode_of_neg _ he]
    have hshl := shl16_toNat_of_lt (v := v) (k := (-e).toNat) (by omega)
    apply BitVec.eq_of_toNat_eq
    rw [asr16_toNat_of_lt _ (by rw [hshl]; exact hv), hshl, Nat.mul_div_cancel _ (Nat.two_pow_pos _)]

end Sys2Proof.Machine
end

section
/-! The all-pages write (R154): for a dispatch that does the same to every page, and, for any dispatch, as one write after the
other. -/

namespace Sys2Proof.Machine

variable {g : Config} {c : RegDevCfg} {s : State} {d : NodeId} {r : RegDev} {code : Byte} {data : List Byte}
  {f : Page → Page} {ds : List Diag} {ok : Bool} {Q : Page → Prop}

/-! ### The same change of every page -/

theorem commandWrite_allSelected (hd : DispatchesTo s.cfg c code data Q f ds ok)
    (hflags : ∀ p p' : Page, p'.flags = p.flags → Q p → Q p') (hf : ∀ p, (f p).flags = p.flags)
    (hsel : AllSelected s d c r) (hQ : ∀ pg ∈ r.pg, Q pg) (hpage : code ≠ s.cfg.cmdPage) (hdata : data ≠ []) :
    commandAccess code (.write d data) s =
      .next (s.wroteAll d c r code data
        (if code = s.cfg.cmdClearFaults then r.pg.map Page.clearStatus else r.pg) f ds) := by
  obtain ⟨hr, hall, hlen, hn⟩ := hsel
  exact commandWrite_regdev hr (rmWrite_allPages hdata hpage hall hlen hn hflags hf
    (fun i w pg hcmd hpg hpgQ => congrArg Prod.fst (hd i w pg hcmd hpg hpgQ)) hQ)

theorem commandWrite_allOrdinary (hd : DispatchesTo s.cfg c code data Q f ds ok)
    (hflags : ∀ p p' : Page, p'.flags = p.flags → Q p → Q p') (hf : ∀ p, (f p).flags = p.flags)
    (hsel : AllSelected s d c r) (hQ : ∀ pg ∈ r.pg, Q pg) (hord : Ordinary s code) (hdata : data ≠ []) :
    commandAccess code (.write d data) s = .next (s.wroteAll d c r code data r.pg f ds) := by
  rw [commandWrite_allSelected hd hflags hf hsel hQ hord.1 hdata, if_neg hord.2]

/-! ### The loop of step 4, one page at a time -/

theorem fanOut_append (P : List Byte) (is js : List Nat) (w : Work) :
    fanOut g c P (is ++ js) w = fanOut g c P js (fanOut g c P is w) := by
  induction is generalizing w with
  | nil => rfl
  | cons i is ih => exact ih _

/-- The device after the code was latched and the first `n` pages were written. -/
def fanned (g : Config) (c : RegDevCfg) (code : Byte) (data : List Byte) (w : Work) (n : Nat) : Work :=
  fanOut g c (code :: data) (List.range n) (latchCommand code (data.length + 1) w)

theorem fanned_succ (w : Work) (n : Nat) :
    fanned g c code data w (n + 1) =
      (writeOne g c (code :: data) ((fanned g c code data w n).setPage (BitVec.ofNat 8 n))).1 := by
  rw [fanned, List.range_succ, fanOut_append]
  rfl

/-! ### A write keeps the latch, and does not read `in_len` -/

theorem writeClass_latch (cls : CmdClass) (i : Nat) (P : List Byte) (w : Work) :
    (writeClass cls i P w).1.dev.rd.cmd = w.dev.rd.cmd ∧
      (writeClass cls i P w).1.dev.rd.pagesValid = w.dev.rd.pagesValid := by
  cases cls with
  | str f => simp only [writeClass, rxBlock]; split <;> exact ⟨rfl, rfl⟩
  | rwb | rww | sb => simp [writeClass]
  | rob | row | ro5 | cap | devid | wo0 | page => exact ⟨rfl, rfl⟩

theorem writeOne_latch (hhook : c.hookWrite = none) (P : List Byte) (w : Work) :
    (writeOne g c P w).1.dev.rd.cmd = w.dev.rd.cmd ∧
      (writeOne g c P w).1.dev.rd.pagesValid = w.dev.rd.pagesValid := by
  unfold writeOne
  split
  · exact ⟨rfl, rfl⟩
  · rw [dispatchWrite]
    split
    · rw [hookWrite_default hhook]; exact ⟨rfl, rfl⟩
    · exact writeClass_latch _ _ _ _

theorem fanned_latch (hhook : c.hookWrite = none) (w : Work) (n : Nat) :
    (fanned g c code data w n).dev.rd.cmd = code ∧ (fanned g c code data w n).dev.rd.pagesValid = true := by
  induction n with
  | zero => exact ⟨rfl, rfl⟩
  | succ n ih =>
    rw [fanned_succ]
    obtain ⟨hcmd, hvalid⟩ := writeOne_latch (g := g) hhook (code :: data)
      ((fanned g c code data w n).setPage (BitVec.ofNat 8 n))
    exact ⟨hcmd.trans ih.1, hvalid.trans ih.2⟩

theorem writeClass_setInLen (cls : CmdClass) (i : Nat) (P : List Byte) (n : Nat) (w : Work) :
    writeClass cls i P (w.setInLen n) = ((writeClass cls i P w).1.setInLen n, (writeClass cls i P w).2) := by
  have hrx : ∀ k, rxUint P k (w.setInLen n) = ((rxUint P k w).1.setInLen n, (rxUint P k w).2) := by
    intro k; simp only [rxUint]; split <;> rfl
  cases cls with
  | str f => simp only [writeClass, rxBlock]; split <;> rfl
  | rwb | rww | sb => simp only [writeClass, hrx]; rfl
  | rob | row | ro5 | cap | devid | wo0 | page => rfl

/-- Step 7 sets `in_len` to 0, whatever it was. -/
theorem writeOne_setInLen (hhook : c.hookWrite = none) (P : List Byte) (n : Nat) {w : Work}
    (hreal : w.dev.rd.page.toNat < c.numPages) : writeOne g c P (w.setInLen n) = writeOne g c P w := by
  have hdisp : dispatchWrite g c w.dev.rd.page.toNat P (w.setInLen n) =
      ((dispatchWrite g c w.dev.rd.page.toNat P w).1.setInLen n, (dispatchWrite g c w.dev.rd.page.toNat P w).2) := by
    have hsel : selectEntry c w.dev.rd.cmd w.dev.rd.page.toNat (w.setInLen n) =
        selectEntry c w.dev.rd.cmd w.dev.rd.page.toNat w := rfl
    simp only [dispatchWrite, Work.setInLen_rd, hsel]
    split
    · rw [hookWrite_default hhook, hookWrite_default hhook]
    · exact writeClass_setInLen _ _ _ _ _
  simp only [writeOne, Work.setInLen_rd, if_neg (Nat.not_le.2 hreal), hdisp]
  rfl

/-- Latching the code again changes `in_len` only. -/
theorem latchCommand_of_latched {w : Work} (h : w.dev.rd.cmd = code ∧ w.dev.rd.pagesValid = true) (n : Nat) :
    latchCommand code n w = w.setInLen n := by
  obtain ⟨⟨fr, ⟨page, cmd, valid, buf, len, inLen⟩, pg⟩, ds⟩ := w
  obtain ⟨rfl, rfl⟩ := h
  rfl

/-- The write call of an ordinary code while a page is selected that is not the pseudo-index. -/
theorem rmWrite_one {w : Work} (h1 : code ≠ g.cmdPage) (h2 : code ≠ g.cmdClearFaults) (hdata : data ≠ [])
    (hall : w.dev.rd.page ≠ allPages) :
    rmWrite g c (code :: data) w = writeOne g c (code :: data) (latchCommand code (data.length + 1) w) := by
  rw [rmWrite_data _ _ _ hdata h1, entered, if_neg h2, writeSelected, if_neg (by simpa using hall)]

theorem rmWrite_all {w : Work} (h1 : code ≠ g.cmdPage) (h2 : code ≠ g.cmdClearFaults) (hdata : data ≠ [])
    (hall : w.dev.rd.page = allPages) :
    rmWrite g c (code :: data) w = ((fanned g c code data w c.numPages).setPage allPages, true) := by
  rw [rmWrite_data _ _ _ hdata h1, entered, if_neg h2, writeSelected, if_pos (by simpa using hall), fanned]

/-- With page `i` selected the write call does what the loop does at `i`. -/
theorem rmWrite_setPage_eq_fanned (h1 : code ≠ g.cmdPage) (h2 : code ≠ g.cmdClearFaults) (hdata : data ≠ [])
    (hhook : c.hookWrite = none) {i : Nat} (hi : i < c.numPages) (hn : c.numPages ≤ 255) {w v : Work}
    (hv : latchCommand code (data.length + 1) (v.setPage (BitVec.ofNat 8 i)) =
      latchCommand code (data.length + 1) ((fanned g c code data w i).setPage (BitVec.ofNat 8 i))) :
    rmWrite g c (code :: data) (v.setPage (BitVec.ofNat 8 i)) =
      writeOne g c (code :: data) ((fanned g c code data w i).setPage (BitVec.ofNat 8 i)) := by
  have htoNat : (BitVec.ofNat 8 i).toNat = i := by simp; omega
  have hall : BitVec.ofNat 8 i ≠ allPages := by
    intro h
    have := congrArg BitVec.toNat h
    rw [htoNat, allPages] at this
    simp at this
    omega
  rw [rmWrite_one h1 h2 hdata (by simpa using hall), hv,
    latchCommand_of_latched (w := (fanned g c code data w i).setPage (BitVec.ofNat 8 i)) (fanned_latch hhook w i),
    writeOne_setInLen hhook _ _ (by rw [Work.setPage_rd, htoNat]; exact hi)]

/-! ### The states of the run -/

/-- A state with a device, the diagnostics and the response of a call. -/
def State.calledWith (s : State) (d : NodeId) (c : RegDevCfg) (w : Work) (resp : Response) : State :=
  ((s.setRegDev d c w.dev).setDiags w.diags).respond resp

theorem State.regdev?_calledWith (hr : s.regdev? d = some (c, r)) (w : Work) (resp : Response) :
    (s.calledWith d c w resp).regdev? d = some (c, w.dev) := by
  simpa [State.calledWith] using State.regdev?_setRegDev_same s d c c w.dev r hr

/-- The last of two calls of one device counts. -/
theorem State.calledWith_calledWith (w w' : Work) (resp resp' : Response) :
    (s.calledWith d c w resp).calledWith d c w' resp' = s.calledWith d c w' resp' := by
  have h := congrArg (fun t : State => (t.setDiags w'.diags).respond resp')
    (State.setRegDev_setRegDev s d c c w.dev w'.dev)
  exact h

theorem State.withSelector_eq (hr : s.regdev? d = some (c, r)) (v : Byte) :
    s.withSelector d v = s.calledWith d c (Work.setPage { dev := r, diags := s.diags } v) s.resp := by
  simp only [State.withSelector, hr]
  rfl

theorem State.withSelector_calledWith (hr : s.regdev? d = some (c, r)) (w : Work) (resp : Response) (v : Byte) :
    (s.calledWith d c w resp).withSelector d v = s.calledWith d c (w.setPage v) resp := by
  rw [State.withSelector_eq (State.regdev?_calledWith hr w resp), State.calledWith_calledWith]
  rfl

theorem commandWrite_calledWith (hr : s.regdev? d = some (c, r)) (w : Work) (resp : Response) :
    commandAccess code (.write d data) (s.calledWith d c w resp) =
      .next (s.calledWith d c (rmWrite s.cfg c (code :: data) w).1 (.writeCall (rmWrite s.cfg c (code :: data) w).2)) := by
  rw [commandWrite_some (State.regdev?_calledWith hr w resp)]
  exact congrArg Host.Outcome.next (State.calledWith_calledWith w _ resp _)

/-- The state after the writes of page 0 alone, of page 1 alone, and so on to page `n - 1`. -/
def writeRun (s : State) (d : NodeId) (c : RegDevCfg) (r : RegDev) (code : Byte) (data : List Byte) : Nat → State
  | 0 => s
  | n + 1 =>
    s.calledWith d c (fanned s.cfg c code data { dev := r, diags := s.diags } (n + 1))
      (.writeCall (writeOne s.cfg c (code :: data)
        ((fanned s.cfg c code data { dev := r, diags := s.diags } n).setPage (BitVec.ofNat 8 n))).2)

theorem commandWrite_writeRun (hr : s.regdev? d = some (c, r)) (hord : Ordinary s code) (hdata : data ≠ [])
    (hhook : c.hookWrite = none) (hn : c.numPages ≤ 255) {i : Nat} (hi : i < c.numPages) :
    commandAccess code (.write d data) ((writeRun s d c r code data i).withSelector d (BitVec.ofNat 8 i)) =
      .next (writeRun s d c r code data (i + 1)) := by
  obtain ⟨v, resp, hv, hlatch⟩ : ∃ (v : Work) (resp : Response),
      (writeRun s d c r code data i).withSelector d (BitVec.ofNat 8 i) =
        s.calledWith d c (v.setPage (BitVec.ofNat 8 i)) resp ∧
      latchCommand code (data.length + 1) (v.setPage (BitVec.ofNat 8 i)) =
        latchCommand code (data.length + 1)
          ((fanned s.cfg c code data { dev := r, diags := s.diags } i).setPage (BitVec.ofNat 8 i)) := by
    cases i with
    | zero => exact ⟨{ dev := r, diags := s.diags }, s.resp, State.withSelector_eq hr _, rfl⟩
    | succ i => exact ⟨_, _, State.withSelector_calledWith hr _ _ _, rfl⟩
  rw [hv, commandWrite_calledWith hr, rmWrite_setPage_eq_fanned hord.1 hord.2 hdata hhook hi hn hlatch, writeRun,
    fanned_succ]

theorem commandWrite_all_eq_writeRun (hr : s.regdev? d = some (c, r)) (hall : r.rd.page = allPages)
    (hord : Ordinary s code) (hdata : data ≠ []) (hpos : 1 ≤ c.numPages) :
    commandAccess code (.write d data) s =
      .next { (writeRun s d c r code data c.numPages).withSelector d 0xFF with resp := .writeCall true } := by
  obtain ⟨n, hn⟩ : ∃ n, c.numPages = n + 1 := ⟨c.numPages - 1, by omega⟩
  rw [commandWrite_some hr, rmWrite_all hord.1 hord.2 hdata hall, hn, writeRun, State.withSelector_calledWith hr]
  rfl

/-! ### The obligation -/

/-- Settles O42: the pages by the closed form of the loop, the commands by what their dispatch does to a page, the run by the
loop's own steps. -/
theorem allPagesWriteReachesEveryPage : Obligations.AllPagesWriteReachesEveryPage := by
  refine ⟨fun n i f pages pg hin hpg => ⟨fannedOut_getElem?_of_lt hpg f hin, ?limit⟩, fun s d c r hsel =>
    ⟨fun x hx data hexp hord hdata => ?word, fun x hx v rest hexp hord => ?byte, fun v rest hexp hord => ?status,
      fun x hx n chars hexp hord => ?string, fun x hx data hexp hord hdata => ?readOnly,
      fun data hexp hclear hpage hdata => ?clearFaults, fun x hx data hoff hhook hord hdata => ?gated,
      fun row hrow data hhook hord hdata hpos => ?run⟩⟩
  case limit =>
    rintro l v rfl
    obtain ⟨⟨st, hst⟩, ⟨st', hst'⟩⟩ := evaluateIfOn_setLimit pg l v
    rw [fannedOut_getElem?_of_lt hpg _ hin]
    by_cases h0 : i = 0
    · exact ⟨st, by simp only [if_pos h0, hst]⟩
    · exact ⟨st', by simp only [if_neg h0, hst']⟩
  case word =>
    rw [(exec_wordCommand hx _ s).1]
    exact commandWrite_allOrdinary (dispatchesTo_word hx hdata) (fun _ _ => Exposed.of_flags)
      (fun p => p.setWord_flags _ _) hsel hexp hord hdata
  case byte =>
    rw [(exec_byteCommand hx _ s).1]
    exact commandWrite_allOrdinary (dispatchesTo_byte hx v rest) (fun _ _ => Exposed.of_flags)
      (fun p => p.setByte_flags _ _) hsel hexp hord (by simp)
  case status =>
    exact commandWrite_allOrdinary (dispatchesTo_statusByte v rest) (fun _ _ => Exposed.of_flags) (fun _ => rfl) hsel hexp
      hord (by simp)
  case string =>
    rw [(exec_stringCommand hx _ s).1]
    split
    next hn =>
      exact commandWrite_allOrdinary (dispatchesTo_string hx hn) (fun _ _ => Exposed.of_flags) (fun _ => rfl) hsel hexp hord
        (by simp)
    next hn =>
      exact commandWrite_allOrdinary (dispatchesTo_malformed hx hn) (fun _ _ => Exposed.of_flags) (fun _ => rfl) hsel hexp
        hord (by simp)
  case readOnly =>
    rw [(exec_readOnlyCommand hx _ s).1]
    exact commandWrite_allOrdinary (dispatchesTo_readOnly hx data) (fun _ _ => Exposed.of_flags) Page.raiseCml_flags hsel
      hexp hord hdata
  case clearFaults =>
    have h := commandWrite_allSelected (dispatchesTo_clearFaults data) (fun _ _ => Exposed.of_flags) (fun _ => rfl) hsel hexp
      (Ne.symm hpage) hdata
    rwa [if_pos hclear.symm] at h
  case gated =>
    rw [exec_gatedCommand hx]
    exact commandWrite_allOrdinary (dispatchesTo_gatedOff hhook) (fun _ _ => GatedOff.of_flags) (fun _ => rfl) hsel hoff hord
      hdata
  case run =>
    obtain ⟨hr, hall, -, hn⟩ := hsel
    refine ⟨writeRun s d c r row.code data, rfl, fun i hi => ?_, ?_⟩
    · rw [exec_commandRow hrow]
      exact commandWrite_writeRun hr hord hdata hhook hn hi
    · rw [exec_commandRow hrow]
      exact commandWrite_all_eq_writeRun hr hall hord hdata hpos

end Sys2Proof.Machine
end

section
/-! What steps and requests leave unchanged: the configuration, the addressed set, nodes that are not addressed, and what each
of the two ports cannot write (R6, R11, R310, R311). -/

namespace Sys2Proof.Machine

variable {g : Config} {c : RegDevCfg} {s t : State} {d : NodeId} {r : RegDev} {i : Instr} {op : BitVec 4} {args : HostArgs}

/-! ### The forms of a step -/

/-- What a step is: nothing presented, a wire request, a host operation, or a reserved operation number. -/
inductive StepForm (s t : State) : Prop
  | idle (ht : t = s)
  | wire (rest : List Request) (req : BitVec 11) (h : exec (decodeWire req) (s.begin rest) = .next t)
  | host (rest : List Request) (op : BitVec 4) (args : HostArgs) (i : Instr) (hd : decode (.host op args) = .ok i)
      (h : exec i (s.begin rest) = .next t)
  | reserved (rest : List Request) (ht : t = (s.begin rest).hostBad)

theorem stepForm (h : step s = .next t) : s.configOk = true ∧ StepForm s t := by
  cases hok : s.configOk with
  | false => rw [step_refuses hok] at h; cases h
  | true =>
    refine ⟨rfl, ?_⟩
    cases hp : s.pending with
    | nil => rw [step_idle hok hp] at h; cases h; exact .idle rfl
    | cons rq rest =>
      rw [step_serves hok hp] at h
      cases rq with
      | wire req => exact .wire rest req h
      | host op args =>
        cases hd : decode (.host op args) with
        | error e => rw [serve_undecoded (rq := .host op args) hd] at h; cases h; exact .reserved rest rfl
        | ok i => rw [serve_decoded (rq := .host op args) hd] at h; exact .host rest op args i hd h

/-! ### The configuration (R6) -/

/-- A function of the nodes that a relation keeps is the same on both lists. -/
theorem map_eq_of_forall₂ {α β : Type} {R : α → α → Prop} {f : α → β} (hf : ∀ a b, R a b → f b = f a) {l l' : List α}
    (h : List.Forall₂ R l l') : l'.map f = l.map f := by
  induction h with
  | nil => rfl
  | cons hab _ ih => rw [List.map_cons, List.map_cons, hf _ _ hab, ih]

theorem exec_wire_cfg {req : BitVec 11} (h : exec (decodeWire req) s = .next t) : t.cfg = s.cfg := by
  have hform := wireForm req s t h
  generalize decodeWire req = i at hform
  cases hform with
  | same _ _ _ hc _ => exact hc
  | start _ dir ids _ bus _ _ ht => subst ht; exact (State.eventAll_shell _ ids { s with bus := bus }).1
  | send _ v _ _ ht => subst ht; exact (State.sendAll_shell v _ s).1
  | recv _ _ _ ht => subst ht; exact (State.recvAll_shell _ s _).1
  | nack _ _ _ ht => subst ht; exact (State.eventAll_shell _ _ s).1
  | stop _ _ _ ht => subst ht; exact (State.eventAll_shell _ _ s).1

theorem exec_wire_configuration {req : BitVec 11} (hok : s.configOk = true) (h : exec (decodeWire req) s = .next t) :
    t.configuration = s.configuration := by
  have hnodes := NodeRel.constants.wire (s := s) (fun e n ds => ⟨rfl, rfl, rfl, n.dev.onEvent_cfg _ e ds⟩)
    (fun v n ds => ⟨rfl, rfl, rfl, n.dev.onSend_cfg _ v ds⟩) (fun n ds => ⟨rfl, rfl, rfl, n.dev.onRecv_cfg _ ds⟩) req t
    (State.configOk_ids hok).2 h
  have hmap : t.nodes.map (fun n => (n.id, n.addr0, n.dev.cfg)) = s.nodes.map fun n => (n.id, n.addr0, n.dev.cfg) :=
    map_eq_of_forall₂ (by rintro a b ⟨hid, haddr, -, hcfg⟩; rw [hid, haddr, hcfg]) hnodes
  rw [State.configuration, State.configuration, exec_wire_cfg h, hmap]

theorem Node.reset_constants (cap : Nat) (n : Node) :
    ((n.reset cap).id, (n.reset cap).addr0, (n.reset cap).dev.cfg) = (n.id, n.addr0, n.dev.cfg) := by
  obtain ⟨id, addr0, addr, dev⟩ := n
  cases dev <;> rfl

theorem State.configuration_of_nodes (hc : t.cfg = s.cfg) {ns : List Node} (hn : t.nodes = ns)
    (h : ns.map (fun n => (n.id, n.addr0, n.dev.cfg)) = s.nodes.map fun n => (n.id, n.addr0, n.dev.cfg)) :
    t.configuration = s.configuration := by
  rw [State.configuration, State.configuration, hc, hn, h]

theorem exec_host_configuration (hok : s.configOk = true) (hd : decode (.host op args) = .ok i)
    (h : exec i s = .next t) : t.configuration = s.configuration := by
  cases hostForm hd h with
  | same hn hc _ => exact State.configuration_of_nodes hc hn rfl
  | reset hn hc _ =>
    refine State.configuration_of_nodes hc hn ?_
    rw [List.map_map]
    exact List.map_congr_left fun n _ => n.reset_constants _
  | addr n a hn hc _ =>
    refine State.configuration_of_nodes hc hn ?_
    rw [State.setAddr_nodes, List.map_map]
    refine List.map_congr_left fun m _ => ?_
    by_cases hid : m.id = n <;> simp [hid]
  | pages d c r pg hr _ hn hc _ =>
    obtain ⟨n, hnode, hdev⟩ := State.regdev?_eq_some.1 hr
    have hset := State.configuration_setDevice (State.configOk_ids hok).2 hnode
      (d := .regdev c { r with pg := pg }) (by rw [hdev]; rfl) s.diags
    exact State.configuration_of_nodes hc hn (congrArg Prod.snd hset)

/-- Settles O14. -/
theorem stepKeepsTheConfiguration : Obligations.StepKeepsTheConfiguration := by
  intro s t h
  obtain ⟨hok, hform⟩ := stepForm h
  cases hform with
  | idle ht => rw [ht]
  | wire rest req h => exact exec_wire_configuration (s := s.begin rest) hok h
  | host rest op args i hd h => exact exec_host_configuration (s := s.begin rest) hok hd h
  | reserved rest ht => rw [ht]; rfl

/-! ### Every step answers (60_exceptions.md) -/

/-- Every host operation answers a next state: what it refuses it answers `H_BAD` (R300). -/
theorem exec_host_total (hd : decode (.host op args) = .ok i) (s : State) : ∃ t, exec i s = .next t := by
  simp only [decode, decodeHost] at hd
  split at hd <;> cases hd
  · exact ⟨_, rfl⟩
  · simp only [exec, execHSetAddr]; split <;> exact ⟨_, rfl⟩
  · simp only [exec, execHPageConfig]
    split
    · exact ⟨_, rfl⟩
    · split
      · exact ⟨_, rfl⟩
      · split <;> exact ⟨_, rfl⟩
  · simp only [exec, execHSetField]
    split
    · exact ⟨_, rfl⟩
    · split <;> exact ⟨_, rfl⟩
  · simp only [exec, execHGetField]; split <;> exact ⟨_, rfl⟩
  · simp only [exec, execHSetPhys]
    split
    · exact ⟨_, rfl⟩
    · split <;> exact ⟨_, rfl⟩
  · simp only [exec, execHGetPhys]
    split
    · exact ⟨_, rfl⟩
    · split <;> exact ⟨_, rfl⟩

/-- Settles O13: a well-formed configuration is enough. -/
theorem stepIsTotal : Obligations.StepIsTotal := by
  intro s hinv
  have hok := ((State.inv_iff s).1 hinv).1
  cases hp : s.pending with
  | nil => exact ⟨s, step_idle hok hp⟩
  | cons rq rest =>
    rw [step_serves hok hp]
    cases rq with
    | wire req => exact exec_wire_total req _
    | host op args =>
      cases hd : decode (.host op args) with
      | error e => exact ⟨_, serve_undecoded (rq := .host op args) hd _⟩
      | ok i => rw [serve_decoded (rq := .host op args) hd]; exact exec_host_total hd _

/-! ### Host operations but H_RESET (R310, R311) -/

/-- What such a host operation does: no node changes, or one address, or the pages of one REGDEV. -/
inductive HostUpdate (s t : State) : Prop
  | same (hb : t.bus = s.bus) (hn : t.nodes = s.nodes)
  | addr (n : NodeId) (a : BusAddr) (hb : t.bus = s.bus) (hn : t.nodes = (s.setAddr n a).nodes)
  | pages (d : NodeId) (c : RegDevCfg) (r : RegDev) (pg : List Page) (hr : s.regdev? d = some (c, r))
      (hb : t.bus = s.bus) (hn : t.nodes = (s.setRegDev d c { r with pg := pg }).nodes)

theorem hostUpdate (hd : decode (.host op args) = .ok i) (hreset : i ≠ .hReset) (h : exec i s = .next t) :
    HostUpdate s t := by
  simp only [decode, decodeHost] at hd
  split at hd <;> cases hd
  · exact absurd rfl hreset
  · simp only [exec, execHSetAddr] at h
    split at h <;> cases h
    · exact .addr _ _ rfl rfl
    · exact .same rfl rfl
  · simp only [exec, execHPageConfig] at h
    split at h
    · cases h; exact .same rfl rfl
    · rename_i c r hr
      split at h
      · cases h; exact .pages _ c r _ hr rfl rfl
      · split at h <;> cases h
        · exact .pages _ c r _ hr rfl rfl
        · exact .same rfl rfl
  · simp only [exec, execHSetField] at h
    split at h
    · cases h; exact .same rfl rfl
    · rename_i c r pg hr
      split at h <;> cases h
      · exact .same rfl rfl
      · exact .pages _ c r _ (State.regdev?_of_realPage? hr) rfl rfl
  · simp only [exec, execHGetField] at h
    split at h <;> cases h <;> exact .same rfl rfl
  · simp only [exec, execHSetPhys] at h
    split at h
    · cases h; exact .same rfl rfl
    · rename_i c r pg hr
      split at h <;> cases h
      · exact .same rfl rfl
      · exact .pages _ c r _ (State.regdev?_of_realPage? hr) rfl rfl
  · simp only [exec, execHGetPhys] at h
    split at h
    · cases h; exact .same rfl rfl
    · split at h <;> cases h <;> exact .same rfl rfl

theorem HostUpdate.bus_eq (h : HostUpdate s t) : t.bus = s.bus := by
  cases h with
  | same hb _ => exact hb
  | addr _ _ hb _ => exact hb
  | pages _ _ _ _ _ hb _ => exact hb

/-- With distinct ids a node with the id of a REGDEV is that REGDEV. -/
theorem State.dev_of_regdev? (hids : (s.nodes.map Node.id).Nodup) (hr : s.regdev? d = some (c, r)) {n : Node}
    (hn : n ∈ s.nodes) (hid : n.id = d) : n.dev = .regdev c r := by
  obtain ⟨m, hm, hdev⟩ := State.regdev?_eq_some.1 hr
  have := State.node?_of_mem hids hn
  rw [hid, hm] at this
  cases this
  exact hdev

/-- A function of the nodes that reads neither an address nor the pages of a REGDEV is the same after such an operation. -/
theorem HostUpdate.map_nodes {β : Type} {F : Node → β} (h : HostUpdate s t) (hids : (s.nodes.map Node.id).Nodup)
    (haddr : ∀ (n : Node) (a : BusAddr), F { n with addr := a } = F n)
    (hpages : ∀ (n : Node) (c : RegDevCfg) (r : RegDev) (pg : List Page), n.dev = .regdev c r →
      F { n with dev := .regdev c { r with pg := pg } } = F n) : t.nodes.map F = s.nodes.map F := by
  cases h with
  | same _ hn => rw [hn]
  | addr n a _ hn =>
    rw [hn, State.setAddr_nodes, List.map_map]
    refine List.map_congr_left fun m _ => ?_
    by_cases hid : m.id = n
    · simp only [Function.comp, if_pos hid, haddr]
    · simp only [Function.comp, if_neg hid]
  | pages d c r pg hr _ hn =>
    rw [hn, State.setRegDev_nodes, List.map_map]
    refine List.map_congr_left fun m hm => ?_
    by_cases hid : m.id = d
    · have := hpages m c r pg (State.dev_of_regdev? hids hr hm hid)
      simp only [Function.comp, if_pos hid, this]
    · simp only [Function.comp, if_neg hid]

/-- Settles O18. -/
theorem hostPortCannotTouchTheTransaction : Obligations.HostPortCannotTouchTheTransaction := by
  intro op args i s t hok hd hreset h
  have hupd := hostUpdate hd hreset h
  refine ⟨hupd.bus_eq, hupd.map_nodes (State.configOk_ids hok).2 (fun _ _ => rfl) fun n c r pg hdev => ?_⟩
  simp only [hdev]

/-! ### The addressed set (R11, R12) -/

theorem commandAccess_bus {code : Byte} {a : CmdAccess} (h : commandAccess code a s = .next t) : t.bus = s.bus := by
  cases hr : s.regdev? (deviceOf a) with
  | none => rw [commandAccess_noRegDev hr] at h; cases h
  | some cr =>
    cases a with
    | write d data => rw [commandWrite_some (d := d) hr] at h; cases h; rfl
    | read d => rw [commandRead_some (d := d) hr] at h; cases h; rfl

theorem decode_of_encode {fr : Frame} (h : encode i = fr) : decode fr = .ok i := by
  rw [← h]; exact encodedInstructionDecodesToItself i

/-- A START on an open bus changes at most the direction. -/
theorem startRequest_open_bus (hopen : s.bus.isOpen = true) (a : BusAddr) (dir : Direction) :
    ∃ dir', (startRequest a dir s).bus = { s.bus with dir := dir' } := by
  rw [startRequest, if_pos hopen, startOpen]
  split
  · exact ⟨dir, (State.eventAll_shell _ _ { s with bus := { s.bus with dir := dir } }).2.1⟩
  · exact ⟨s.bus.dir, rfl⟩

theorem exec_tx_bus {v : Byte} (h : exec (.tx v) s = .next t) : t.bus = s.bus := by
  simp only [exec, execTx] at h
  split at h <;> cases h
  · exact (State.sendAll_shell v _ s).2.1
  · rfl

theorem exec_rx_bus {v : Byte} (h : exec (.rx v) s = .next t) : t.bus = s.bus := by
  simp only [exec, execRx] at h
  split at h <;> cases h
  · exact (State.recvAll_shell _ s _).2.1
  · rfl

theorem exec_nack_bus {v : Byte} (h : exec (.nack v) s = .next t) : t.bus = s.bus := by
  simp only [exec, execNack] at h
  split at h <;> cases h
  · exact (State.eventAll_shell _ _ s).2.1
  · rfl

/-- Settles O15: a START on an open bus keeps all but the direction, every other instruction left keeps the whole bus. -/
theorem onlyOpeningStartStopAndResetChangeTheAddressedSet :
    Obligations.OnlyOpeningStartStopAndResetChangeTheAddressedSet := by
  intro i s t h hstop hreset hstart
  have ofDir : ∀ dir, t.bus = { s.bus with dir := dir } → t.bus.isOpen = s.bus.isOpen ∧ t.bus.cur = s.bus.cur ∧
      t.bus.curAddr = s.bus.curAddr ∧ t.bus.bcast = s.bus.bcast := by
    intro dir hb; rw [hb]; exact ⟨rfl, rfl, rfl, rfl⟩
  have ofBus : t.bus = s.bus → t.bus.isOpen = s.bus.isOpen ∧ t.bus.cur = s.bus.cur ∧ t.bus.curAddr = s.bus.curAddr ∧
      t.bus.bcast = s.bus.bcast := ofDir s.bus.dir
  cases i with
  | startSend a =>
    cases h
    obtain ⟨dir, hb⟩ := startRequest_open_bus (hstart a (.inl rfl)) a .send
    exact ofDir dir hb
  | startRecv a =>
    cases h
    obtain ⟨dir, hb⟩ := startRequest_open_bus (hstart a (.inr rfl)) a .recv
    exact ofDir dir hb
  | tx v => exact ofBus (exec_tx_bus h)
  | rx v => exact ofBus (exec_rx_bus h)
  | nack v => exact ofBus (exec_nack_bus h)
  | stop x => exact absurd rfl (hstop x)
  | reserved5 | reserved6 | reserved7 => cases h; exact ofBus rfl
  | hReset => exact absurd rfl hreset
  | hSetAddr | hPageConfig | hSetField | hGetField | hSetPhys | hGetPhys =>
    exact ofBus (hostUpdate (decode_of_encode rfl) hreset h).bus_eq
  | _ a => exact ofBus (commandAccess_bus h)

/-! ### Nodes that are not addressed (R53) -/

/-- Settles O16: a wire request is one round over the slaves addressed before it or after it. -/
theorem wireRequestsReachAddressedNodesOnly : Obligations.WireRequestsReachAddressedNodesOnly := by
  intro req s t h id hs ht'
  have hform := wireForm req s t h
  generalize decodeWire req = i at hform
  cases hform with
  | same _ _ hn _ _ => exact State.node?_congr hn id
  | start _ dir ids _ bus hcur _ ht =>
    subst ht
    have hbus : (State.eventAll (startEvent dir) ids { s with bus := bus }).bus = bus :=
      (State.eventAll_shell _ ids { s with bus := bus }).2.1
    have hid : id ∉ ids := by
      rw [State.answer_bus, hbus, ← hcur] at ht'
      exact ht'
    exact State.node?_eventAll (startEvent dir) hid { s with bus := bus }
  | send _ v _ _ ht => subst ht; exact State.node?_sendAll v hs s
  | recv _ _ _ ht => subst ht; exact State.node?_recvAll hs s errByte
  | nack _ _ _ ht => subst ht; exact State.node?_eventAll .nack hs s
  | stop _ _ _ ht => subst ht; exact State.node?_eventAll .finish hs s

end Sys2Proof.Machine
end

section
/-! What requests do to pages: a property that every change of a register model call keeps is kept by the framer's handlers;
with it, what the wire port cannot write (R310), and that a byte request only adds status bits (R25, R52). -/

namespace Sys2Proof.Machine

variable {g : Config} {c : RegDevCfg} {w : Work}

/-! ### The framer's handlers keep what the calls keep -/

namespace PagesClosed

variable {I : List Page → Prop}

theorem rmWrite_any (h : ∀ n, PagesClosed g c n I) (P : List Byte) (hw : I w.dev.pg) : I (Machine.rmWrite g c P w).1.dev.pg :=
  (h P.length).rmWrite P (Nat.sub_le _ _) hw

theorem frClose (h : ∀ n, PagesClosed g c n I) (read : Bool) (hw : I w.dev.pg) :
    I (Machine.frClose g c read w).dev.pg := by
  by_cases hl : w.dev.fr.len = 0
  · rw [frClose_empty read hl]; exact (h 0).rmQuick read hw
  · rw [frClose_payload read hl]; exact rmWrite_any h _ hw

theorem frEvent (h : ∀ n, PagesClosed g c n I) (e : SlaveEvent) (hw : I w.dev.pg) :
    I (Machine.frEvent g c e w).dev.pg := by
  cases e with
  | startSend => simp only [Machine.frEvent, frStartSend]; split <;> exact hw
  | startRecv =>
    simp only [Machine.frEvent, frStartRecv]
    split
    · exact hw
    · split
      · exact hw
      · exact rmWrite_any h _ hw
    all_goals exact hw
  | nack => simp only [Machine.frEvent, frNack]; split <;> exact hw
  | finish =>
    simp only [Machine.frEvent, frFinish, Work.mapFr_pg]
    split
    case h_1 | h_2 | h_3 => exact frClose h _ hw
    all_goals exact hw

theorem frRecv (h : ∀ n, PagesClosed g c n I) (hw : I w.dev.pg) : I (Machine.frRecv g c w).1.dev.pg := by
  unfold Machine.frRecv
  split
  case h_1 | h_2 => exact (h 0).readByteOf _ hw
  all_goals exact hw

end PagesClosed

theorem frSend_pg (v : Byte) (w : Work) : (frSend g v w).dev.pg = w.dev.pg := by
  unfold frSend
  split
  · split <;> rfl
  all_goals rfl

/-! ### What the wire port cannot write (R310) -/

/-- The fields of a page that only the host port writes. -/
def Page.hostFields (p : Page) : Word × Readings × List Byte := (p.flags, p.readings, p.coefficients)

theorem map_modify_of_keeps {α β : Type} {F : α → β} {f : α → α} (hf : ∀ a, F (f a) = F a) (l : List α) (i : Nat) :
    (l.modify i f).map F = l.map F := by
  apply List.ext_getElem?
  intro k
  rw [List.getElem?_map, List.getElem?_map, List.getElem?_modify]
  cases l[k]? with
  | none => rfl
  | some a => by_cases hik : i = k <;> simp [hik, hf]

/-- The class of an entry that writes a live reading. -/
def CmdClass.writesReading : CmdClass → Bool
  | .rww (.reading _) => true
  | _ => false

/-- No entry of the default table writes a live reading. -/
theorem defaultCmdTable_writesReading : ∀ e ∈ defaultCmdTable, CmdClass.writesReading e.cls = false := by decide

theorem Page.hostFields_setWord {f : WordField} (hf : CmdClass.writesReading (.rww f) = false) (p : Page) (v : Word) :
    (p.setWord f v).hostFields = p.hostFields := by
  cases f with
  | limit f => rfl
  | statusWord => rfl
  | reading f => cases hf

theorem Page.hostFields_setByte (p : Page) (f : ByteField) (v : Byte) : (p.setByte f v).hostFields = p.hostFields := by
  simp only [Page.hostFields, Page.setByte_flags, Page.setByte_readings, Page.setByte_coefficients]

theorem Page.hostFields_evaluateIfOn (p : Page) : p.evaluateIfOn.hostFields = p.hostFields := by
  simp only [Page.hostFields, Page.evaluateIfOn_flags, Page.evaluateIfOn_readings, Page.evaluateIfOn_coefficients]

theorem Device.standard_iff (c : RegDevCfg) (r : RegDev) :
    (Device.regdev c r).standard = true ↔
      (c.hookWrite = none ∧ c.hookRead = none ∧ c.hookQuick = none) ∧ c.cmdTable = defaultCmdTable := by
  simp only [Device.standard, Device.defaultHooks, Bool.and_eq_true, decide_eq_true_eq, and_assoc]

theorem Device.standard_of_cfg {a b : Device} (h : b.cfg = a.cfg) : b.standard = a.standard := by
  cases a <;> cases b <;> cases h <;> rfl

/-- Every change of a call on a standard device keeps these fields. -/
theorem pagesClosed_hostFields {r : RegDev} (hstd : (Device.regdev c r).standard = true) (pages : List Page) (n : Nat) :
    PagesClosed g c n (fun pg => pg.map Page.hostFields = pages.map Page.hostFields) := by
  obtain ⟨⟨hwrite, hread, hquick⟩, htable⟩ := (Device.standard_iff c r).1 hstd
  have keeps : ∀ {f : Page → Page}, (∀ p, (f p).hostFields = p.hostFields) → ∀ (pg : List Page) (i : Nat),
      pg.map Page.hostFields = pages.map Page.hostFields →
      (pg.modify i f).map Page.hostFields = pages.map Page.hostFields :=
    fun hf pg i h => (map_modify_of_keeps hf pg i).trans h
  have keepsAll : ∀ {f : Page → Page}, (∀ p, (f p).hostFields = p.hostFields) → ∀ pg : List Page,
      pg.map Page.hostFields = pages.map Page.hostFields → (pg.map f).map Page.hostFields = pages.map Page.hostFields := by
    intro f hf pg h
    rw [List.map_map, ← h]
    exact List.map_congr_left fun p _ => hf p
  refine ⟨?raise, ?clear, ?evaluate, ?byte, ?word, ?summary, ?string, ?hook⟩
  case raise => exact fun pg i => keeps (f := Page.raiseCml) (fun _ => rfl) pg i
  case clear => exact keepsAll fun _ => rfl
  case evaluate => exact keepsAll Page.hostFields_evaluateIfOn
  case byte => exact fun pg i e f v _ _ => keeps (fun p => p.hostFields_setByte f v) pg i
  case word =>
    intro pg i e f v he hcls
    rw [htable] at he
    have hno := defaultCmdTable_writesReading e he
    rw [hcls] at hno
    exact keeps (fun p => Page.hostFields_setWord hno p v) pg i
  case summary => exact fun pg i v => keeps (f := fun p => p.setWord .statusWord v) (fun _ => rfl) pg i
  case string => exact fun pg i f v _ => keeps (f := fun p => p.setString f v) (fun _ => rfl) pg i
  case hook =>
    rintro pg rd pg' (h | h | h)
    · exact absurd hwrite h
    · exact absurd hread h
    · exact absurd hquick h

/-- The node keeps id, address and parameters, and a standard one the fields that only the host port writes. -/
def Node.KeepsHostFields (n n' : Node) : Prop :=
  n'.id = n.id ∧ n'.addr = n.addr ∧ n'.dev.cfg = n.dev.cfg ∧
    (n.dev.standard = true → n'.dev.pages.map Page.hostFields = n.dev.pages.map Page.hostFields)

theorem Node.keepsHostFields_rel : NodeRel Node.KeepsHostFields := by
  refine ⟨fun n => ⟨rfl, rfl, rfl, fun _ => rfl⟩, ?_, fun _ _ h => h.1⟩
  rintro a b c ⟨hid, haddr, hcfg, hpages⟩ ⟨hid', haddr', hcfg', hpages'⟩
  refine ⟨hid'.trans hid, haddr'.trans haddr, hcfg'.trans hcfg, fun hstd => ?_⟩
  exact (hpages' (by rw [Device.standard_of_cfg hcfg]; exact hstd)).trans (hpages hstd)

theorem Device.onEvent_hostFields (g : Config) (e : SlaveEvent) (ds : List Diag) {dev : Device} (h : dev.standard = true) :
    (dev.onEvent g e ds).1.pages.map Page.hostFields = dev.pages.map Page.hostFields := by
  cases dev with
  | stub | mux => rfl
  | regdev c r => exact PagesClosed.frEvent (w := { dev := r, diags := ds }) (pagesClosed_hostFields h r.pg) e rfl

theorem Device.onSend_hostFields (g : Config) (v : Byte) (ds : List Diag) (dev : Device) :
    (dev.onSend g v ds).1.pages.map Page.hostFields = dev.pages.map Page.hostFields := by
  cases dev with
  | stub | mux => rfl
  | regdev c r => exact congrArg (List.map Page.hostFields) (frSend_pg v { dev := r, diags := ds })

theorem Device.onRecv_hostFields (g : Config) (ds : List Diag) {dev : Device} (h : dev.standard = true) :
    (dev.onRecv g ds).1.1.pages.map Page.hostFields = dev.pages.map Page.hostFields := by
  cases dev with
  | stub | mux => rfl
  | regdev c r => exact PagesClosed.frRecv (w := { dev := r, diags := ds }) (pagesClosed_hostFields h r.pg) rfl

/-- Settles O17: every call of a standard device keeps these fields, so a wire request does. -/
theorem wirePortCannotWriteHostFields : Obligations.WirePortCannotWriteHostFields := by
  intro req s t hok hstd h
  have hrel := Node.keepsHostFields_rel.wire (s := s)
    (fun e n ds => ⟨rfl, rfl, n.dev.onEvent_cfg _ e ds, n.dev.onEvent_hostFields _ e ds⟩)
    (fun v n ds => ⟨rfl, rfl, n.dev.onSend_cfg _ v ds, fun _ => n.dev.onSend_hostFields _ v ds⟩)
    (fun n ds => ⟨rfl, rfl, n.dev.onRecv_cfg _ ds, n.dev.onRecv_hostFields _ ds⟩) req t (State.configOk_ids hok).2 h
  have hall : List.Forall₂ (fun n n' => n.dev.standard = true ∧ n.KeepsHostFields n') s.nodes t.nodes :=
    (List.forall₂_and_left (p := fun n : Node => n.dev.standard = true) _ _).2 ⟨hstd, hrel⟩
  refine map_eq_of_forall₂ ?_ hall
  rintro n n' ⟨hn, hid, haddr, -, hpages⟩
  exact congrArg₂ Prod.mk hid (congrArg₂ Prod.mk haddr (hpages hn))

/-! ### A byte request only adds status bits (R25, R52) -/

theorem grows_refl (pg : List Page) : List.Forall₂ Page.Grows pg pg := List.forall₂_same.2 fun p _ => Page.Grows.refl p

theorem grows_modify_raiseCml (pg : List Page) (i : Nat) : List.Forall₂ Page.Grows pg (pg.modify i Page.raiseCml) := by
  refine List.forall₂_iff_get.2 ⟨by simp, fun k hk hk' => ?_⟩
  simp only [List.get_eq_getElem, List.getElem_modify]
  split
  · exact Page.grows_raiseCml _
  · exact Page.Grows.refl _

theorem readIndex_grows (w : Work) : List.Forall₂ Page.Grows w.dev.pg (readIndex c w).1.dev.pg := by
  unfold readIndex
  split
  · exact grows_modify_raiseCml _ _
  · split
    · exact grows_modify_raiseCml _ _
    · exact grows_refl _

theorem dispatchRead_pg (hhook : c.hookRead = none) (code : Byte) (idx : Nat) (w : Work) :
    (dispatchRead g c code idx w).1.dev.pg = w.dev.pg := by
  unfold dispatchRead
  split
  · rw [hookRead_default hhook, stageBytes_pg]
  · rw [readClass_pg]

/-- A read call with the default hook raises the fault of the page index at most. -/
theorem readByteOf_grows (hhook : c.hookRead = none) (code : Byte) (w : Work) :
    List.Forall₂ Page.Grows w.dev.pg (readByteOf g c code w).1.dev.pg := by
  have hidx := readIndex_grows (c := c) w
  have hdisp : ∀ idx, List.Forall₂ Page.Grows w.dev.pg (dispatchRead g c code idx (readIndex c w).1).1.dev.pg := by
    intro idx; rw [dispatchRead_pg hhook]; exact hidx
  unfold readByteOf readFresh
  split
  · rw [pop_pg]; exact grows_refl _
  · split
    · dsimp only
      split
      · exact hidx
      · split
        · exact hdisp _
        · rw [pop_pg]; exact hdisp _
    · exact grows_refl _

theorem frRecv_grows (hhook : c.hookRead = none) (w : Work) :
    List.Forall₂ Page.Grows w.dev.pg (frRecv g c w).1.dev.pg := by
  unfold frRecv
  split
  case h_1 | h_2 => exact readByteOf_grows hhook _ w
  all_goals exact grows_refl _

/-- The node keeps id and parameters, and with default hooks its pages gain status bits at most. -/
def Node.Grows (n n' : Node) : Prop :=
  n'.id = n.id ∧ n'.dev.cfg = n.dev.cfg ∧
    (n.dev.defaultHooks = true → List.Forall₂ Page.Grows n.dev.pages n'.dev.pages)

theorem Device.defaultHooks_of_cfg {a b : Device} (h : b.cfg = a.cfg) : b.defaultHooks = a.defaultHooks := by
  cases a <;> cases b <;> cases h <;> rfl

theorem grows_trans : ∀ {a b c : List Page}, List.Forall₂ Page.Grows a b → List.Forall₂ Page.Grows b c →
    List.Forall₂ Page.Grows a c
  | _, _, _, .nil, .nil => .nil
  | _, _, _, .cons h t, .cons h' t' => .cons (h.trans h') (grows_trans t t')

theorem Node.grows_rel : NodeRel Node.Grows := by
  refine ⟨fun n => ⟨rfl, rfl, fun _ => grows_refl _⟩, ?_, fun _ _ h => h.1⟩
  rintro a b c ⟨hid, hcfg, hpages⟩ ⟨hid', hcfg', hpages'⟩
  refine ⟨hid'.trans hid, hcfg'.trans hcfg, fun hdef => ?_⟩
  exact grows_trans (hpages hdef) (hpages' (by rw [Device.defaultHooks_of_cfg hcfg]; exact hdef))

theorem Device.onRecv_grows (g : Config) (ds : List Diag) {dev : Device} (h : dev.defaultHooks = true) :
    List.Forall₂ Page.Grows dev.pages (dev.onRecv g ds).1.1.pages := by
  cases dev with
  | stub | mux => exact .nil
  | regdev c r =>
    simp only [Device.defaultHooks, Bool.and_eq_true, decide_eq_true_eq] at h
    exact frRecv_grows h.1.2 { dev := r, diags := ds }

/-- Settles O51. -/
theorem byteRequestNeverClearsStatus : Obligations.ByteRequestNeverClearsStatus := by
  intro s t x hok hhooks h
  have hrel : List.Forall₂ Node.Grows s.nodes t.nodes := by
    simp only [exec, execRx] at h
    split at h <;> cases h
    · exact Node.grows_rel.recvAll s.cfg (fun n ds => ⟨rfl, n.dev.onRecv_cfg _ ds, n.dev.onRecv_grows _ ds⟩) _ s rfl
        (State.configOk_ids hok).2 errByte
    · exact Node.grows_rel.refls _
  have hall : List.Forall₂ (fun n n' => n.dev.defaultHooks = true ∧ n.Grows n') s.nodes t.nodes :=
    (List.forall₂_and_left (p := fun n : Node => n.dev.defaultHooks = true) _ _).2 ⟨hhooks, hrel⟩
  refine hall.imp ?_
  rintro n n' ⟨hn, hid, -, hpages⟩
  exact ⟨hid, hpages hn⟩

end Sys2Proof.Machine
end

section
/-! Rounds over the addressed slaves under the invariant: each request on an open bus and the opening START in closed form
(R84 to R90), and from them that every step keeps the invariant (R105). -/

namespace Sys2Proof.Machine

variable {s t : State} {i : Instr}

/-! ### What the invariant says -/

theorem State.inv_configOk (h : s.inv = true) : s.configOk = true := ((State.inv_iff s).1 h).1

theorem State.inv_ids (h : s.inv = true) : (s.nodes.map Node.id).Nodup := (State.configOk_ids (State.inv_configOk h)).2

theorem State.inv_cur_nodup (h : s.inv = true) : s.bus.cur.Nodup := by
  obtain ⟨-, hbus, -⟩ := (State.inv_iff s).1 h
  exact ((BusState.wf_iff _).1 hbus).2.1

theorem State.inv_cur_mem (h : s.inv = true) : ∀ id ∈ s.bus.cur, ∃ n ∈ s.nodes, n.id = id := by
  obtain ⟨-, -, -, hcur, -⟩ := (State.inv_iff s).1 h
  exact hcur

theorem State.inv_atRest (h : s.inv = true) : ∀ n ∈ s.nodes, n.id ∈ s.bus.cur ∨ n.dev.atRest = true := by
  obtain ⟨-, -, -, -, hrest⟩ := (State.inv_iff s).1 h
  exact hrest

/-- The bus of a closed transaction is idle, so no slave is addressed. -/
theorem State.inv_idle (h : s.inv = true) (hclosed : s.bus.isOpen = false) : s.bus = BusState.idle := by
  obtain ⟨-, hbus, -⟩ := (State.inv_iff s).1 h
  exact ((BusState.wf_iff _).1 hbus).2.2 hclosed

/-! ### The rounds of an open bus -/

theorem State.sendAll_eq_servedEach (h : s.inv = true) (v : Byte) :
    State.sendAll v s.bus.cur s = s.servedEach (Device.givenByte s.cfg v) := by
  rw [State.sendAll_served v s.cfg _ s rfl (State.inv_ids h),
    State.foldl_serveOne _ _ _ (State.inv_cur_nodup h) (State.inv_ids h)]
  rfl

theorem State.eventAll_eq_servedEach (h : s.inv = true) (e : SlaveEvent) (bus : BusState) :
    State.eventAll e s.bus.cur { s with bus := bus } =
      { s.servedEach (Device.notified s.cfg e) with bus := bus } := by
  have hids := State.inv_ids h
  rw [State.eventAll_served e s.cfg s.bus.cur { s with bus := bus } rfl hids,
    State.foldl_serveOne _ s.bus.cur { s with bus := bus } (State.inv_cur_nodup h) hids]
  rfl

theorem State.recvAll_eq_servedEach (h : s.inv = true) (acc : Byte) :
    State.recvAll s.bus.cur s acc =
      (s.servedEach fun dev => (dev.askedByte s.cfg).1, (s.bus.cur.map s.askedOf).foldl (· &&& ·) acc) := by
  rw [State.recvAll_served s.cfg _ s acc rfl (State.inv_cur_nodup h) (State.inv_ids h),
    State.foldl_serveOne _ _ _ (State.inv_cur_nodup h) (State.inv_ids h)]
  rfl

theorem exec_tx_served (h : s.inv = true) (hopen : s.bus.isOpen = true) (v : Byte) :
    exec (.tx v) s = .next ((s.servedEach (Device.givenByte s.cfg v)).answer .ack 0) := by
  rw [← State.sendAll_eq_servedEach h]
  exact if_pos hopen

theorem exec_rx_served (h : s.inv = true) (hopen : s.bus.isOpen = true) (x : Byte) :
    exec (.rx x) s = .next ((s.servedEach fun dev => (dev.askedByte s.cfg).1).answer .ack
      ((s.bus.cur.map s.askedOf).foldl (· &&& ·) 0xFF)) := by
  have hrecv := State.recvAll_eq_servedEach h errByte
  simp only [exec, execRx, if_pos hopen, hrecv]
  rfl

theorem exec_nack_served (h : s.inv = true) (hopen : s.bus.isOpen = true) (x : Byte) :
    exec (.nack x) s = .next ((s.servedEach (Device.notified s.cfg .nack)).answer .ack 0) := by
  have hround := State.eventAll_eq_servedEach h .nack s.bus
  simp only [exec, execNack, if_pos hopen]
  exact congrArg (fun u : State => Host.Outcome.next (u.answer .ack 0)) hround

theorem startRequest_served (h : s.inv = true) (hopen : s.bus.isOpen = true) (dir : Direction) :
    startRequest s.bus.curAddr dir s =
      ({ s.servedEach (Device.notified s.cfg (startEvent dir)) with bus := { s.bus with dir := dir } } : State).answer
        .ack 0 := by
  rw [startRequest, if_pos hopen, startOpen, if_pos rfl, State.eventAll_eq_servedEach h]

theorem exec_stop_served (h : s.inv = true) (hopen : s.bus.isOpen = true) (x : Byte) :
    exec (.stop x) s =
      .next (({ s.servedEach (Device.notified s.cfg .finish) with bus := BusState.idle } : State).answer .ack 0) := by
  have hround := State.eventAll_eq_servedEach h .finish s.bus
  simp only [exec, execStop, if_pos hopen]
  exact congrArg (fun u : State => Host.Outcome.next (({ u with bus := BusState.idle } : State).answer .ack 0)) hround

/-! ### Rounds over STUBs and MUXes only -/

theorem Device.givenByte_of_not_regdev (g : Config) (v : Byte) {dev : Device} (h : dev.isRegDev = false) :
    dev.givenByte g v = (dev.accepting v, []) := by
  cases dev with
  | stub | mux => rfl
  | regdev => cases h

theorem Device.notified_of_not_regdev (g : Config) (e : SlaveEvent) {dev : Device} (h : dev.isRegDev = false) :
    dev.notified g e = (dev, []) := by
  cases dev with
  | stub | mux => rfl
  | regdev => cases h

theorem Device.askedByte_of_not_regdev (g : Config) {dev : Device} (h : dev.isRegDev = false) :
    dev.askedByte g = ((dev, []), dev.suppliedByte) := by
  cases dev with
  | stub | mux => rfl
  | regdev => cases h

/-- A round of calls without diagnostics changes the devices alone. -/
theorem State.servedEach_of_silent {f : Device → Device × List Diag} {F : Device → Device}
    (h : ∀ n ∈ s.nodes, n.id ∈ s.bus.cur → f n.dev = (F n.dev, [])) :
    s.servedEach f = { s with nodes := s.nodes.map fun n => if n.id ∈ s.bus.cur then { n with dev := F n.dev } else n } := by
  have hnodes : (s.nodes.map fun n => if n.id ∈ s.bus.cur then { n with dev := (f n.dev).1 } else n) =
      s.nodes.map fun n => if n.id ∈ s.bus.cur then { n with dev := F n.dev } else n := by
    refine List.map_congr_left fun n hn => ?_
    by_cases hid : n.id ∈ s.bus.cur
    · rw [if_pos hid, if_pos hid, h n hn hid]
    · rw [if_neg hid, if_neg hid]
  have hdiags : (s.bus.cur.flatMap fun id => ((s.node? id).map fun n => (f n.dev).2).getD []) = [] := by
    refine List.flatMap_eq_nil_iff.2 fun id hid => ?_
    cases hnode : s.node? id with
    | none => rfl
    | some n =>
      have hn := h n (State.node?_mem hnode) (by rw [State.node?_id hnode]; exact hid)
      rw [Option.map_some, Option.getD_some, hn]
  rw [State.servedEach, hnodes, hdiags, List.append_nil]

/-- A round of calls without any effect. -/
theorem State.servedEach_of_idle {f : Device → Device × List Diag}
    (h : ∀ n ∈ s.nodes, n.id ∈ s.bus.cur → f n.dev = (n.dev, [])) : s.servedEach f = s := by
  rw [State.servedEach_of_silent (F := fun dev => dev) h]
  simp

/-- The addressed nodes in the order of the node list are those of `bus.cur`. -/
theorem State.addressed_perm (h : s.inv = true) :
    ((s.nodes.filter fun n => decide (n.id ∈ s.bus.cur)).map Node.id).Perm s.bus.cur := by
  refine (List.perm_ext_iff_of_nodup ?_ (State.inv_cur_nodup h)).2 fun id => ?_
  · exact (List.filter_sublist.map Node.id).nodup (State.inv_ids h)
  · simp only [List.mem_map, List.mem_filter, decide_eq_true_eq]
    constructor
    · rintro ⟨n, ⟨-, hcur⟩, rfl⟩
      exact hcur
    · intro hcur
      obtain ⟨n, hn, rfl⟩ := State.inv_cur_mem h id hcur
      exact ⟨n, ⟨hn, hcur⟩, rfl⟩

/-- The AND of the answered bytes does not depend on the order in which the slaves are asked. -/
theorem State.foldl_askedOf (h : s.inv = true)
    (hstub : ∀ n ∈ s.nodes, n.id ∈ s.bus.cur → n.dev.isRegDev = false) :
    (s.bus.cur.map s.askedOf).foldl (· &&& ·) (0xFF : Byte) =
      ((s.nodes.filter fun n => decide (n.id ∈ s.bus.cur)).map fun n => n.dev.suppliedByte).foldl (· &&& ·) 0xFF := by
  have hbytes : ((s.nodes.filter fun n => decide (n.id ∈ s.bus.cur)).map Node.id).map s.askedOf =
      (s.nodes.filter fun n => decide (n.id ∈ s.bus.cur)).map fun n => n.dev.suppliedByte := by
    rw [List.map_map]
    refine List.map_congr_left fun n hn => ?_
    obtain ⟨hmem, hcur⟩ := List.mem_filter.1 hn
    rw [Function.comp, State.askedOf, State.node?_of_mem (State.inv_ids h) hmem, Option.map_some, Option.getD_some,
      Device.askedByte_of_not_regdev _ (hstub n hmem (by simpa using hcur))]
  rw [← hbytes]
  exact (((State.addressed_perm h).map s.askedOf).symm).foldl_op_eq

/-- Settles O31: the closed form of each round; for STUBs and MUXes the calls are silent, and only a byte sent changes them. -/
theorem addressedSlavesAreServedInOrder : Obligations.AddressedSlavesAreServedInOrder := by
  intro s v x h hopen
  have hsend := exec_tx_served h hopen v
  have hrecv := exec_rx_served h hopen x
  have hnack := exec_nack_served h hopen x
  have hstart := startRequest_served h hopen
  have hstop := exec_stop_served h hopen x
  refine ⟨⟨hsend, hrecv, hnack, congrArg Host.Outcome.next (hstart .send), congrArg Host.Outcome.next (hstart .recv), hstop⟩,
    fun hstub => ?_⟩
  have hgiven := State.servedEach_of_silent fun n hn hid => Device.givenByte_of_not_regdev s.cfg v (hstub n hn hid)
  have hasked := State.servedEach_of_idle (f := fun dev => (dev.askedByte s.cfg).1) fun n hn hid =>
    congrArg Prod.fst (Device.askedByte_of_not_regdev s.cfg (hstub n hn hid))
  have hnotified : ∀ e, s.servedEach (Device.notified s.cfg e) = s := fun e =>
    State.servedEach_of_idle fun n hn hid => Device.notified_of_not_regdev s.cfg e (hstub n hn hid)
  rw [hgiven] at hsend
  rw [hasked, State.foldl_askedOf h hstub] at hrecv
  simp only [hnotified] at hnack hstart hstop
  exact ⟨hsend, hrecv, hnack, congrArg Host.Outcome.next (hstart .send), congrArg Host.Outcome.next (hstart .recv), hstop⟩

/-! ### The opening START (R84, R121) -/

/-- A REGDEV with its framer in a mode, any other device as it is. -/
def Device.inMode (m : FrMode) : Device → Device
  | .stub c latch => .stub c latch
  | .mux control => .mux control
  | .regdev c r => .regdev c { r with fr := { r.fr with mode := m } }

/-- The mode a START of a direction enters from IDLE (R121). -/
def startMode : Direction → FrMode
  | .send => .write
  | .recv => .recvOne

theorem frEvent_start_idle {g : Config} {c : RegDevCfg} (dir : Direction) {w : Work} (h : w.dev.fr.mode = .idle) :
    frEvent g c (startEvent dir) w = w.setMode (startMode dir) := by
  cases dir with
  | send => exact frStartSend_idle h
  | recv => exact frStartRecv_idle h

/-- A device at rest follows an opening START without a diagnostic. -/
theorem Device.onStart_of_atRest (g : Config) (dir : Direction) (ds : List Diag) {dev : Device} (h : dev.atRest = true) :
    (if dev.caps.event then dev.onEvent g (startEvent dir) ds else (dev, ds)) = (dev.inMode (startMode dir), ds) := by
  cases dev with
  | stub c latch => simp only [Device.onEvent, Device.inMode, ite_self]
  | mux control => rfl
  | regdev c r =>
    simp only [Device.atRest, Bool.and_eq_true, decide_eq_true_eq] at h
    simp only [Device.caps, if_true, Device.onEvent, Device.inMode]
    rw [frEvent_start_idle dir h.1]
    rfl

theorem State.addressed_nodup (hok : s.configOk = true) (a : BusAddr) : (s.addressed a).Nodup := by
  obtain ⟨hids, hnodup⟩ := State.configOk_ids hok
  rw [hids] at hnodup
  exact (s.addressed_sublist a).nodup hnodup

/-- Every slave found has a record. -/
theorem State.addressed_mem (hok : s.configOk = true) (a : BusAddr) :
    ∀ id ∈ s.addressed a, ∃ n ∈ s.nodes, n.id = id := by
  intro id hid
  have := (s.addressed_sublist a).subset hid
  rw [← (State.configOk_ids hok).1] at this
  exact List.mem_map.1 this

theorem State.atRest_of_closed (h : s.inv = true) (hclosed : s.bus.isOpen = false) :
    ∀ n ∈ s.nodes, n.dev.atRest = true := by
  intro n hn
  rcases State.inv_atRest h n hn with hcur | hrest
  · rw [State.inv_idle h hclosed] at hcur
    cases hcur
  · exact hrest

/-- The round of an opening START: every REGDEV found enters its mode. -/
theorem State.eventAll_start (h : s.inv = true) (hclosed : s.bus.isOpen = false) (a : BusAddr) (dir : Direction)
    (bus : BusState) :
    State.eventAll (startEvent dir) (s.addressed a) { s with bus := bus } =
      { s with
        bus := bus
        nodes := s.nodes.map fun n =>
          if n.id ∈ s.addressed a then { n with dev := n.dev.inMode (startMode dir) } else n } := by
  have hids := State.inv_ids h
  exact State.eventAll_map (startEvent dir) (Device.inMode (startMode dir)) (s.addressed a) { s with bus := bus }
    (State.addressed_nodup (State.inv_configOk h) a) hids
    fun n hn _ ds => Device.onStart_of_atRest s.cfg dir ds (State.atRest_of_closed h hclosed n hn)

/-- The bus a claimed START opens (R84). -/
def State.openedBus (s : State) (a : BusAddr) (dir : Direction) : BusState :=
  { isOpen := true, cur := s.addressed a, curAddr := a, bcast := decide (a = s.cfg.bcastAddr), dir := dir }

theorem startRequest_claimed (h : s.inv = true) (hclosed : s.bus.isOpen = false) {a : BusAddr}
    (hfound : s.addressed a ≠ []) (dir : Direction) :
    startRequest a dir s =
      ({ s with
        bus := s.openedBus a dir
        nodes := s.nodes.map fun n =>
          if n.id ∈ s.addressed a then { n with dev := n.dev.inMode (startMode dir) } else n } : State).answer .ack 0 := by
  rw [startRequest, if_neg (by simp [hclosed]), startFresh]
  simp only [if_neg hfound]
  rw [State.openedBus, State.eventAll_start h hclosed]

/-- Settles O20. -/
theorem claimedStartOpensTheTransaction : Obligations.ClaimedStartOpensTheTransaction := by
  intro s a dir h hclosed hfound
  have hexec : exec (match dir with | .send => .startSend a | .recv => .startRecv a) s = .next (startRequest a dir s) := by
    cases dir <;> rfl
  refine ⟨_, hexec, ?_⟩
  rw [startRequest_claimed h hclosed hfound]
  refine ⟨rfl, rfl, rfl, rfl, rfl, List.map_congr_left fun n _ => ?_⟩
  by_cases hid : n.id ∈ s.addressed a
  · rw [if_pos hid]
    cases hdev : n.dev <;> simp only [Device.inMode, if_pos hid]
    cases dir <;> rfl
  · rw [if_neg hid]
    obtain ⟨id, addr0, addr, dev⟩ := n
    cases dev <;> simp only [if_neg hid]

end Sys2Proof.Machine
end

section
/-! Every step keeps the invariant (R105). -/

namespace Sys2Proof.Machine

variable {g : Config} {s t : State} {i : Instr} {op : BitVec 4} {args : HostArgs}

/-- A change of the nodes one by one keeps the invariant if it keeps ids and widths, the bus after it is well-formed and
addresses known nodes, and a node not addressed after it is left at rest. -/
theorem State.inv_of_map {G : Node → Node} (h : s.inv = true) (hcfg : t.configuration = s.configuration)
    (hnodes : t.nodes = s.nodes.map G) (hbus : t.bus.wf = true) (hid : ∀ n, (G n).id = n.id)
    (hwf : ∀ n ∈ s.nodes, n.dev.wf s.cfg = true → (G n).dev.wf s.cfg = true)
    (hcur : ∀ id ∈ t.bus.cur, ∃ n ∈ s.nodes, n.id = id)
    (hrest : ∀ n ∈ s.nodes, n.id ∉ t.bus.cur → (n.id ∈ s.bus.cur ∨ n.dev.atRest = true) → (G n).dev.atRest = true) :
    t.inv = true := by
  obtain ⟨hok, -, hdev, -, hatRest⟩ := (State.inv_iff s).1 h
  have hg : t.cfg = s.cfg := congrArg Prod.fst hcfg
  refine (State.inv_iff t).2 ⟨(State.configOk_congr hcfg).trans hok, hbus, ?_, ?_, ?_⟩
  · rw [hnodes, hg]
    intro m hm
    obtain ⟨n, hn, rfl⟩ := List.mem_map.1 hm
    exact hwf n hn (hdev n hn)
  · intro id hidcur
    obtain ⟨n, hn, rfl⟩ := hcur id hidcur
    exact ⟨G n, by rw [hnodes]; exact List.mem_map_of_mem hn, hid n⟩
  · rw [hnodes]
    intro m hm
    obtain ⟨n, hn, rfl⟩ := List.mem_map.1 hm
    by_cases hc : n.id ∈ t.bus.cur
    · exact .inl (by rw [hid]; exact hc)
    · exact .inr (hrest n hn hc (hatRest n hn))

/-- Without a change of nodes, configuration and bus the invariant stays. -/
theorem State.inv_of_same (h : s.inv = true) (hn : t.nodes = s.nodes) (hc : t.cfg = s.cfg) (hb : t.bus = s.bus) :
    t.inv = true := by
  rw [State.inv_iff, State.configOk, hn, hc, hb]
  exact (State.inv_iff s).1 h

/-! ### What the calls of a round keep -/

theorem Device.wf_notified (e : SlaveEvent) {dev : Device} (h : dev.wf g = true) : (dev.notified g e).1.wf g = true := by
  cases dev with
  | stub | mux => rfl
  | regdev c r => exact RegDev.wf_frEvent (w := { dev := r, diags := [] }) e h

theorem Device.wf_givenByte (v : Byte) {dev : Device} (h : dev.wf g = true) : (dev.givenByte g v).1.wf g = true := by
  cases dev with
  | stub | mux => rfl
  | regdev c r => exact RegDev.wf_frSend (w := { dev := r, diags := [] }) v h

theorem Device.wf_askedByte {dev : Device} (h : dev.wf g = true) : (dev.askedByte g).1.1.wf g = true := by
  cases dev with
  | stub | mux => rfl
  | regdev c r => exact RegDev.wf_frRecv (w := { dev := r, diags := [] }) h

/-- FINISH leaves every device at rest (R130). -/
theorem Device.atRest_finish (g : Config) (dev : Device) : (dev.notified g .finish).1.atRest = true := by
  cases dev <;> rfl

/-- A device at rest may enter either mode of an opening START. -/
theorem Device.wf_inMode (dir : Direction) {dev : Device} (hrest : dev.atRest = true) (h : dev.wf g = true) :
    (dev.inMode (startMode dir)).wf g = true := by
  cases dev with
  | stub | mux => rfl
  | regdev c r =>
    simp only [Device.atRest, Bool.and_eq_true, decide_eq_true_eq] at hrest
    refine RegDev.wf_mapFr (w := { dev := r, diags := [] }) (fun fr => { fr with mode := startMode dir }) ?_ h
    have hfr := RegDev.wf_fr (w := { dev := r, diags := [] }) h
    cases dir with
    | send => exact Framer.wf_setMode hfr .write (.inl rfl)
    | recv => exact Framer.wf_setMode hfr .recvOne (.inr (.inr (.inr (.inl ⟨rfl, hrest.2⟩))))

theorem BusState.wf_setDir {b : BusState} (h : b.wf = true) (hopen : b.isOpen = true) (dir : Direction) :
    ({ b with dir := dir } : BusState).wf = true := by
  obtain ⟨hcur, hnodup, -⟩ := (BusState.wf_iff b).1 h
  exact (BusState.wf_iff _).2 ⟨hcur, hnodup, fun hclosed => by simp [hopen] at hclosed⟩

theorem BusState.wf_idle : BusState.idle.wf = true := rfl

/-! ### Rounds keep the invariant -/

/-- A round over the addressed slaves whose calls keep the widths, the addressed set staying. -/
theorem State.inv_of_round {f : Device → Device × List Diag} (h : s.inv = true)
    (hcfg : t.configuration = s.configuration) (hnodes : t.nodes = (s.servedEach f).nodes) (hbus : t.bus.wf = true)
    (hcur : t.bus.cur = s.bus.cur) (hf : ∀ dev : Device, dev.wf s.cfg = true → (f dev).1.wf s.cfg = true) :
    t.inv = true := by
  refine State.inv_of_map h hcfg hnodes hbus (fun n => ?_) (fun n _ hn => ?_) ?_ fun n _ hn hrest => ?_
  · split <;> rfl
  · split
    · exact hf n.dev hn
    · exact hn
  · rw [hcur]; exact State.inv_cur_mem h
  · rw [hcur] at hn
    rw [if_neg hn]
    exact hrest.resolve_left hn

theorem State.inv_of_stop (h : s.inv = true) (hcfg : t.configuration = s.configuration)
    (hnodes : t.nodes = (s.servedEach (Device.notified s.cfg .finish)).nodes) (hbus : t.bus = BusState.idle) :
    t.inv = true := by
  refine State.inv_of_map h hcfg hnodes (by rw [hbus]; rfl) (fun n => ?_) (fun n _ hn => ?_) ?_ fun n _ _ hrest => ?_
  · split <;> rfl
  · split
    · exact Device.wf_notified .finish hn
    · exact hn
  · rw [hbus]; exact fun _ hid => absurd hid List.not_mem_nil
  · split
    next hid => exact Device.atRest_finish s.cfg n.dev
    next hid => exact hrest.resolve_left hid

theorem State.inv_of_opening (h : s.inv = true) (hclosed : s.bus.isOpen = false) {a : BusAddr} {dir : Direction}
    (hfound : s.addressed a ≠ []) (hcfg : t.configuration = s.configuration) (hbus : t.bus = s.openedBus a dir)
    (hnodes : t.nodes = s.nodes.map fun n =>
      if n.id ∈ s.addressed a then { n with dev := n.dev.inMode (startMode dir) } else n) : t.inv = true := by
  have hok := State.inv_configOk h
  have hrest := State.atRest_of_closed h hclosed
  refine State.inv_of_map h hcfg hnodes ?_ (fun n => ?_) (fun n hn hwf => ?_) ?_ fun n hn hid _ => ?_
  · rw [hbus]
    exact (BusState.wf_iff _).2 ⟨⟨fun _ => hfound, fun _ => rfl⟩, State.addressed_nodup hok a, fun hc => by cases hc⟩
  · split <;> rfl
  · split
    · exact Device.wf_inMode dir (hrest n hn) hwf
    · exact hwf
  · rw [hbus]; exact State.addressed_mem hok a
  · have hnot : n.id ∉ s.addressed a := by rw [hbus] at hid; exact hid
    rw [if_neg hnot]
    exact hrest n hn

/-- A wire request keeps the invariant. -/
theorem exec_wire_inv {req : BitVec 11} (h : s.inv = true) (hexec : exec (decodeWire req) s = .next t) : t.inv = true := by
  have hcfg := exec_wire_configuration (State.inv_configOk h) hexec
  have hwf : s.bus.wf = true := ((State.inv_iff s).1 h).2.1
  have hform := wireForm req s t hexec
  generalize decodeWire req = i at hform
  cases hform with
  | same _ _ hn hc hb => exact State.inv_of_same h hn hc hb
  | start _ dir ids _ bus hcur hk ht =>
    rcases hk with ⟨hopen, rfl, rfl⟩ | ⟨hclosed, a, rfl, hfound, rfl⟩
    · rw [State.eventAll_eq_servedEach h] at ht
      refine State.inv_of_round h hcfg (by rw [ht]; rfl) ?_ (by rw [ht]; rfl)
        (f := Device.notified s.cfg (startEvent dir)) fun dev => Device.wf_notified (startEvent dir)
      rw [ht]
      exact BusState.wf_setDir hwf hopen dir
    · rw [State.eventAll_start h hclosed] at ht
      exact State.inv_of_opening (a := a) (dir := dir) h hclosed hfound hcfg (by rw [ht]; rfl) (by rw [ht]; rfl)
  | send _ v _ hopen ht =>
    rw [State.sendAll_eq_servedEach h] at ht
    exact State.inv_of_round h hcfg (by rw [ht]; rfl) (by rw [ht]; exact hwf) (by rw [ht]; rfl)
      fun dev => Device.wf_givenByte v
  | recv _ _ hopen ht =>
    rw [State.recvAll_eq_servedEach h] at ht
    exact State.inv_of_round (f := fun dev => (dev.askedByte s.cfg).1) h hcfg (by rw [ht]; rfl) (by rw [ht]; exact hwf)
      (by rw [ht]; rfl) fun dev => Device.wf_askedByte
  | nack _ _ hopen ht =>
    have hround := State.eventAll_eq_servedEach h .nack s.bus
    have ht' := ht.trans (congrArg (fun u : State => u.answer .ack 0) hround)
    exact State.inv_of_round h hcfg (by rw [ht']; rfl) (by rw [ht']; exact hwf) (by rw [ht']; rfl)
      fun dev => Device.wf_notified .nack
  | stop _ _ hopen ht =>
    have hround := State.eventAll_eq_servedEach h .finish s.bus
    have ht' := ht.trans
      (congrArg (fun u : State => ({ u with bus := BusState.idle } : State).answer .ack 0) hround)
    exact State.inv_of_stop h hcfg (by rw [ht']; rfl) (by rw [ht']; rfl)

/-! ### Host operations keep the invariant -/

/-- A REGDEV with well-formed parameters is well-formed at reset (R27). -/
theorem RegDev.wf_reset {c : RegDevCfg} (hc : c.wf g = true) : (RegDev.reset g.bufCap c).wf g c = true := by
  simp only [RegDevCfg.wf, Bool.and_eq_true, decide_eq_true_eq, List.all_eq_true] at hc
  obtain ⟨⟨⟨⟨⟨⟨-, -⟩, hlen⟩, hpages⟩, -⟩, -⟩, -⟩ := hc
  refine (RegDev.wf_iff _).2 ⟨Framer.wf_idle _, ?_, ?_, ?_⟩
  · exact ⟨List.length_replicate, Nat.zero_le _, Nat.zero_le _⟩
  · rw [RegDev.reset, List.length_map, hlen]
  · intro p hp
    obtain ⟨q, hq, rfl⟩ := List.mem_map.1 hp
    exact hpages q hq

theorem Node.reset_wf {n : Node} (hc : n.dev.configOk g = true) : (n.reset g.bufCap).dev.wf g = true := by
  obtain ⟨id, addr0, addr, dev⟩ := n
  cases dev with
  | stub | mux => rfl
  | regdev c r => exact RegDev.wf_reset hc

theorem Node.reset_atRest (cap : Nat) (n : Node) : (n.reset cap).dev.atRest = true := by
  obtain ⟨id, addr0, addr, dev⟩ := n
  cases dev <;> rfl

theorem State.configOk_node (h : s.configOk = true) : ∀ n ∈ s.nodes, n.dev.configOk s.cfg = true := by
  simp only [State.configOk, Bool.and_eq_true, List.all_eq_true] at h
  exact h.2

theorem RegDev.wf_setPages {c : RegDevCfg} {r : RegDev} {pg : List Page} (h : r.wf g c = true)
    (hlen : pg.length = r.pg.length)
    (hpg : (∀ p ∈ r.pg, Page.wf g.strMax p = true) → ∀ p ∈ pg, Page.wf g.strMax p = true) :
    ({ r with pg := pg } : RegDev).wf g c = true := by
  obtain ⟨hfr, hrd, hnum, hpages⟩ := (RegDev.wf_iff r).1 h
  exact (RegDev.wf_iff _).2 ⟨hfr, hrd, hlen.trans hnum, hpg hpages⟩

theorem exec_host_inv (h : s.inv = true) (hd : decode (.host op args) = .ok i) (hexec : exec i s = .next t) :
    t.inv = true := by
  have hok := State.inv_configOk h
  have hcfg := exec_host_configuration hok hd hexec
  have hwf : s.bus.wf = true := ((State.inv_iff s).1 h).2.1
  cases hostForm hd hexec with
  | same hn hc hb => exact State.inv_of_same h hn hc hb
  | reset hn hc hb =>
    refine State.inv_of_map h hcfg hn (by rw [hb]; rfl) (fun _ => rfl)
      (fun n hn _ => Node.reset_wf (State.configOk_node hok n hn)) ?_ fun n _ _ _ => n.reset_atRest _
    rw [hb]
    exact fun _ hid => absurd hid List.not_mem_nil
  | addr m a hn hc hb =>
    refine State.inv_of_map h hcfg hn (by rw [hb]; exact hwf) (fun n => ?_) (fun n _ hn => ?_)
      (by rw [hb]; exact State.inv_cur_mem h) fun n _ hid hrest => ?_
    · split <;> rfl
    · split <;> exact hn
    · rw [hb] at hid
      split <;> exact hrest.resolve_left hid
  | pages d c r pg hr hp hn hc hb =>
    have hids := State.inv_ids h
    refine State.inv_of_map h hcfg hn (by rw [hb]; exact hwf) (fun n => ?_) (fun n hn hwf => ?_)
      (by rw [hb]; exact State.inv_cur_mem h) fun n hn hid hrest => ?_
    · split <;> rfl
    · split
      next hnd =>
        rw [State.dev_of_regdev? hids hr hn hnd] at hwf
        exact RegDev.wf_setPages hwf hp.1 hp.2
      next => exact hwf
    · rw [hb] at hid
      have hrest := hrest.resolve_left hid
      split
      next hnd =>
        rw [State.dev_of_regdev? hids hr hn hnd] at hrest
        exact hrest
      next => exact hrest

/-- Settles O12: the invariant does not read requests, answers and diagnostics; every form of a step keeps it. -/
theorem stepKeepsTheInvariant : Obligations.StepKeepsTheInvariant := by
  intro s t h hstep
  have hbegin : ∀ rest, (s.begin rest).inv = true := fun _ => State.inv_of_same h rfl rfl rfl
  cases (stepForm hstep).2 with
  | idle ht => rw [ht]; exact h
  | wire rest req hexec => exact exec_wire_inv (hbegin rest) hexec
  | host rest op args i hd hexec => exact exec_host_inv (hbegin rest) hd hexec
  | reserved rest ht => rw [ht]; exact State.inv_of_same (hbegin rest) rfl rfl rfl

end Sys2Proof.Machine
end

section
/-! What a START on an idle bus addresses (R82 to R84). The scan with an empty accumulator is given by equations of its
own; from them it is the filter of the reachable nodes (broadcast), or the first node of each bus with something to give. -/

namespace Sys2Proof.Machine

variable {s : State} {a : BusAddr} {b : Bool} {claims : NodeId → Bool} {control : NodeId → Byte}

/-! ### The scan with an empty accumulator -/

theorem scanBus_slave (id : NodeId) (rest : TopoBus) :
    scanBus s a b (.slave id rest) [] =
      if s.claims id a b && !b then ([id], true)
      else ((if s.claims id a b then [id] else []) ++ (scanBus s a b rest []).1,
        s.claims id a b || (scanBus s a b rest []).2) := by
  simp only [scanBus, State.addIfClaims_nil]
  rw [(scan_acc s a b).1 rest]
  by_cases hclaim : s.claims id a b = true
  · simp [hclaim]
  · simp [hclaim]

theorem scanBus_mux (id : NodeId) (chans : TopoChans) (rest : TopoBus) :
    scanBus s a b (.mux id chans rest) [] =
      if (s.claims id a b || (scanChans s a b (s.muxControl id) 0 chans []).2) && !b then
        ((if s.claims id a b then [id] else []) ++ (scanChans s a b (s.muxControl id) 0 chans []).1, true)
      else ((if s.claims id a b then [id] else []) ++ (scanChans s a b (s.muxControl id) 0 chans []).1 ++
          (scanBus s a b rest []).1,
        (s.claims id a b || (scanChans s a b (s.muxControl id) 0 chans []).2) || (scanBus s a b rest []).2) := by
  simp only [scanBus, State.addIfClaims_nil]
  rw [(scan_acc s a b).2 chans, (scan_acc s a b).1 rest]

theorem scanChans_channel (bits : Byte) (i : Nat) (child : TopoBus) (rest : TopoChans) :
    scanChans s a b bits i (.channel child rest) [] =
      if bits.getLsbD i then
        ((scanBus s a b child []).1 ++ (scanChans s a b bits (i + 1) rest []).1,
          (scanBus s a b child []).2 || (scanChans s a b bits (i + 1) rest []).2)
      else scanChans s a b bits (i + 1) rest [] := by
  simp only [scanChans]
  rw [(scan_acc s a b).2 rest]

/-! ### A broadcast scan -/

mutual
/-- A broadcast scan ends at no match: it finds every reachable node that claims. -/
theorem scanBus_broadcast : ∀ B : TopoBus,
    (scanBus s a true B []).1 = (reachableOn s.muxControl B).filter fun id => s.claims id a true
  | .empty => rfl
  | .slave id rest => by
    rw [scanBus_slave, Bool.not_true, Bool.and_false, if_neg Bool.false_ne_true, scanBus_broadcast rest]
    simp only [reachableOn, List.filter_cons]
    split <;> rfl
  | .mux id chans rest => by
    rw [scanBus_mux, Bool.not_true, Bool.and_false, if_neg Bool.false_ne_true, scanBus_broadcast rest,
      scanChans_broadcast _ _ chans]
    simp only [reachableOn, List.filter_cons, List.filter_append]
    split <;> simp
theorem scanChans_broadcast (bits : Byte) : ∀ (i : Nat) (C : TopoChans),
    (scanChans s a true bits i C []).1 = (reachableBelow s.muxControl bits i C).filter fun id => s.claims id a true
  | _, .nil => rfl
  | i, .channel child rest => by
    rw [scanChans_channel]
    simp only [reachableBelow, List.filter_append]
    rw [← scanChans_broadcast bits (i + 1) rest]
    split
    · rw [scanBus_broadcast child]
    · rfl
end

/-! ### A scan without broadcast -/

mutual
/-- A scan without broadcast finds what `firstFoundOn` gives, and reports a match exactly when that is something. -/
theorem scanBus_first : ∀ B : TopoBus, scanBus s a false B [] =
    (firstFoundOn (fun id => s.claims id a false) s.muxControl B,
      decide (firstFoundOn (fun id => s.claims id a false) s.muxControl B ≠ []))
  | .empty => rfl
  | .slave id rest => by
    rw [scanBus_slave, scanBus_first rest]
    simp only [firstFoundOn]
    by_cases hclaim : s.claims id a false = true
    · simp [hclaim]
    · simp [hclaim]
  | .mux id chans rest => by
    rw [scanBus_mux, scanBus_first rest, scanChans_first _ _ chans]
    simp only [firstFoundOn]
    by_cases hclaim : s.claims id a false = true
    · simp [hclaim]
    · by_cases hbelow : foundBelow (fun id => s.claims id a false) s.muxControl (s.muxControl id) 0 chans = []
      · simp [hclaim, hbelow]
      · simp [hclaim, hbelow]
theorem scanChans_first (bits : Byte) : ∀ (i : Nat) (C : TopoChans), scanChans s a false bits i C [] =
    (foundBelow (fun id => s.claims id a false) s.muxControl bits i C,
      decide (foundBelow (fun id => s.claims id a false) s.muxControl bits i C ≠ []))
  | _, .nil => rfl
  | i, .channel child rest => by
    rw [scanChans_channel, scanBus_first child, scanChans_first bits (i + 1) rest]
    simp only [foundBelow]
    split
    · simp only [ne_eq, List.append_eq_nil_iff, Bool.decide_or, not_and_or]
    · rfl
end

/-! ### What `firstFoundOn` gives, in terms of the reachable nodes -/

mutual
theorem firstFoundOn_sublist : ∀ B : TopoBus,
    (firstFoundOn claims control B).Sublist ((reachableOn control B).filter claims)
  | .empty => List.Sublist.refl _
  | .slave id rest => by
    simp only [firstFoundOn, reachableOn, List.filter_cons]
    split
    · exact (List.nil_sublist _).cons_cons id
    · exact firstFoundOn_sublist rest
  | .mux id chans rest => by
    have hself : (if claims id then [id] else []) = [id].filter claims := by simp only [List.filter_cons, List.filter_nil]
    have hnodes : (reachableOn control (.mux id chans rest)).filter claims =
        ([id].filter claims ++ (reachableBelow control (control id) 0 chans).filter claims) ++
          (reachableOn control rest).filter claims := by
      rw [reachableOn, ← List.filter_append, ← List.filter_append]; rfl
    rw [hnodes]
    simp only [firstFoundOn, hself]
    split
    · exact (firstFoundOn_sublist rest).trans (List.sublist_append_right _ _)
    · exact ((List.Sublist.refl _).append (foundBelow_sublist _ _ chans)).trans (List.sublist_append_left _ _)
theorem foundBelow_sublist (bits : Byte) : ∀ (i : Nat) (C : TopoChans),
    (foundBelow claims control bits i C).Sublist ((reachableBelow control bits i C).filter claims)
  | _, .nil => List.Sublist.refl _
  | i, .channel child rest => by
    simp only [foundBelow, reachableBelow, List.filter_append]
    refine List.Sublist.append ?_ (foundBelow_sublist bits (i + 1) rest)
    split
    · exact firstFoundOn_sublist child
    · exact List.nil_sublist _
end

mutual
/-- With a claiming node in reach, the search finds something. -/
theorem claims_of_firstFoundOn_nil : ∀ B : TopoBus,
    firstFoundOn claims control B = [] → (reachableOn control B).filter claims = []
  | .empty, _ => rfl
  | .slave id rest, h => by
    simp only [firstFoundOn] at h
    split at h
    · cases h
    next hclaim => rw [reachableOn, List.filter_cons_of_neg hclaim, claims_of_firstFoundOn_nil rest h]
  | .mux id chans rest, h => by
    rw [firstFoundOn] at h
    by_cases hhere : (if claims id then [id] else []) ++ foundBelow claims control (control id) 0 chans = []
    · obtain ⟨hself, hbelow⟩ := List.append_eq_nil_iff.1 hhere
      have hclaim : ¬ claims id = true := fun hc => by rw [if_pos hc] at hself; cases hself
      rw [reachableOn, List.filter_cons_of_neg hclaim, List.filter_append,
        claims_of_foundBelow_nil _ _ chans hbelow, claims_of_firstFoundOn_nil rest ((if_pos hhere).symm.trans h),
        List.append_nil]
    · exact absurd ((if_neg hhere).symm.trans h) hhere
theorem claims_of_foundBelow_nil (bits : Byte) : ∀ (i : Nat) (C : TopoChans),
    foundBelow claims control bits i C = [] → (reachableBelow control bits i C).filter claims = []
  | _, .nil, _ => rfl
  | i, .channel child rest, h => by
    simp only [foundBelow] at h
    obtain ⟨hchild, hrest⟩ := List.append_eq_nil_iff.1 h
    rw [reachableBelow, List.filter_append, claims_of_foundBelow_nil bits (i + 1) rest hrest, List.append_nil]
    split
    next hbit => rw [if_pos hbit] at hchild; exact claims_of_firstFoundOn_nil child hchild
    next hbit => rfl
end

theorem firstFoundOn_eq_nil_iff (B : TopoBus) :
    firstFoundOn claims control B = [] ↔ (reachableOn control B).filter claims = [] :=
  ⟨claims_of_firstFoundOn_nil B, fun h => List.eq_nil_of_sublist_nil (h ▸ firstFoundOn_sublist B)⟩

/-- On a bus without a MUX the search finds exactly the first claiming node. -/
theorem firstFoundOn_of_no_mux : ∀ B : TopoBus, B.members.all (fun m => !m.2) = true →
    firstFoundOn claims control B = ((reachableOn control B).find? claims).toList
  | .empty, _ => rfl
  | .slave id rest, h => by
    have hrest : rest.members.all (fun m => !m.2) = true := by simpa [TopoBus.members] using h
    by_cases hclaim : claims id = true
    · rw [firstFoundOn, if_pos hclaim, reachableOn, List.find?_cons_of_pos hclaim, Option.toList_some]
    · rw [firstFoundOn, if_neg hclaim, reachableOn, List.find?_cons_of_neg hclaim, firstFoundOn_of_no_mux rest hrest]
  | .mux id chans rest, h => by simp [TopoBus.members] at h

theorem State.addressed_broadcast (ha : a = s.cfg.bcastAddr) :
    s.addressed a = s.reachable.filter fun id => s.claims id a true := by
  rw [State.addressed, decide_eq_true ha, scanBus_broadcast, State.reachable]

theorem State.addressed_first (ha : a ≠ s.cfg.bcastAddr) :
    s.addressed a = firstFoundOn (fun id => s.claims id a false) s.muxControl s.cfg.root := by
  rw [State.addressed, decide_eq_false ha, scanBus_first]

/-- Settles O30: the broadcast scan is a filter of the reachable nodes, any other scan is `firstFoundOn`. -/
theorem scanAddressesClaimingReachableNodes : Obligations.ScanAddressesClaimingReachableNodes := by
  unfold Obligations.ScanAddressesClaimingReachableNodes
  intro s a
  refine ⟨State.addressed_broadcast, fun ha => ⟨State.addressed_first ha, ?_⟩⟩
  rw [State.addressed_first ha, State.reachable]
  exact ⟨firstFoundOn_sublist _, firstFoundOn_eq_nil_iff _, firstFoundOn_of_no_mux _⟩

end Sys2Proof.Machine
end
